-- ==== Sys2Proof/Word.lean ====
section
/-! DEFINITION. The word types of the GFD-AEAD engine: bytes, byte strings (00_scope.md R8) and Blocks (R7).
Everything computed from them that a test could show wrong stands in Decode.lean and Machine/. -/

namespace Sys2Proof

/-- One byte of a payload or buffer. -/
abbrev Byte := BitVec 8

/-- A byte string, first byte first (00_scope.md R8). -/
abbrev Bytes := List Byte

/-- A Block: a bit string of length `w`, bit 0 the least significant, that is the last, bit (00_scope.md R7). -/
abbrev Block (w : Nat) := BitVec w

end Sys2Proof
end

