-- ==== Sys2Proof/Config.lean ====
section
/-! DEFINITION. What one instance of the engine fixes: the configuration inputs sampled at reset (00_scope.md R5), the
named parameters of R6, and the values the spec leaves open, as constants without a body. -/

namespace Sys2Proof

/-- Direction of an engine instance (00_scope.md R5, 30_encoding.md R73). -/
inductive Dir where
  | enc
  | dec
deriving DecidableEq, Repr

/-- Which block cipher stands behind the cipher port (the `CIPHER=<name>` of 30_encoding.md R69). -/
inductive CipherSel where
  /-- The arbitrary cipher number `n`: a keyed permutation of which nothing else is known (00_scope.md R10). -/
  | ext (n : Nat)
  /-- The fixture TOY-w of 95_test_vectors.md section 2; no part of the hardware, it makes the spec's vectors runnable. -/
  | toy
deriving DecidableEq, Repr

/-- How the nonce word is assembled (00_scope.md R6, parameter `NONCE_FMT`). -/
inductive NonceFmt where
  /-- 42_nonce_cache.md R102. -/
  | doc
  /-- 42_nonce_cache.md R103. -/
  | std
deriving DecidableEq, Repr

/-- The configuration inputs sampled at reset (00_scope.md R5, 10_state.md R20). `E` and `D` are named by `cipher`. -/
structure Straps where
  /-- Block size in bytes, the cipher's answer to `CIPH_BS`. -/
  bs : Nat
  /-- `TAGLEN`, in bytes. -/
  taglen : Nat
  /-- `DIR`. -/
  dir : Dir
  /-- `KEYLENS`, the cipher's accepted key lengths in bytes. -/
  keylens : List Nat
  /-- The attached cipher. -/
  cipher : CipherSel
deriving DecidableEq, Repr

/-- The named parameters of 00_scope.md R6 with the spec's defaults; `none` is 'unbounded'. -/
structure Params where
  /-- `BOTTOM_BITS`. -/
  bottomBits : Nat := 6
  /-- `STRETCH_SHIFT`. -/
  stretchShift : Nat := 8
  /-- `EXT_BITS`. -/
  extBits : Nat := 64
  /-- `NONCE_FMT`. -/
  nonceFmt : NonceFmt := .doc
  /-- `CTR_BITS`. -/
  ctrBits : Option Nat := none
  /-- `L_DEPTH`. -/
  lDepth : Option Nat := none
  /-- `AD_MAX`. -/
  adMax : Option Nat := none
  /-- `PT_HOLD_MAX`. -/
  ptHoldMax : Option Nat := none
deriving DecidableEq, Repr

/-- All that one engine instance fixes between two resets. -/
structure Cfg extends Straps, Params
deriving DecidableEq, Repr

/-- The block width in bits, `w = 8 · BS` (00_scope.md R4). -/
abbrev Cfg.w (c : Cfg) : Nat := 8 * c.bs

/-- The straps and parameters `State.reset` has: the spec's defaults for R6; the straps are inputs the spec gives no value
for (DESIGN CHOICE, unsafe: log 1). -/
def Cfg.atReset : Cfg :=
  { bs := 16, taglen := 16, dir := .enc, keylens := [16], cipher := .ext 0 }

/-- The arbitrary ciphers: for each number and each key a permutation of the `w`-bit Blocks, nothing else
(00_scope.md R10, 93_implementation_defined.md U17). No body: no proof can evaluate it. Free value, log 2. -/
opaque Config.cipher : Nat → Bytes → (w : Nat) → Equiv.Perm (Block w)

/-- FREE VALUE (log 4): the 48-bit `RLEN` of the `k`-th response when its payload is longer than `2^48 − 1` bytes; the spec
states no result there. -/
opaque Config.freeRlen : Nat → BitVec 48

/-- FREE VALUE (log 5): the nonce word of `NONCE_FMT = STD` for the nonce at a width other than 128, which the spec does not
define (42_nonce_cache.md R103); it depends on the nonce, `TAGLEN` and `w` only (R101 c). -/
opaque Config.nonceWordFree : Bytes → Nat → (w : Nat) → Block w

/-- FREE VALUE (log 6): the reduction constant at an unsupported width, never evaluated by an engine (40_gf_doubling.md
R82). -/
opaque Config.rcUnsupported : Nat → Nat

end Sys2Proof
end

