-- ==== Sys2Proof/Syntax.lean ====
section
/-! DEFINITION. The commands of the engine (30_encoding.md): one constructor per row of opcode_table.json, the transaction
(word, payload) that carries one, and the pseudo-commands of R70. -/

namespace Sys2Proof

/-- A well-formed command. Its single operand is the payload `PL`, and `LEN` is `|PL|` (30_encoding.md R61). -/
inductive Instr where
  /-- SET_KEY, payload = key (41_mask_schedule.md R96). -/
  | setKey (pl : Bytes)
  /-- SET_AD, payload = the whole associated data (43_ad_hash.md R118). -/
  | setAd (pl : Bytes)
  /-- START, payload = nonce (42_nonce_cache.md R111). -/
  | start (pl : Bytes)
  /-- UPDATE, payload = data chunk (44_core_loop.md R134). -/
  | update (pl : Bytes)
  /-- FINISH, payload = last data chunk, then the tag where `DIR = DEC` (45_tag_finish.md R143, R144). -/
  | finish (pl : Bytes)
deriving DecidableEq, Repr

/-- The operand of a command (30_encoding.md R61). -/
def Instr.payload : Instr → Bytes
  | .setKey pl => pl
  | .setAd pl => pl
  | .start pl => pl
  | .update pl => pl
  | .finish pl => pl

/-- One transaction of the command port: the 64-bit command word and the payload bytes that follow it
(30_encoding.md R60, 92_eei_decisions.md D7). -/
structure Command where
  cw : BitVec 64
  payload : Bytes
deriving DecidableEq, Repr

/-- `MSG N A X` (30_encoding.md R70). -/
def pseudoMsg (n a x : Bytes) : List Instr := [.setAd a, .start n, .finish x]

/-- `SEAL K N A P` (30_encoding.md R70), for an engine with `DIR = ENC`. -/
def pseudoSeal (k n a p : Bytes) : List Instr := .setKey k :: pseudoMsg n a p

/-- `OPEN K N A CT` (30_encoding.md R70), for an engine with `DIR = DEC`. -/
def pseudoOpen (k n a ct : Bytes) : List Instr := .setKey k :: pseudoMsg n a ct

end Sys2Proof
end

