-- ==== Sys2Proof/WellFormed.lean ====
section
/-! DEFINITION. Which commands an encoding exists for, and which transactions are framed as the spec frames them. -/

namespace Sys2Proof

/-- The length of the payload fits the 48-bit field `LEN` (30_encoding.md R60). The only condition the encoding puts on a
command; what each command asks of its payload is checked by the machine, with a status of its own (R67). -/
def Instr.wellFormed (i : Instr) : Bool := decide (i.payload.length < 2 ^ 48)

/-- The transport delivered exactly `LEN` payload bytes (30_encoding.md R61). -/
def Command.framed (c : Command) : Bool := decide (c.payload.length = (c.cw.extractLsb' 0 48).toNat)

end Sys2Proof
end

