-- ==== Sys2Proof/Decode.lean ====
section
/-! DEFINITION. Bytes and bit strings (00_scope.md R8), the decoder of command words (30_encoding.md R60 to R68), after it
the encoder, the encoding of the configuration inputs (R73), and the text form (R69). -/

namespace Sys2Proof

/-- `int(S)`: the byte string as a number, first byte most significant (00_scope.md R8). -/
def intOf (s : Bytes) : Nat := s.foldl (fun a b => 256 * a + b.toNat) 0

/-- `bytes_n(X)`: the low `8n` bits of a bit string as `n` bytes, most significant first (00_scope.md R8). -/
def bytesOf {w : Nat} : Nat → BitVec w → Bytes
  | 0, _ => []
  | n + 1, x => x.extractLsb' (8 * n) 8 :: bytesOf n x

/-- `CW[63:56]`, the field `OPC` (30_encoding.md R60). -/
def opcField (cw : BitVec 64) : BitVec 8 := cw.extractLsb' 56 8

/-- `CW[55:48]`, the field `RSV` (30_encoding.md R60). -/
def rsvField (cw : BitVec 64) : BitVec 8 := cw.extractLsb' 48 8

/-- `CW[47:0]`, the field `LEN` (30_encoding.md R60). -/
def lenField (cw : BitVec 64) : BitVec 48 := cw.extractLsb' 0 48

/-- Why a command word spells no command (30_encoding.md R66). -/
inductive DecodeError where
  /-- `RSV ≠ 0x00`. -/
  | reservedField (rsv : BitVec 8)
  /-- `OPC = 0x00` or `OPC ≥ 0x06`. -/
  | reservedOpcode (opc : BitVec 8)
deriving DecidableEq, Repr

/-- The mask by which a decoder selects the command (30_encoding.md R65). -/
def selMask : BitVec 64 := 0xFFFF000000000000#64

/-- The decoder of a transaction: the command the word spells, with the payload as its operand, or the reason it spells none
(30_encoding.md R65, R66). -/
def decodeCommand (cmd : Command) : Except DecodeError Instr :=
  let sel := cmd.cw &&& selMask
  if sel = 0x0100000000000000#64 then .ok (.setKey cmd.payload)
  else if sel = 0x0200000000000000#64 then .ok (.setAd cmd.payload)
  else if sel = 0x0300000000000000#64 then .ok (.start cmd.payload)
  else if sel = 0x0400000000000000#64 then .ok (.update cmd.payload)
  else if sel = 0x0500000000000000#64 then .ok (.finish cmd.payload)
  else if rsvField cmd.cw ≠ 0#8 then .error (.reservedField (rsvField cmd.cw))
  else .error (.reservedOpcode (opcField cmd.cw))

/-- One transaction off a byte-wide transport: the command word most significant byte first (30_encoding.md R62), then `LEN`
payload bytes (R68), and the bytes that follow. `none` when the transaction is not complete. -/
def takeCommand (bs : Bytes) : Option (Command × Bytes) :=
  let cw := BitVec.ofNat 64 (intOf (bs.take 8))
  let rest := bs.drop 8
  let len := (lenField cw).toNat
  if bs.length < 8 then none
  else if rest.length < len then none
  else some (⟨cw, rest.take len⟩, rest.drop len)

/-- What a byte stream begins with. -/
inductive StreamHead where
  /-- A command, and the bytes after it. -/
  | command (i : Instr) (rest : Bytes)
  /-- A transaction that spells no command; its payload is consumed (30_encoding.md R66). -/
  | illegal (e : DecodeError) (rest : Bytes)
  /-- Fewer bytes than one transaction. -/
  | incomplete
deriving DecidableEq, Repr

/-- The decoder of a byte stream, total on any bytes (30_encoding.md R62, R66, R68). -/
def decodeStream (bs : Bytes) : StreamHead :=
  match takeCommand bs with
  | none => .incomplete
  | some (cmd, rest) =>
    match decodeCommand cmd with
    | .ok i => .command i rest
    | .error e => .illegal e rest

/-- The opcode of a command (30_encoding.md R65). -/
def opcodeOf : Instr → BitVec 8
  | .setKey _ => 0x01#8
  | .setAd _ => 0x02#8
  | .start _ => 0x03#8
  | .update _ => 0x04#8
  | .finish _ => 0x05#8

/-- The encoder: `OPC`, `RSV = 0x00`, `LEN = |PL|`, then the payload (30_encoding.md R60, R61, R65). -/
def encode (i : Instr) : Command :=
  ⟨opcodeOf i ++ 0x00#8 ++ BitVec.ofNat 48 i.payload.length, i.payload⟩

/-- The bytes of a transaction on a byte-wide transport (30_encoding.md R62, R68). -/
def Command.toBytes (cmd : Command) : Bytes := bytesOf 8 cmd.cw ++ cmd.payload

/-- `n` bytes of a number, least significant byte first: how the opcode table numbers the bits after the command word. -/
def bytesUp : Nat → Nat → Bytes
  | 0, _ => []
  | n + 1, x => BitVec.ofNat 8 x :: bytesUp n (x / 256)

/-- The transaction whose bits are the low `nbits` bits of `w`, numbered as opcode_table.json numbers them: the command word
is bits 63..0, payload byte `k` bits `71+8k..64+8k`; every bit from `nbits` on is 0. -/
def tableCommand (nbits w : Nat) : Command :=
  let bits := w % 2 ^ nbits
  let cw := BitVec.ofNat 64 bits
  ⟨cw, bytesUp (lenField cw).toNat (bits / 2 ^ 64)⟩

/-- The instruction the decoder reads from an instruction with the bits `w` (see `tableCommand`). -/
def decodeTableWord (nbits w : Nat) : Option Instr :=
  match decodeCommand (tableCommand nbits w) with
  | .ok i => some i
  | .error _ => none

/-- `DIR` from its bit (30_encoding.md R73). -/
def dirOfBit (b : BitVec 1) : Dir := if b = 1#1 then .dec else .enc

/-- The bit of `DIR` (30_encoding.md R73). -/
def dirBit : Dir → BitVec 1
  | .enc => 0#1
  | .dec => 1#1

/-- The configuration inputs from their encodings: `BS` 7 bits, `TAGLEN` 7 bits, `DIR` 1 bit, with the properties of the
attached cipher beside them (30_encoding.md R73, 10_state.md R20). -/
def strapsOfBits (bs taglen : BitVec 7) (dir : BitVec 1) (keylens : List Nat) (cipher : CipherSel) : Straps :=
  { bs := bs.toNat, taglen := taglen.toNat, dir := dirOfBit dir, keylens := keylens, cipher := cipher }

/-- One hexadecimal digit (30_encoding.md R69). -/
def hexDigit (n : Nat) : Char := if n < 10 then Char.ofNat (48 + n) else Char.ofNat (55 + n)

/-- A byte string as text: hexadecimal, first byte first, `-` for the empty string (30_encoding.md R69). -/
def hexText (s : Bytes) : String :=
  if s = [] then "-" else String.ofList (s.flatMap fun b => [hexDigit (b.toNat / 16), hexDigit (b.toNat % 16)])

/-- The mnemonic of a command (30_encoding.md R65). -/
def mnemonic : Instr → String
  | .setKey _ => "SET_KEY"
  | .setAd _ => "SET_AD"
  | .start _ => "START"
  | .update _ => "UPDATE"
  | .finish _ => "FINISH"

/-- The text form `MNEMONIC <hex>` of a command (30_encoding.md R69). -/
def commandText (i : Instr) : String := mnemonic i ++ " " ++ hexText i.payload

/-- `ENC` or `DEC` (30_encoding.md R69). -/
def dirText : Dir → String
  | .enc => "ENC"
  | .dec => "DEC"

/-- The text form that introduces an engine instance (30_encoding.md R69). -/
def engineText (name cipher : String) (st : Straps) : String :=
  "ENGINE " ++ name ++ " BS=" ++ Nat.repr st.bs ++ " TAGLEN=" ++ Nat.repr st.taglen ++ " DIR=" ++ dirText st.dir ++
    " CIPHER=" ++ cipher

/-- The text form of a reset (30_encoding.md R69). -/
def resetText (name : String) : String := "RESET " ++ name

end Sys2Proof
end

