-- ==== Sys2Proof/Machine/Operands.lean ====
section
/-! DEFINITION. The operand forms of the internal operations: Blocks out of byte strings and back (20_memory.md R41, R42),
slices (00_scope.md R7), cutting a byte string into Blocks (44_core_loop.md R134), padding (43_ad_hash.md R115). -/

namespace Sys2Proof.Machine

/-- `int(S)` as a `w`-bit string (00_scope.md R8). -/
def intBlock (w : Nat) (s : Bytes) : Block w := BitVec.ofNat w (intOf s)

/-- `msb_slice(X, n, s, len)`: `len` bits starting `s` positions after the first bit (00_scope.md R7). -/
def msbSlice {n : Nat} (x : BitVec n) (s len : Nat) : BitVec len := x.extractLsb' (n - s - len) len

/-- `bytes_BS(B)` (20_memory.md R42). -/
def blockBytes {c : Cfg} (b : Block c.w) : Bytes := bytesOf c.bs b

/-- The first `n` Blocks of a byte string, `int(T[j·BS : (j+1)·BS))` for `j = 0 … n−1` (44_core_loop.md R134). -/
def fullBlocks (c : Cfg) : Nat → Bytes → List (Block c.w)
  | 0, _ => []
  | n + 1, t => intBlock c.w (t.take c.bs) :: fullBlocks c n (t.drop c.bs)

/-- `PAD10(S)`: the bytes, `0x80`, zero bytes up to `BS` (43_ad_hash.md R115). -/
def pad10 (c : Cfg) (s : Bytes) : Block c.w :=
  intBlock c.w (s ++ 0x80#8 :: List.replicate (c.bs - s.length - 1) 0x00#8)

/-- `S XOR bytes_BS(PAD)[0 : |S|)` (44_core_loop.md R130, R131). -/
def xorPrefix {c : Cfg} (s : Bytes) (pad : Block c.w) : Bytes :=
  List.zipWith (· ^^^ ·) s (blockBytes pad)

/-- The length is over a capacity; `none` is unbounded (00_scope.md R6). -/
def overCap (cap : Option Nat) (n : Nat) : Bool :=
  match cap with
  | none => false
  | some m => decide (m < n)

end Sys2Proof.Machine
end

