-- ==== Sys2Proof/Machine/State.lean ====
section
/-! DEFINITION. The state of the engine as plain data (10_state.md), its reset value (R38), and the ways a step can stop. -/

namespace Sys2Proof.Machine

/-- `PHASE`, the lifecycle state (10_state.md R21). band1's `Finished` is passed through inside FINISH. -/
inductive Phase where
  | cfgerr
  | uninit
  | keyed
  | started
  | processing
  | fault
deriving DecidableEq, Repr

/-- The error kinds a command can be refused with (60_exceptions.md R155). -/
inductive ErrorKind where
  | configError
  | authFail
  | seqError
  | illegal
deriving DecidableEq, Repr

/-- The outcome a response reports (30_encoding.md R64). -/
inductive Status where
  | ok
  | err (k : ErrorKind)
deriving DecidableEq, Repr

/-- The two operations of the cipher port (30_encoding.md R72). -/
inductive CiphOp where
  | encrypt
  | decrypt
deriving DecidableEq, Repr

/-- One transaction on the cipher port (30_encoding.md R72). Blocks stand as bytes, byte 0 first (20_memory.md R42). -/
inductive CiphEvent where
  /-- `CIPH_SETKEY(key)` and whether the cipher answered `ok`. -/
  | setKey (key : Bytes) (ok : Bool)
  /-- `CIPH(op, B)`: the operation, the Block sent and the Block answered. -/
  | request (op : CiphOp) (input answer : Bytes)
deriving DecidableEq, Repr

/-- What the host does at the engine's inputs (00_scope.md R11, R12). -/
inductive HostEvent where
  /-- A command: its word and its payload. -/
  | command (cmd : Command)
  /-- The reset input, with the configuration inputs as they stand when it is asserted (70_reset_and_hazards.md R180). -/
  | reset (st : Straps)
deriving DecidableEq, Repr

/-- One response: the response word and the payload that follows it (30_encoding.md R63). -/
structure Response where
  rw : BitVec 64
  payload : Bytes
deriving DecidableEq, Repr

/-- The registers of an engine with configuration `c`, each under the name 10_state.md gives it. -/
structure Engine (c : Cfg) where
  /-- `PHASE` (R21). -/
  phase : Phase
  /-- `KEY` (R22). -/
  key : Bytes
  /-- `LSTAR` (R23). -/
  lstar : Block c.w
  /-- `LDOLLAR` (R23). -/
  ldollar : Block c.w
  /-- `LTAB` (R24); `LCNT` is its length. -/
  ltab : List (Block c.w)
  /-- `NC_VALID` (R25). -/
  ncValid : Bool
  /-- `NC_TOP` (R25). -/
  ncTop : Block c.w
  /-- `NC_KTOP` (R25). -/
  ncKtop : Block c.w
  /-- `NC_STRETCH` (R25). -/
  ncStretch : BitVec (c.w + c.extBits)
  /-- `BOTTOM` (R26). -/
  bottom : BitVec c.bottomBits
  /-- `ADBUF` (R27). -/
  adbuf : Bytes
  /-- `SUM` (R28). -/
  sum : Block c.w
  /-- `OFFSET` (R29). -/
  offset : Block c.w
  /-- `CHECKSUM` (R30). -/
  checksum : Block c.w
  /-- `CTR` (R31). -/
  ctr : Nat
  /-- `DBUF` (R32). -/
  dbuf : Bytes
  /-- `PTHOLD` (R33). -/
  pthold : Bytes
  /-- The MODEL's record of the cipher port, oldest transaction first; no register of the spec (log 3). -/
  ciphLog : List CiphEvent
deriving DecidableEq, Repr

/-- `LCNT`, the number of mask-table entries computed so far (10_state.md R24). -/
def Engine.lcnt {c : Cfg} (e : Engine c) : Nat := e.ltab.length

/-- The machine: the configuration sampled at the last reset, the registers, and the model's view of the two ports. -/
structure State where
  /-- The configuration inputs and parameters (10_state.md R20, 00_scope.md R6). -/
  cfg : Cfg
  /-- The registers. -/
  eng : Engine cfg
  /-- The host's events not yet taken, oldest first (model's own, log 3). -/
  cmdIn : List HostEvent
  /-- The responses given so far, oldest first (model's own, log 3). -/
  rspOut : List Response
  /-- Number of responses so far, the argument of `Config.freeRlen` (model's own, log 4). -/
  freeCtr : Nat
deriving DecidableEq, Repr

/-- Reasons to stop with a fault. There is none: every error of the spec is a status in a response and a defined next state
(60_exceptions.md R155, R162), so the type is empty. -/
inductive Fault
deriving DecidableEq, Repr

/-- Reasons for which the model defines no step. -/
inductive Refusal where
  /-- Raised by `exec` for an instruction that has no meaning yet. Safe. -/
  | notModelled (mnemonic : String)
  /-- Raised by UPDATE and FINISH where `CTR_BITS` is finite, for the block that would make `CTR` wrap: the spec says the
  model defines no step (93_implementation_defined.md U5, 92_eei_decisions.md D33). Safe. -/
  | counterWrap
  /-- Raised by START, UPDATE and FINISH where `L_DEPTH` is finite, for a block whose `ntz` reaches it: no step
  (20_memory.md R47, 92_eei_decisions.md D35). Safe. -/
  | tableDepth
  /-- Raised by START where `BOTTOM_BITS`, `STRETCH_SHIFT`, `EXT_BITS` break the condition of 00_scope.md R6, for the slices
  of 42_nonce_cache.md R107, R108 then do not exist. Safe. -/
  | sliceUndefined
  /-- Raised by the step for a transaction whose payload is not `LEN` bytes: outside the model (30_encoding.md R61). Safe. -/
  | badFraming
deriving DecidableEq, Repr

/-- The configuration is legal (70_reset_and_hazards.md R182). `DIR` is legal by its type. -/
def cfgLegal (c : Cfg) : Bool :=
  (c.bs == 16 || c.bs == 24 || c.bs == 32 || c.bs == 64) && decide (c.taglen ≤ c.bs)

/-- The registers after reset (10_state.md R38, 70_reset_and_hazards.md R180); the record of the cipher port is empty. -/
def Engine.reset (c : Cfg) : Engine c where
  phase := if cfgLegal c then .uninit else .cfgerr
  key := []
  lstar := 0
  ldollar := 0
  ltab := []
  ncValid := false
  ncTop := 0
  ncKtop := 0
  ncStretch := 0
  bottom := 0
  adbuf := []
  sum := 0
  offset := 0
  checksum := 0
  ctr := 0
  dbuf := []
  pthold := []
  ciphLog := []

/-- The machine right after reset, with the configuration inputs of `Cfg.atReset` (log 1) and no host event yet. -/
def State.reset : State where
  cfg := Cfg.atReset
  eng := Engine.reset Cfg.atReset
  cmdIn := []
  rspOut := []
  freeCtr := 0

end Sys2Proof.Machine
end

