-- ==== Sys2Proof/Machine/CipherPort.lean ====
section
/-! DEFINITION. The cipher behind the port (00_scope.md R10, 30_encoding.md R72): the arbitrary permutation, and the toy
cipher the spec's vectors are computed with (95_test_vectors.md section 2, 92_eei_decisions.md D40). -/

namespace Sys2Proof.Machine

/-- `ADD8` of TOY-w: byte `k` plus `k + 1` (95_test_vectors.md section 2). -/
def toyAdd : Nat → Bytes → Bytes
  | _, [] => []
  | k, b :: bs => (b + BitVec.ofNat 8 (k + 1)) :: toyAdd (k + 1) bs

/-- `SUB8` of TOY-w: byte `k` minus `k + 1`. -/
def toySub : Nat → Bytes → Bytes
  | _, [] => []
  | k, b :: bs => (b - BitVec.ofNat 8 (k + 1)) :: toySub (k + 1) bs

/-- `E_K(B)` of TOY-w. -/
def toyEnc {c : Cfg} (key : Bytes) (b : Block c.w) : Block c.w :=
  (intBlock c.w (toyAdd 0 (blockBytes (b ^^^ intBlock c.w key)))).rotateLeft 3

/-- `D_K(B)` of TOY-w. -/
def toyDec {c : Cfg} (key : Bytes) (b : Block c.w) : Block c.w :=
  intBlock c.w (toySub 0 (blockBytes (b.rotateRight 3))) ^^^ intBlock c.w key

/-- `E(K, B)`, the attached cipher's `encrypt_block` (00_scope.md R10). -/
def cipherE (c : Cfg) (key : Bytes) (b : Block c.w) : Block c.w :=
  match c.cipher with
  | .ext n => Config.cipher n key c.w b
  | .toy => toyEnc key b

/-- `D(K, B)`, the attached cipher's `decrypt_block` (00_scope.md R10). -/
def cipherD (c : Cfg) (key : Bytes) (b : Block c.w) : Block c.w :=
  match c.cipher with
  | .ext n => (Config.cipher n key c.w).symm b
  | .toy => toyDec key b

/-- What `CIPH(op, B)` answers under a key (30_encoding.md R72). -/
def cipherAnswer (c : Cfg) (key : Bytes) (op : CiphOp) (b : Block c.w) : Block c.w :=
  match op with
  | .encrypt => cipherE c key b
  | .decrypt => cipherD c key b

/-- Whether `CIPH_SETKEY(key)` answers `ok`: the length is in `KEYLENS` (30_encoding.md R72). -/
def cipherAccepts (c : Cfg) (key : Bytes) : Bool := c.keylens.contains key.length

end Sys2Proof.Machine
end

