-- ==== Sys2Proof/Machine/Flags.lean ====
section
/-! DEFINITION. The engine has no flags or condition codes (10_state.md R34); its only outcome indication is the status in
the response word, written here (30_encoding.md R63, R64). -/

namespace Sys2Proof.Machine

/-- The status codes (30_encoding.md R64). -/
def statusCode : Status → BitVec 8
  | .ok => 0x00#8
  | .err .configError => 0x01#8
  | .err .authFail => 0x02#8
  | .err .seqError => 0x03#8
  | .err .illegal => 0x04#8

/-- The field `RLEN`: the payload length; for a payload longer than the field can say, the free value of the `k`-th response
(30_encoding.md R63, log 4). -/
def rlenField (k n : Nat) : BitVec 48 := if n < 2 ^ 48 then BitVec.ofNat 48 n else Config.freeRlen k

/-- The response word: `STATUS`, `RSV = 0x00`, `RLEN` (30_encoding.md R63). -/
def responseWord (k : Nat) (st : Status) (pl : Bytes) : BitVec 64 :=
  statusCode st ++ 0x00#8 ++ rlenField k pl.length

/-- The names of the statuses (30_encoding.md R64). -/
def statusText : Status → String
  | .ok => "OK"
  | .err .configError => "CONFIG_ERROR"
  | .err .authFail => "AUTH_FAIL"
  | .err .seqError => "SEQ_ERROR"
  | .err .illegal => "ILLEGAL"

/-- The text form of a response (30_encoding.md R69). -/
def responseText (st : Status) (pl : Bytes) : String := "-> " ++ statusText st ++ " " ++ hexText pl

end Sys2Proof.Machine
end

