-- ==== Sys2Proof/Machine/Ops.lean ====
section
/-! DEFINITION. The shared operations over the registers: the cipher port, clearing and zeroising, raising an error
(60_exceptions.md R162), the checks every command opens with (R160, R161), answering a command, reset. -/

namespace Sys2Proof.Machine

/-- What one command leaves: the registers, and the response's status and payload. -/
structure Reply (c : Cfg) where
  eng : Engine c
  status : Status
  payload : Bytes
deriving DecidableEq, Repr

/-- One `CIPH(op, B)` request: the answer, and the registers with the transaction recorded (30_encoding.md R72). -/
def ciph {c : Cfg} (op : CiphOp) (b : Block c.w) (e : Engine c) : Block c.w × Engine c :=
  let a := cipherAnswer c e.key op b
  (a, { e with ciphLog := e.ciphLog ++ [.request op (blockBytes b) (blockBytes a)] })

/-- One `CIPH_SETKEY(key)` transaction, recorded (30_encoding.md R72). -/
def ciphSetKey {c : Cfg} (key : Bytes) (e : Engine c) : Engine c :=
  { e with ciphLog := e.ciphLog ++ [.setKey key (cipherAccepts c key)] }

/-- `CLEAR_MESSAGE` (45_tag_finish.md R147): the message class of 10_state.md R36 back to zero and empty. -/
def clearMessage {c : Cfg} (e : Engine c) : Engine c :=
  { e with bottom := 0, adbuf := [], sum := 0, offset := 0, checksum := 0, ctr := 0, dbuf := [], pthold := [] }

/-- Every state element at its reset value but `PHASE` (60_exceptions.md R162, on SEQ_ERROR). -/
def zeroise {c : Cfg} (e : Engine c) : Engine c :=
  { Engine.reset c with phase := e.phase, ciphLog := e.ciphLog }

/-- Taking an exception: the state effects of `raise` (60_exceptions.md R162). There is no return from one (R164). -/
def raise {c : Cfg} (k : ErrorKind) (e : Engine c) : Engine c :=
  match k with
  | .illegal => e
  | .configError => e
  | .authFail => { clearMessage e with phase := .keyed }
  | .seqError => if e.phase = .fault then e else { zeroise e with phase := .fault }

/-- A refused command: the state effects of `raise`, the status, no payload (60_exceptions.md R155, R162). -/
def fail {c : Cfg} (k : ErrorKind) (e : Engine c) : Reply c := ⟨raise k e, .err k, []⟩

/-- `respond(OK, S)` (00_scope.md R9). -/
def respondOk {c : Cfg} (e : Engine c) (pl : Bytes) : Reply c := ⟨e, .ok, pl⟩

/-- The opening checks of every command, in the order of 60_exceptions.md R160, R161: `CFGERR`, `FAULT`, a phase that is not
legal for the command; then the rest of the command. -/
def gate {c : Cfg} (legal : List Phase) (e : Engine c) (body : Except Refusal (Reply c)) : Except Refusal (Reply c) :=
  if e.phase = .cfgerr then .ok (fail .configError e)
  else if e.phase = .fault then .ok (fail .seqError e)
  else if e.phase ∈ legal then body
  else .ok (fail .seqError e)

/-- The state after a command that left `r`: its registers, and its response on the response port. -/
def answer (s : State) (r : Reply s.cfg) : State :=
  { s with
    eng := r.eng
    rspOut := s.rspOut ++ [⟨responseWord s.freeCtr r.status r.payload, r.payload⟩]
    freeCtr := s.freeCtr + 1 }

/-- The outcome of a command: the next state with its response, or no step. -/
def deliver (s : State) (r : Except Refusal (Reply s.cfg)) : Host.Outcome State Fault Refusal :=
  match r with
  | .ok r => .next (answer s r)
  | .error x => .refused x

/-- The machine after its reset input is asserted with the inputs `st` (70_reset_and_hazards.md R180): the inputs are
sampled, every register takes its reset value. The parameters of 00_scope.md R6 belong to the instance and stay; the model's
records of the ports go on. -/
def resetMachine (st : Straps) (s : State) : State :=
  let c : Cfg := { toStraps := st, toParams := s.cfg.toParams }
  { s with cfg := c, eng := { Engine.reset c with ciphLog := s.eng.ciphLog } }

end Sys2Proof.Machine
end

