-- ==== Sys2Proof/Machine/Masks.lean ====
section
/-! DEFINITION. The doubling unit (40_gf_doubling.md), the mask schedule and SET_KEY (41_mask_schedule.md). -/

namespace Sys2Proof.Machine

/-- `RC_w` as a number (40_gf_doubling.md R81); no engine evaluates it at another width (R82, log 6). -/
def rcNat (w : Nat) : Nat :=
  if w = 128 then 0x87
  else if w = 192 then 0x87
  else if w = 256 then 0x0425
  else if w = 512 then 0x0125
  else Config.rcUnsupported w

/-- `RC_w` (40_gf_doubling.md R81). -/
def rc (w : Nat) : Block w := BitVec.ofNat w (rcNat w)

/-- `DOUBLE_w(B)` (40_gf_doubling.md R80). -/
def double {w : Nat} (b : Block w) : Block w := (b <<< 1) ^^^ (if b.msb then rc w else 0)

/-- `DOUBLE_w` `k` times (40_gf_doubling.md R87). -/
def doubleN {w : Nat} : Nat → Block w → Block w
  | 0, b => b
  | k + 1, b => double (doubleN k b)

/-- The search for `ntz`, at most `fuel` halvings. -/
def ntzUpTo : Nat → Nat → Nat
  | 0, _ => 0
  | fuel + 1, i => if i % 2 = 0 then ntzUpTo fuel (i / 2) + 1 else 0

/-- `ntz(i)` for `i ≥ 1`: the number of trailing zero bits (41_mask_schedule.md R94). `ntz(0)` is never evaluated. -/
def ntz (i : Nat) : Nat := ntzUpTo i i

/-- `n` turns of the loop of `LGET`: each appends the double of the last entry, of `LDOLLAR` when there is none
(41_mask_schedule.md R93). -/
def growTable {w : Nat} (ldollar : Block w) : Nat → List (Block w) → List (Block w)
  | 0, t => t
  | n + 1, t => growTable ldollar n (t ++ [double (t.getLast?.getD ldollar)])

/-- `LGET(i)`: the entry, and the registers with the table grown to hold it (41_mask_schedule.md R93). The table holds entry
`i` after the loop, so the 0 of `getD` is never the result. -/
def lget {c : Cfg} (i : Nat) (e : Engine c) : Block c.w × Engine c :=
  let t := growTable e.ldollar (i + 1 - e.ltab.length) e.ltab
  (t.getD i 0, { e with ltab := t })

/-- Whether `n` more full blocks after block number `ctr` have a step: the first one that would make a `CTR_BITS`-bit counter
wrap, or whose `ntz` reaches `L_DEPTH`, is refused (92_eei_decisions.md D33, D35, 20_memory.md R47). -/
def blocksRefused (ctrBits lDepth : Option Nat) : Nat → Nat → Option Refusal
  | _, 0 => none
  | ctr, n + 1 =>
    if (match ctrBits with | none => false | some b => decide (2 ^ b ≤ ctr + 1)) then some .counterWrap
    else if (match lDepth with | none => false | some d => decide (d ≤ ntz (ctr + 1))) then some .tableDepth
    else blocksRefused ctrBits lDepth (ctr + 1) n

/-- Installing an accepted key: the body of SET_KEY after its checks (41_mask_schedule.md R90, R91, R96). -/
def installKey {c : Cfg} (key : Bytes) (e : Engine c) : Engine c :=
  let keyed := { e with key := key }
  let r := ciph .encrypt (0 : Block c.w) keyed
  { clearMessage r.2 with
    lstar := r.1
    ldollar := double r.1
    ltab := []
    ncValid := false
    phase := .keyed }

/-- SET_KEY (41_mask_schedule.md R96). -/
def setKeyReply {c : Cfg} (pl : Bytes) (e : Engine c) : Except Refusal (Reply c) :=
  gate [.uninit, .keyed] e <|
    let asked := ciphSetKey pl e
    if cipherAccepts c pl then .ok (respondOk (installKey pl asked) [])
    else .ok (fail .configError asked)

/-- The meaning of SET_KEY (41_mask_schedule.md R96). -/
def execSetKey (pl : Bytes) (s : State) : Host.Outcome State Fault Refusal :=
  deliver s (setKeyReply pl s.eng)

end Sys2Proof.Machine
end

