-- ==== Sys2Proof/Machine/AdHash.lean ====
section
/-! DEFINITION. The associated-data hash and SET_AD (43_ad_hash.md). -/

namespace Sys2Proof.Machine

/-- The full-block loop of `HASH_AD` from block number `i`, with its Offset and running digest (43_ad_hash.md R116). -/
def hashBlocks {c : Cfg} : List (Block c.w) → Nat → Block c.w → Block c.w → Engine c → Block c.w × Block c.w × Engine c
  | [], _, aoff, digest, e => (aoff, digest, e)
  | a :: as, i, aoff, digest, e =>
    let l := lget (ntz i) e
    let aoff := aoff ^^^ l.1
    let r := ciph .encrypt (aoff ^^^ a) l.2
    hashBlocks as (i + 1) aoff (digest ^^^ r.1) r.2

/-- `HASH_AD(A)`: the digest, and the registers with the table grown and the requests recorded (43_ad_hash.md R116). -/
def hashAd {c : Cfg} (a : Bytes) (e : Engine c) : Block c.w × Engine c :=
  let m := a.length / c.bs
  let full := hashBlocks (fullBlocks c m a) 1 0 0 e
  if 0 < a.length % c.bs then
    let aoff := full.1 ^^^ e.lstar
    let r := ciph .encrypt (aoff ^^^ pad10 c (a.drop (m * c.bs))) full.2.2
    (full.2.1 ^^^ r.1, r.2)
  else (full.2.1, full.2.2)

/-- SET_AD (43_ad_hash.md R118). -/
def setAdReply {c : Cfg} (pl : Bytes) (e : Engine c) : Except Refusal (Reply c) :=
  gate [.keyed] e <|
    if overCap c.adMax pl.length then .ok (fail .configError e)
    else .ok (respondOk { e with adbuf := pl } [])

/-- The meaning of SET_AD (43_ad_hash.md R118). -/
def execSetAd (pl : Bytes) (s : State) : Host.Outcome State Fault Refusal :=
  deliver s (setAdReply pl s.eng)

end Sys2Proof.Machine
end

