-- ==== Sys2Proof/Machine/Nonce.lean ====
section
/-! DEFINITION. The nonce derivation, the nonce-prefix cache and START (42_nonce_cache.md). -/

namespace Sys2Proof.Machine

/-- `TAGMOD = (8·TAGLEN) mod w` (42_nonce_cache.md R102). -/
def tagMod (c : Cfg) : Nat := 8 * c.taglen % c.w

/-- `FORMAT_NONCE`, instance `DOC` (42_nonce_cache.md R102): the bit 'TAGMOD is not zero', zeros, the nonce. -/
def wordDoc (c : Cfg) (n : Bytes) : Block c.w :=
  ((if tagMod c ≠ 0 then 1 else 0 : Block c.w) <<< (c.w - 1)) ||| intBlock c.w n

/-- `FORMAT_NONCE`, instance `STD` (42_nonce_cache.md R103): 7 bits of `TAGMOD`, zeros, a 1, the nonce. Defined for `w = 128`;
at another width the bits above the nonce are the free word's (R101 b, c; log 5). -/
def wordStd (c : Cfg) (n : Bytes) : Block c.w :=
  if c.w = 128 then
    (BitVec.ofNat c.w (tagMod c) <<< 121) ||| ((1 : Block c.w) <<< (8 * n.length)) ||| intBlock c.w n
  else
    ((Config.nonceWordFree n c.taglen c.w >>> (8 * n.length)) <<< (8 * n.length)) ||| intBlock c.w n

/-- `FORMAT_NONCE(N)` (42_nonce_cache.md R101). -/
def formatNonce (c : Cfg) (n : Bytes) : Block c.w :=
  match c.nonceFmt with
  | .doc => wordDoc c n
  | .std => wordStd c n

/-- `BOTTOM`, the low bits of the nonce word (42_nonce_cache.md R104). -/
def bottomOf (c : Cfg) (word : Block c.w) : BitVec c.bottomBits := word.extractLsb' 0 c.bottomBits

/-- `TOPWORD`, the nonce word with those bits cleared (42_nonce_cache.md R104). -/
def topWord (c : Cfg) (word : Block c.w) : Block c.w := (word >>> c.bottomBits) <<< c.bottomBits

/-- `STRETCH(Ktop)` (42_nonce_cache.md R107). -/
def stretch (c : Cfg) (ktop : Block c.w) : BitVec (c.w + c.extBits) :=
  ktop ++ (msbSlice ktop 0 c.extBits ^^^ msbSlice ktop c.stretchShift c.extBits)

/-- The initial Offset (42_nonce_cache.md R108). -/
def offset0 (c : Cfg) (str : BitVec (c.w + c.extBits)) (bottom : BitVec c.bottomBits) : Block c.w :=
  msbSlice str bottom.toNat c.w

/-- The condition of 00_scope.md R6 under which the slices of R107 and R108 exist. -/
def slicesExist (c : Cfg) : Bool :=
  decide (2 ^ c.bottomBits - 1 ≤ c.extBits) && decide (c.extBits + c.stretchShift ≤ c.w)

/-- The lookup of the nonce-prefix cache and, on a miss, its refill (42_nonce_cache.md R105, R106, R109). -/
def fillCache {c : Cfg} (top : Block c.w) (e : Engine c) : Engine c :=
  if e.ncValid = true ∧ e.ncTop = top then e
  else
    let r := ciph .encrypt top e
    { r.2 with ncKtop := r.1, ncStretch := stretch c r.1, ncTop := top, ncValid := true }

/-- Beginning a message: the body of START after its checks (42_nonce_cache.md R111, 44_core_loop.md R125). -/
def beginMessage {c : Cfg} (n : Bytes) (e : Engine c) : Engine c :=
  let word := formatNonce c n
  let cached := fillCache (topWord c word) { e with bottom := bottomOf c word }
  let h := hashAd cached.adbuf { cached with offset := offset0 c cached.ncStretch cached.bottom }
  { h.2 with sum := h.1, checksum := 0, ctr := 0, dbuf := [], pthold := [], phase := .started }

/-- START (42_nonce_cache.md R111). -/
def startReply {c : Cfg} (pl : Bytes) (e : Engine c) : Except Refusal (Reply c) :=
  gate [.keyed] e <|
    if c.bs ≤ pl.length then .ok (fail .configError e)
    else if slicesExist c = false then .error .sliceUndefined
    else
      match blocksRefused none c.lDepth 0 (e.adbuf.length / c.bs) with
      | some x => .error x
      | none => .ok (respondOk (beginMessage pl e) [])

/-- The meaning of START (42_nonce_cache.md R111). -/
def execStart (pl : Bytes) (s : State) : Host.Outcome State Fault Refusal :=
  deliver s (startReply pl s.eng)

end Sys2Proof.Machine
end

