-- ==== Sys2Proof/Machine/CoreLoop.lean ====
section
/-! DEFINITION. The core cipher loop and UPDATE (44_core_loop.md). -/

namespace Sys2Proof.Machine

/-- The step of the Gray-code walk before a full block: the counter, then the Offset (41_mask_schedule.md R95,
44_core_loop.md R126, R127). -/
def advance {c : Cfg} (e : Engine c) : Engine c :=
  let counted := { e with ctr := e.ctr + 1 }
  let l := lget (ntz counted.ctr) counted
  { l.2 with offset := l.2.offset ^^^ l.1 }

/-- `WRAP(op, O, B) = CIPH(op, O XOR B) XOR O` (44_core_loop.md R129). -/
def wrap {c : Cfg} (op : CiphOp) (o b : Block c.w) (e : Engine c) : Block c.w × Engine c :=
  let r := ciph op (o ^^^ b) e
  (r.1 ^^^ o, r.2)

/-- `FULL_ENC(X)` (44_core_loop.md R127). -/
def fullEnc {c : Cfg} (x : Block c.w) (e : Engine c) : Block c.w × Engine c :=
  let a := advance e
  let r := wrap .encrypt a.offset x a
  (r.1, { r.2 with checksum := r.2.checksum ^^^ x })

/-- `FULL_DEC(Y)` (44_core_loop.md R128). -/
def fullDec {c : Cfg} (y : Block c.w) (e : Engine c) : Block c.w × Engine c :=
  let a := advance e
  let r := wrap .decrypt a.offset y a
  (r.1, { r.2 with checksum := r.2.checksum ^^^ r.1 })

/-- A full block in the engine's direction (44_core_loop.md R134). -/
def fullBlock {c : Cfg} (b : Block c.w) (e : Engine c) : Block c.w × Engine c :=
  match c.dir with
  | .enc => fullEnc b e
  | .dec => fullDec b e

/-- The full blocks of a command in order, with their output bytes (44_core_loop.md R134). -/
def runBlocks {c : Cfg} : List (Block c.w) → Engine c → Bytes × Engine c
  | [], e => ([], e)
  | b :: bs, e =>
    let r := fullBlock b e
    let rest := runBlocks bs r.2
    (blockBytes r.1 ++ rest.1, rest.2)

/-- `PARTIAL(S)` in either direction (44_core_loop.md R130, R131): the pad comes from the encrypt direction in both, the
checksum takes the plaintext. -/
def partialBlock {c : Cfg} (s : Bytes) (e : Engine c) : Bytes × Engine c :=
  let o := e.offset ^^^ e.lstar
  let r := ciph .encrypt o { e with offset := o }
  let out := xorPrefix s r.1
  let plain := match c.dir with
    | .enc => s
    | .dec => out
  (out, { r.2 with checksum := r.2.checksum ^^^ pad10 c plain })

/-- UPDATE (44_core_loop.md R134, R136). -/
def updateReply {c : Cfg} (pl : Bytes) (e : Engine c) : Except Refusal (Reply c) :=
  gate [.started, .processing] e <|
    let t := e.dbuf ++ pl
    let n := t.length / c.bs
    if c.dir = .dec ∧ overCap c.ptHoldMax (e.pthold.length + n * c.bs) = true then .ok (fail .configError e)
    else
      match blocksRefused c.ctrBits c.lDepth e.ctr n with
      | some x => .error x
      | none =>
        let run := runBlocks (fullBlocks c n t) e
        let left := { run.2 with dbuf := t.drop (n * c.bs), phase := .processing }
        match c.dir with
        | .enc => .ok (respondOk left run.1)
        | .dec => .ok (respondOk { left with pthold := left.pthold ++ run.1 } [])

/-- The meaning of UPDATE (44_core_loop.md R134). -/
def execUpdate (pl : Bytes) (s : State) : Host.Outcome State Fault Refusal :=
  deliver s (updateReply pl s.eng)

end Sys2Proof.Machine
end

