-- ==== Sys2Proof/Machine/TagFinish.lean ====
section
/-! DEFINITION. The tag and FINISH in its two forms (45_tag_finish.md). -/

namespace Sys2Proof.Machine

/-- `TAGBLOCK` (45_tag_finish.md R140). -/
def tagBlock {c : Cfg} (e : Engine c) : Block c.w × Engine c :=
  let r := ciph .encrypt (e.checksum ^^^ e.offset ^^^ e.ldollar) e
  (r.1 ^^^ e.sum, r.2)

/-- `TAG`: the leading `TAGLEN` bytes (45_tag_finish.md R141). -/
def tag {c : Cfg} (e : Engine c) : Bytes × Engine c :=
  let r := tagBlock e
  ((blockBytes r.1).take c.taglen, r.2)

/-- `CT_EQ(a, b)`, plain equality in a timeless model (45_tag_finish.md R142). -/
def ctEq (a b : Bytes) : Bool := decide (a = b)

/-- The end of the data pass: every full block of `T`, then the partial block if one remains
(45_tag_finish.md R143, R144; 44_core_loop.md R132). -/
def lastBlocks {c : Cfg} (t : Bytes) (e : Engine c) : Bytes × Engine c :=
  let n := t.length / c.bs
  let run := runBlocks (fullBlocks c n t) e
  if 0 < t.length % c.bs then
    let p := partialBlock (t.drop (n * c.bs)) run.2
    (run.1 ++ p.1, p.2)
  else run

/-- The end of a message: `CLEAR_MESSAGE`, `PHASE <- KEYED` (45_tag_finish.md R143, R144, R147). -/
def endMessage {c : Cfg} (e : Engine c) : Engine c := { clearMessage e with phase := .keyed }

/-- FINISH of an encrypting engine after its phase checks (45_tag_finish.md R143). -/
def finishEnc {c : Cfg} (pl : Bytes) (e : Engine c) : Except Refusal (Reply c) :=
  let t := e.dbuf ++ pl
  match blocksRefused c.ctrBits c.lDepth e.ctr (t.length / c.bs) with
  | some x => .error x
  | none =>
    let d := lastBlocks t e
    let g := tag d.2
    .ok (respondOk (endMessage g.2) (d.1 ++ g.1))

/-- FINISH of a decrypting engine after its phase checks (45_tag_finish.md R144 to R146). -/
def finishDec {c : Cfg} (pl : Bytes) (e : Engine c) : Except Refusal (Reply c) :=
  let t := e.dbuf ++ pl
  if t.length < c.taglen then .ok (fail .authFail e)
  else
    let ct := t.take (t.length - c.taglen)
    let tagIn := t.drop (t.length - c.taglen)
    match blocksRefused c.ctrBits c.lDepth e.ctr (ct.length / c.bs) with
    | some x => .error x
    | none =>
      let d := lastBlocks ct e
      let g := tag d.2
      if ctEq g.1 tagIn = false then .ok (fail .authFail g.2)
      else .ok (respondOk (endMessage g.2) (g.2.pthold ++ d.1))

/-- FINISH (45_tag_finish.md R143, R144). -/
def finishReply {c : Cfg} (pl : Bytes) (e : Engine c) : Except Refusal (Reply c) :=
  gate [.started, .processing] e <|
    match c.dir with
    | .enc => finishEnc pl e
    | .dec => finishDec pl e

/-- The meaning of FINISH (45_tag_finish.md R143, R144). -/
def execFinish (pl : Bytes) (s : State) : Host.Outcome State Fault Refusal :=
  deliver s (finishReply pl s.eng)

end Sys2Proof.Machine
end

