-- ==== Sys2Proof/Machine/Dispatch.lean ====
section
/-! DEFINITION. One arm per command (30_encoding.md R65), each one call of its meaning. -/

namespace Sys2Proof.Machine

def exec (i : Instr) (s : State) : Host.Outcome State Fault Refusal :=
  match i with
  | .setKey pl => Sys2Proof.Machine.execSetKey pl s
  | .setAd pl => Sys2Proof.Machine.execSetAd pl s
  | .start pl => Sys2Proof.Machine.execStart pl s
  | .update pl => Sys2Proof.Machine.execUpdate pl s
  | .finish pl => Sys2Proof.Machine.execFinish pl s

end Sys2Proof.Machine
end

