-- ==== Sys2Proof/Machine/Fetch.lean ====
section
/-! DEFINITION. What the engine finds on its ports when it is ready for the next command: the analogue of a fetch
(10_state.md R35, 20_memory.md R50). -/

namespace Sys2Proof.Machine

/-- What the next host event asks for. -/
inductive Fetched where
  /-- No event: the engine waits (70_reset_and_hazards.md R180). -/
  | idle
  /-- A command, and the state with its transaction taken off the port. -/
  | run (i : Instr) (s : State)
  /-- An event that is complete without a command: a reset, or a word that spells no command. -/
  | done (s : State)
  /-- No step. -/
  | stop (r : Refusal)

/-- The answer to a word that spells no command: ILLEGAL, nothing changes, the payload is consumed (30_encoding.md R66,
60_exceptions.md R159). -/
def answerIllegal (s : State) : State := answer s (fail .illegal s.eng)

/-- The next event off the ports. A transaction that is not `LEN` bytes long is outside the model (30_encoding.md R61). -/
def fetch (s : State) : Fetched :=
  match s.cmdIn with
  | [] => .idle
  | .reset st :: rest => .done (resetMachine st { s with cmdIn := rest })
  | .command cmd :: rest =>
    if cmd.framed = false then .stop .badFraming
    else
      match decodeCommand cmd with
      | .ok i => .run i { s with cmdIn := rest }
      | .error _ => .done (answerIllegal { s with cmdIn := rest })

end Sys2Proof.Machine
end

