-- ==== Sys2Proof/Machine/Step.lean ====
section
/-! DEFINITION. One step: one host event (00_scope.md R12, 20_memory.md R45), or waiting for one. -/

namespace Sys2Proof.Machine

/-- One step of the machine. With no host event the engine waits and nothing changes (70_reset_and_hazards.md R180,
60_exceptions.md R165). -/
def step (s : State) : Host.Outcome State Fault Refusal :=
  match fetch s with
  | .idle => .next s
  | .run i s' => exec i s'
  | .done s' => .next s'
  | .stop r => .refused r

/-- The state in which the next step takes the transaction whose bits are `w` (see `tableCommand`): it stands on the command
port, before what stood there. -/
def State.withFetchWord (s : State) (nbits w : Nat) : State :=
  { s with cmdIn := .command (tableCommand nbits w) :: s.cmdIn }

end Sys2Proof.Machine
end

