-- ==== Sys2Proof/Safety.lean ====
section
/-! DEFINITION. The terms claims about the machine are written in: the mask schedule, the AD digest, the data pass and the
tag as closed forms over the key (without table, cache or port record), the invariant of the state, and what a host can
see. -/

namespace Sys2Proof.Machine

/-- `L[i] = DOUBLE_w^(i+2)(LSTAR)` (41_mask_schedule.md R92). -/
def maskL {w : Nat} (lstar : Block w) (i : Nat) : Block w := doubleN (i + 2) lstar

/-- The Offset after `j` full blocks that follow block number `k`, from the Offset `o` (41_mask_schedule.md R95). -/
def walk {w : Nat} (lstar o : Block w) (k : Nat) : Nat → Block w
  | 0 => o
  | j + 1 => walk lstar o k j ^^^ maskL lstar (ntz (k + j + 1))

/-- The XOR of `f 0, …, f (n−1)`. -/
def xorSum {w : Nat} (n : Nat) (f : Nat → Block w) : Block w := (List.range n).foldl (fun a j => a ^^^ f j) 0

/-- The XOR of the entries `L[j]` for the bits `j` set in the Gray code `i XOR (i >> 1)` of `i` (41_mask_schedule.md R95). -/
def grayMask {w : Nat} (lstar : Block w) (i : Nat) : Block w :=
  xorSum (i + 1) fun j => if (i ^^^ (i >>> 1)).testBit j then maskL lstar j else 0

/-- Block number `j` of a byte string, counted from 0: `int(T[j·BS : (j+1)·BS))` (44_core_loop.md R134). -/
def blockAt (c : Cfg) (t : Bytes) (j : Nat) : Block c.w := intBlock c.w ((t.drop (j * c.bs)).take c.bs)

/-- The AD digest as a function of the key and the AD alone (43_ad_hash.md R116, R117). -/
def adDigest (c : Cfg) (key a : Bytes) : Block c.w :=
  let lstar := cipherE c key 0
  let m := a.length / c.bs
  let full := xorSum m fun j => cipherE c key (walk lstar 0 0 (j + 1) ^^^ blockAt c a j)
  if 0 < a.length % c.bs then
    full ^^^ cipherE c key (walk lstar 0 0 m ^^^ lstar ^^^ pad10 c (a.drop (m * c.bs)))
  else full

/-- The initial Offset as a function of the key and the nonce alone (42_nonce_cache.md R110). -/
def nonceOffset (c : Cfg) (key n : Bytes) : Block c.w :=
  offset0 c (stretch c (cipherE c key (topWord c (formatNonce c n)))) (bottomOf c (formatNonce c n))

/-- The Offset of the `j`-th full block of the data `t` that comes next, counted from 0 (44_core_loop.md R127). -/
def offsetAt {c : Cfg} (e : Engine c) (j : Nat) : Block c.w := walk e.lstar e.offset e.ctr (j + 1)

/-- The output for the `j`-th full block of `t`: ciphertext or recovered plaintext (44_core_loop.md R127, R128). -/
def outBlockAt {c : Cfg} (e : Engine c) (t : Bytes) (j : Nat) : Block c.w :=
  match c.dir with
  | .enc => cipherE c e.key (offsetAt e j ^^^ blockAt c t j) ^^^ offsetAt e j
  | .dec => cipherD c e.key (offsetAt e j ^^^ blockAt c t j) ^^^ offsetAt e j

/-- The plaintext of the `j`-th full block of `t`, given or recovered (44_core_loop.md R129). -/
def plainBlockAt {c : Cfg} (e : Engine c) (t : Bytes) (j : Nat) : Block c.w :=
  match c.dir with
  | .enc => blockAt c t j
  | .dec => outBlockAt e t j

/-- The output bytes of the first `n` full blocks of `t`. -/
def blocksOut {c : Cfg} (e : Engine c) (t : Bytes) (n : Nat) : Bytes :=
  (List.range n).flatMap fun j => blockBytes (outBlockAt e t j)

/-- The Offset after the full blocks of `t`. -/
def fullOffset {c : Cfg} (e : Engine c) (t : Bytes) : Block c.w := walk e.lstar e.offset e.ctr (t.length / c.bs)

/-- The checksum after the full blocks of `t`. -/
def fullChecksum {c : Cfg} (e : Engine c) (t : Bytes) : Block c.w :=
  e.checksum ^^^ xorSum (t.length / c.bs) (plainBlockAt e t)

/-- The bytes of `t` after its full blocks. -/
def tailBytes (c : Cfg) (t : Bytes) : Bytes := t.drop (t.length / c.bs * c.bs)

/-- The output for the final partial block of `t` (44_core_loop.md R130, R131). -/
def tailOut {c : Cfg} (e : Engine c) (t : Bytes) : Bytes :=
  xorPrefix (tailBytes c t) (cipherE c e.key (fullOffset e t ^^^ e.lstar))

/-- The plaintext of the final partial block of `t`. -/
def tailPlain {c : Cfg} (e : Engine c) (t : Bytes) : Bytes :=
  match c.dir with
  | .enc => tailBytes c t
  | .dec => tailOut e t

/-- The whole output of the last data of a message: full blocks, then the partial block if there is one
(45_tag_finish.md R143, R144; 44_core_loop.md R132). -/
def lastOut {c : Cfg} (e : Engine c) (t : Bytes) : Bytes :=
  blocksOut e t (t.length / c.bs) ++ (if 0 < t.length % c.bs then tailOut e t else [])

/-- `OFFSET` at the tag. -/
def tagOffset {c : Cfg} (e : Engine c) (t : Bytes) : Block c.w :=
  if 0 < t.length % c.bs then fullOffset e t ^^^ e.lstar else fullOffset e t

/-- `CHECKSUM` at the tag (44_core_loop.md R129). -/
def tagChecksum {c : Cfg} (e : Engine c) (t : Bytes) : Block c.w :=
  if 0 < t.length % c.bs then fullChecksum e t ^^^ pad10 c (tailPlain e t) else fullChecksum e t

/-- The tag of the message that ends with the data `t` (45_tag_finish.md R140, R141). -/
def messageTag {c : Cfg} (e : Engine c) (t : Bytes) : Bytes :=
  (blockBytes (cipherE c e.key (tagChecksum e t ^^^ tagOffset e t ^^^ e.ldollar) ^^^ e.sum)).take c.taglen

/-- The transaction `CIPH(op, B)` under a key, with the Block it is answered (30_encoding.md R72). -/
def asked (c : Cfg) (key : Bytes) (op : CiphOp) (b : Block c.w) : CiphEvent :=
  .request op (blockBytes b) (blockBytes (cipherAnswer c key op b))

/-- The direction of the cipher port for full data blocks (30_encoding.md R72). -/
def dataOp (c : Cfg) : CiphOp :=
  match c.dir with
  | .enc => .encrypt
  | .dec => .decrypt

/-- The requests for the first `n` full blocks of `t`, in order: `O_i XOR X_i` or `O_i XOR Y_i` (44_core_loop.md R127, R128,
R134; 20_memory.md R49). -/
def blockRequests {c : Cfg} (e : Engine c) (t : Bytes) (n : Nat) : List CiphEvent :=
  (List.range n).map fun j => asked c e.key (dataOp c) (offsetAt e j ^^^ blockAt c t j)

/-- The requests for the last data `t` of a message: its full blocks, then the pad of the partial block if there is one, in the
encrypt direction in both engines (44_core_loop.md R130, R131; 30_encoding.md R72). -/
def lastRequests {c : Cfg} (e : Engine c) (t : Bytes) : List CiphEvent :=
  blockRequests e t (t.length / c.bs) ++
    (if 0 < t.length % c.bs then [asked c e.key .encrypt (fullOffset e t ^^^ e.lstar)] else [])

/-- The requests of a FINISH that works on the data `t`: those of the data, then the tag's, in the encrypt direction
(45_tag_finish.md R140, R143, R144). -/
def finishRequests {c : Cfg} (e : Engine c) (t : Bytes) : List CiphEvent :=
  lastRequests e t ++ [asked c e.key .encrypt (tagChecksum e t ^^^ tagOffset e t ^^^ e.ldollar)]

/-- The requests of `HASH_AD`: one for each full block, one for the padded rest if there is one (43_ad_hash.md R116, R120). -/
def adRequests (c : Cfg) (key a : Bytes) : List CiphEvent :=
  let lstar := cipherE c key 0
  let m := a.length / c.bs
  (List.range m).map (fun j => asked c key .encrypt (walk lstar 0 0 (j + 1) ^^^ blockAt c a j)) ++
    (if 0 < a.length % c.bs then
      [asked c key .encrypt (walk lstar 0 0 m ^^^ lstar ^^^ pad10 c (a.drop (m * c.bs)))]
    else [])

/-- The requests of a START with the nonce `n`: `Ktop` on a cache miss, then the AD hash (42_nonce_cache.md R106, R111). -/
def startRequests {c : Cfg} (e : Engine c) (n : Bytes) : List CiphEvent :=
  (if e.ncValid = true ∧ e.ncTop = topWord c (formatNonce c n) then []
    else [asked c e.key .encrypt (topWord c (formatNonce c n))]) ++ adRequests c e.key e.adbuf

/-- The blocks number `k + 1, …, k + n` of the data pass have a step: none would make a finite counter wrap, none reaches a
finite table depth (00_scope.md R6, 92_eei_decisions.md D33, D35). -/
def BlocksFit (c : Cfg) (k n : Nat) : Prop :=
  (∀ b, c.ctrBits = some b → ∀ i, k < i → i ≤ k + n → i < 2 ^ b) ∧
  (∀ d, c.lDepth = some d → ∀ i, k < i → i ≤ k + n → ntz i < d)

/-- The blocks of an AD of `m` full blocks reach no finite table depth. -/
def AdBlocksFit (c : Cfg) (m : Nat) : Prop :=
  ∀ d, c.lDepth = some d → ∀ i, 0 < i → i ≤ m → ntz i < d

/-- The mask table holds what 10_state.md R24 and 41_mask_schedule.md R91 say. -/
def TableOk {c : Cfg} (e : Engine c) : Prop :=
  e.ldollar = double e.lstar ∧ ∀ i, i < e.ltab.length → e.ltab.getD i 0 = maskL e.lstar i

/-- How the mask table goes from `t` to `t'` while the blocks number `k + 1, …, k + n` are processed: nothing is forgotten,
every entry is that of the schedule, it holds every index the blocks ask for and no more than that takes
(41_mask_schedule.md R93, R97). -/
def TableGrown {w : Nat} (lstar : Block w) (k n : Nat) (t t' : List (Block w)) : Prop :=
  t <+: t' ∧
  (∀ i, i < t'.length → t'.getD i 0 = maskL lstar i) ∧
  (∀ i, k < i → i ≤ k + n → ntz i < t'.length) ∧
  (∀ d, t.length ≤ d → (∀ i, k < i → i ≤ k + n → ntz i < d) → t'.length ≤ d)

/-- The nonce cache, where valid, holds what a miss would compute (42_nonce_cache.md R109). -/
def CacheOk {c : Cfg} (e : Engine c) : Prop :=
  e.ncValid = true → e.ncKtop = cipherE c e.key e.ncTop ∧ e.ncStretch = stretch c e.ncKtop

/-- All that is derived from the key agrees with it (20_memory.md R52). -/
def KeyClassOk {c : Cfg} (e : Engine c) : Prop :=
  cipherAccepts c e.key = true ∧ e.lstar = cipherE c e.key 0 ∧ TableOk e ∧ CacheOk e ∧
  (∀ d, c.lDepth = some d → e.ltab.length ≤ d)

/-- The message class of 10_state.md R36 is clear but for `ADBUF`, which SET_AD may have written. -/
def MessageClear {c : Cfg} (e : Engine c) : Prop :=
  e.bottom = 0 ∧ e.sum = 0 ∧ e.offset = 0 ∧ e.checksum = 0 ∧ e.ctr = 0 ∧ e.dbuf = [] ∧ e.pthold = []

/-- A message is in progress: the digest and the Offset are those of its AD and nonce, the buffers keep their bounds
(10_state.md R28, R29, R31, R32, R33). -/
def InMessage {c : Cfg} (e : Engine c) : Prop :=
  e.sum = adDigest c e.key e.adbuf ∧
  e.ncValid = true ∧
  e.offset = walk e.lstar (offset0 c e.ncStretch e.bottom) 0 e.ctr ∧
  (∀ b, c.ctrBits = some b → e.ctr < 2 ^ b) ∧
  e.dbuf.length < c.bs ∧
  (c.dir = .enc → e.pthold = []) ∧
  (c.dir = .dec → e.pthold.length = e.ctr * c.bs) ∧
  overCap c.ptHoldMax e.pthold.length = false

/-- The registers of every state a run can reach, phase by phase (10_state.md R21 to R38, 60_exceptions.md R162). -/
def Engine.Inv {c : Cfg} (e : Engine c) : Prop :=
  match e.phase with
  | .cfgerr => cfgLegal c = false ∧ e = { Engine.reset c with ciphLog := e.ciphLog }
  | .uninit => cfgLegal c = true ∧ e = { Engine.reset c with ciphLog := e.ciphLog }
  | .fault => cfgLegal c = true ∧ e = { Engine.reset c with phase := .fault, ciphLog := e.ciphLog }
  | .keyed => cfgLegal c = true ∧ KeyClassOk e ∧ MessageClear e ∧ overCap c.adMax e.adbuf.length = false
  | .started =>
    cfgLegal c = true ∧ KeyClassOk e ∧ InMessage e ∧ overCap c.adMax e.adbuf.length = false ∧
    e.ctr = 0 ∧ e.checksum = 0 ∧ e.dbuf = [] ∧ e.pthold = []
  | .processing => cfgLegal c = true ∧ KeyClassOk e ∧ InMessage e ∧ overCap c.adMax e.adbuf.length = false

/-- The invariant of the machine: that of its registers. -/
def State.Inv (s : State) : Prop := s.eng.Inv

/-- The number of full blocks of the longer of the two passes so far in the message in progress (41_mask_schedule.md R97). -/
def Engine.longerPass {c : Cfg} (e : Engine c) : Nat := max (e.adbuf.length / c.bs) e.ctr

/-- The depth of the mask table during a message: `floor(log2 m) + 1` entries or more, where the longer pass has run `m ≥ 1`
full blocks (41_mask_schedule.md R97, 43_ad_hash.md R120). -/
def Engine.DepthOk {c : Cfg} (e : Engine c) : Prop :=
  (e.phase = .started ∨ e.phase = .processing) → 1 ≤ e.longerPass → Nat.log2 e.longerPass + 1 ≤ e.lcnt

/-- The registers with everything a response may not depend on taken away: the mask table, the nonce cache, and the record of
the cipher port (10_state.md R39). -/
def Engine.visible {c : Cfg} (e : Engine c) : Engine c :=
  { e with ltab := [], ncValid := false, ncTop := 0, ncKtop := 0, ncStretch := 0, ciphLog := [] }

/-- The state with its hidden part taken away; the responses stay. -/
def State.visible (s : State) : State := { s with eng := s.eng.visible }

/-- Two outcomes a host cannot tell apart. -/
def SameToHost (x y : Host.Outcome State Fault Refusal) : Prop :=
  match x, y with
  | .next s, .next t => s.visible = t.visible
  | .fault a, .fault b => a = b
  | .refused a, .refused b => a = b
  | _, _ => False

/-- A run of commands, stopping where one has no step: what a pseudo-command does (30_encoding.md R70). -/
def runCommands : List Instr → State → Host.Outcome State Fault Refusal
  | [], s => .next s
  | i :: is, s =>
    match exec i s with
    | .next t => runCommands is t
    | .fault r => .fault r
    | .refused r => .refused r

/-- The last response given. -/
def lastResponse (s : State) : Option Response := s.rspOut.getLast?

/-- The last response has a status and a payload. -/
def Answered (s : State) (st : Status) (pl : Bytes) : Prop :=
  ∃ r, lastResponse s = some r ∧ r.rw.extractLsb' 56 8 = statusCode st ∧ r.payload = pl

/-- The state with the nonce cache emptied where the next command may be a START, so that a START would miss
(70_reset_and_hazards.md R187). -/
def State.dropCache (s : State) : State :=
  if s.eng.phase = .keyed then { s with eng := { s.eng with ncValid := false } } else s

/-- A run of an engine whose every START misses the nonce cache (70_reset_and_hazards.md R187). -/
def runMissing : Nat → State → Host.Outcome State Fault Refusal
  | 0, s => .next s
  | k + 1, s =>
    match step s.dropCache with
    | .next t => runMissing k t
    | .fault r => .fault r
    | .refused r => .refused r

/-- The number of `CIPH` requests in a record of the cipher port (70_reset_and_hazards.md R195). -/
def requestCount (l : List CiphEvent) : Nat :=
  (l.filter fun ev => match ev with | .request _ _ _ => true | .setKey _ _ => false).length

/-- The number of `CIPH(1, ·)` requests in a record of the cipher port. -/
def decryptCount (l : List CiphEvent) : Nat :=
  (l.filter fun ev => match ev with | .request .decrypt _ _ => true | _ => false).length

/-- The phases in which a command is legal (60_exceptions.md R158). -/
def legalPhases : Instr → List Phase
  | .setKey _ => [.uninit, .keyed]
  | .setAd _ => [.keyed]
  | .start _ => [.keyed]
  | .update _ => [.started, .processing]
  | .finish _ => [.started, .processing]

/-- The phase after a command by its phase before and its status: the entries of the transition table
(60_exceptions.md R172). -/
def phaseAfter (before : Phase) (i : Instr) (st : Status) : Option Phase :=
  match before, st with
  | .cfgerr, .err .configError => some .cfgerr
  | .cfgerr, _ => none
  | .fault, .err .seqError => some .fault
  | .fault, _ => none
  | _, .err .seqError => if before ∈ legalPhases i then none else some .fault
  | _, .err .authFail => if before ∈ legalPhases i then (match i with | .finish _ => some .keyed | _ => none) else none
  | _, .err .configError =>
    if before ∈ legalPhases i then (match i with | .finish _ => none | _ => some before) else none
  | _, .err .illegal => none
  | _, .ok =>
    if before ∈ legalPhases i then
      match i with
      | .setKey _ => some .keyed
      | .setAd _ => some .keyed
      | .start _ => some .started
      | .update _ => some .processing
      | .finish _ => some .keyed
    else none

/-- The machine right after a reset with the configuration `c`, with nothing on its ports. -/
def freshState (c : Cfg) : State := { cfg := c, eng := Engine.reset c, cmdIn := [], rspOut := [], freeCtr := 0 }

/-- The data a FINISH works on: what UPDATE left, then its own payload (45_tag_finish.md R143, R144). -/
def finishData {c : Cfg} (e : Engine c) (pl : Bytes) : Bytes := e.dbuf ++ pl

/-- The ciphertext in the data of a decrypting FINISH (45_tag_finish.md R144). -/
def cipherPart (c : Cfg) (t : Bytes) : Bytes := t.take (t.length - c.taglen)

/-- The tag in the data of a decrypting FINISH (45_tag_finish.md R144). -/
def tagPart (c : Cfg) (t : Bytes) : Bytes := t.drop (t.length - c.taglen)

/-- The length of the payload of an OK response (30_encoding.md R63). -/
def okPayloadLength {c : Cfg} (i : Instr) (e : Engine c) : Nat :=
  match i, c.dir with
  | .setKey _, _ => 0
  | .setAd _, _ => 0
  | .start _, _ => 0
  | .update pl, .enc => c.bs * ((e.dbuf.length + pl.length) / c.bs)
  | .update _, .dec => 0
  | .finish pl, .enc => e.dbuf.length + pl.length + c.taglen
  | .finish pl, .dec => e.pthold.length + e.dbuf.length + pl.length - c.taglen

/-- The data without the tag bytes that an UPDATE or FINISH works on (70_reset_and_hazards.md R195, `T'`). -/
def workData {c : Cfg} (i : Instr) (e : Engine c) : Bytes :=
  match i, c.dir with
  | .update pl, _ => finishData e pl
  | .finish pl, .enc => finishData e pl
  | .finish pl, .dec => cipherPart c (finishData e pl)
  | _, _ => []

/-- The blocks a byte string of `n` bytes makes, the partial one counted: `ceil(n / BS)`. -/
def blockCount (c : Cfg) (n : Nat) : Nat := n / c.bs + (if 0 < n % c.bs then 1 else 0)

/-- The cipher requests of a command by its status (70_reset_and_hazards.md R195). -/
def requestsOf {c : Cfg} (i : Instr) (st : Status) (e : Engine c) : Nat :=
  match i, st with
  | .setKey _, .ok => 1
  | .start n, .ok =>
    (if e.ncValid = true ∧ e.ncTop = topWord c (formatNonce c n) then 0 else 1) + blockCount c e.adbuf.length
  | .update _, .ok => (workData i e).length / c.bs
  | .finish _, .ok => blockCount c (workData i e).length + 1
  | .finish pl, .err .authFail =>
    if (finishData e pl).length < c.taglen then 0 else blockCount c (workData i e).length + 1
  | _, _ => 0

/-- How many of them use the decrypt direction (70_reset_and_hazards.md R195). -/
def decryptsOf {c : Cfg} (i : Instr) (st : Status) (e : Engine c) : Nat :=
  match i, st, c.dir with
  | .update _, .ok, .dec => (workData i e).length / c.bs
  | .finish _, .ok, .dec => (workData i e).length / c.bs
  | .finish pl, .err .authFail, .dec =>
    if (finishData e pl).length < c.taglen then 0 else (workData i e).length / c.bs
  | _, _, _ => 0

end Sys2Proof.Machine
end

