-- ==== Sys2Proof/Laws/State.lean ====
section
/-! SUPPORT. One lemma per field per update of the registers and of the state, true by `rfl`: later proofs never unfold a
record update. -/

namespace Sys2Proof.Machine

/-! ### A request on the cipher port -/

@[simp] theorem ciph_answer {c : Cfg} (op : CiphOp) (b : Block c.w) (e : Engine c) :
    (ciph op b e).1 = cipherAnswer c e.key op b := rfl
@[simp] theorem ciph_phase {c : Cfg} (op : CiphOp) (b : Block c.w) (e : Engine c) :
    (ciph op b e).2.phase = e.phase := rfl
@[simp] theorem ciph_key {c : Cfg} (op : CiphOp) (b : Block c.w) (e : Engine c) :
    (ciph op b e).2.key = e.key := rfl
@[simp] theorem ciph_lstar {c : Cfg} (op : CiphOp) (b : Block c.w) (e : Engine c) :
    (ciph op b e).2.lstar = e.lstar := rfl
@[simp] theorem ciph_ldollar {c : Cfg} (op : CiphOp) (b : Block c.w) (e : Engine c) :
    (ciph op b e).2.ldollar = e.ldollar := rfl
@[simp] theorem ciph_ltab {c : Cfg} (op : CiphOp) (b : Block c.w) (e : Engine c) :
    (ciph op b e).2.ltab = e.ltab := rfl
@[simp] theorem ciph_ncValid {c : Cfg} (op : CiphOp) (b : Block c.w) (e : Engine c) :
    (ciph op b e).2.ncValid = e.ncValid := rfl
@[simp] theorem ciph_ncTop {c : Cfg} (op : CiphOp) (b : Block c.w) (e : Engine c) :
    (ciph op b e).2.ncTop = e.ncTop := rfl
@[simp] theorem ciph_ncKtop {c : Cfg} (op : CiphOp) (b : Block c.w) (e : Engine c) :
    (ciph op b e).2.ncKtop = e.ncKtop := rfl
@[simp] theorem ciph_ncStretch {c : Cfg} (op : CiphOp) (b : Block c.w) (e : Engine c) :
    (ciph op b e).2.ncStretch = e.ncStretch := rfl
@[simp] theorem ciph_bottom {c : Cfg} (op : CiphOp) (b : Block c.w) (e : Engine c) :
    (ciph op b e).2.bottom = e.bottom := rfl
@[simp] theorem ciph_adbuf {c : Cfg} (op : CiphOp) (b : Block c.w) (e : Engine c) :
    (ciph op b e).2.adbuf = e.adbuf := rfl
@[simp] theorem ciph_sum {c : Cfg} (op : CiphOp) (b : Block c.w) (e : Engine c) :
    (ciph op b e).2.sum = e.sum := rfl
@[simp] theorem ciph_offset {c : Cfg} (op : CiphOp) (b : Block c.w) (e : Engine c) :
    (ciph op b e).2.offset = e.offset := rfl
@[simp] theorem ciph_checksum {c : Cfg} (op : CiphOp) (b : Block c.w) (e : Engine c) :
    (ciph op b e).2.checksum = e.checksum := rfl
@[simp] theorem ciph_ctr {c : Cfg} (op : CiphOp) (b : Block c.w) (e : Engine c) :
    (ciph op b e).2.ctr = e.ctr := rfl
@[simp] theorem ciph_dbuf {c : Cfg} (op : CiphOp) (b : Block c.w) (e : Engine c) :
    (ciph op b e).2.dbuf = e.dbuf := rfl
@[simp] theorem ciph_pthold {c : Cfg} (op : CiphOp) (b : Block c.w) (e : Engine c) :
    (ciph op b e).2.pthold = e.pthold := rfl
@[simp] theorem ciph_ciphLog {c : Cfg} (op : CiphOp) (b : Block c.w) (e : Engine c) :
    (ciph op b e).2.ciphLog = e.ciphLog ++
      [.request op (blockBytes b) (blockBytes (cipherAnswer c e.key op b))] := rfl

/-! ### The answer of the cipher port -/

@[simp] theorem cipherAnswer_encrypt (c : Cfg) (key : Bytes) (b : Block c.w) :
    cipherAnswer c key .encrypt b = cipherE c key b := rfl
@[simp] theorem cipherAnswer_decrypt (c : Cfg) (key : Bytes) (b : Block c.w) :
    cipherAnswer c key .decrypt b = cipherD c key b := rfl

/-! ### `CIPH_SETKEY` -/

@[simp] theorem ciphSetKey_phase {c : Cfg} (key : Bytes) (e : Engine c) : (ciphSetKey key e).phase = e.phase := rfl
@[simp] theorem ciphSetKey_key {c : Cfg} (key : Bytes) (e : Engine c) : (ciphSetKey key e).key = e.key := rfl
@[simp] theorem ciphSetKey_lstar {c : Cfg} (key : Bytes) (e : Engine c) : (ciphSetKey key e).lstar = e.lstar := rfl
@[simp] theorem ciphSetKey_ldollar {c : Cfg} (key : Bytes) (e : Engine c) : (ciphSetKey key e).ldollar = e.ldollar := rfl
@[simp] theorem ciphSetKey_ltab {c : Cfg} (key : Bytes) (e : Engine c) : (ciphSetKey key e).ltab = e.ltab := rfl
@[simp] theorem ciphSetKey_ncValid {c : Cfg} (key : Bytes) (e : Engine c) : (ciphSetKey key e).ncValid = e.ncValid := rfl
@[simp] theorem ciphSetKey_ncTop {c : Cfg} (key : Bytes) (e : Engine c) : (ciphSetKey key e).ncTop = e.ncTop := rfl
@[simp] theorem ciphSetKey_ncKtop {c : Cfg} (key : Bytes) (e : Engine c) : (ciphSetKey key e).ncKtop = e.ncKtop := rfl
@[simp] theorem ciphSetKey_ncStretch {c : Cfg} (key : Bytes) (e : Engine c) : (ciphSetKey key e).ncStretch = e.ncStretch := rfl
@[simp] theorem ciphSetKey_bottom {c : Cfg} (key : Bytes) (e : Engine c) : (ciphSetKey key e).bottom = e.bottom := rfl
@[simp] theorem ciphSetKey_adbuf {c : Cfg} (key : Bytes) (e : Engine c) : (ciphSetKey key e).adbuf = e.adbuf := rfl
@[simp] theorem ciphSetKey_sum {c : Cfg} (key : Bytes) (e : Engine c) : (ciphSetKey key e).sum = e.sum := rfl
@[simp] theorem ciphSetKey_offset {c : Cfg} (key : Bytes) (e : Engine c) : (ciphSetKey key e).offset = e.offset := rfl
@[simp] theorem ciphSetKey_checksum {c : Cfg} (key : Bytes) (e : Engine c) : (ciphSetKey key e).checksum = e.checksum := rfl
@[simp] theorem ciphSetKey_ctr {c : Cfg} (key : Bytes) (e : Engine c) : (ciphSetKey key e).ctr = e.ctr := rfl
@[simp] theorem ciphSetKey_dbuf {c : Cfg} (key : Bytes) (e : Engine c) : (ciphSetKey key e).dbuf = e.dbuf := rfl
@[simp] theorem ciphSetKey_pthold {c : Cfg} (key : Bytes) (e : Engine c) : (ciphSetKey key e).pthold = e.pthold := rfl
@[simp] theorem ciphSetKey_ciphLog {c : Cfg} (key : Bytes) (e : Engine c) : (ciphSetKey key e).ciphLog = e.ciphLog ++ [.setKey key (cipherAccepts c key)] := rfl

/-! ### `CLEAR_MESSAGE` -/

@[simp] theorem clearMessage_phase {c : Cfg} (e : Engine c) : (clearMessage e).phase = e.phase := rfl
@[simp] theorem clearMessage_key {c : Cfg} (e : Engine c) : (clearMessage e).key = e.key := rfl
@[simp] theorem clearMessage_lstar {c : Cfg} (e : Engine c) : (clearMessage e).lstar = e.lstar := rfl
@[simp] theorem clearMessage_ldollar {c : Cfg} (e : Engine c) : (clearMessage e).ldollar = e.ldollar := rfl
@[simp] theorem clearMessage_ltab {c : Cfg} (e : Engine c) : (clearMessage e).ltab = e.ltab := rfl
@[simp] theorem clearMessage_ncValid {c : Cfg} (e : Engine c) : (clearMessage e).ncValid = e.ncValid := rfl
@[simp] theorem clearMessage_ncTop {c : Cfg} (e : Engine c) : (clearMessage e).ncTop = e.ncTop := rfl
@[simp] theorem clearMessage_ncKtop {c : Cfg} (e : Engine c) : (clearMessage e).ncKtop = e.ncKtop := rfl
@[simp] theorem clearMessage_ncStretch {c : Cfg} (e : Engine c) : (clearMessage e).ncStretch = e.ncStretch := rfl
@[simp] theorem clearMessage_bottom {c : Cfg} (e : Engine c) : (clearMessage e).bottom = 0 := rfl
@[simp] theorem clearMessage_adbuf {c : Cfg} (e : Engine c) : (clearMessage e).adbuf = [] := rfl
@[simp] theorem clearMessage_sum {c : Cfg} (e : Engine c) : (clearMessage e).sum = 0 := rfl
@[simp] theorem clearMessage_offset {c : Cfg} (e : Engine c) : (clearMessage e).offset = 0 := rfl
@[simp] theorem clearMessage_checksum {c : Cfg} (e : Engine c) : (clearMessage e).checksum = 0 := rfl
@[simp] theorem clearMessage_ctr {c : Cfg} (e : Engine c) : (clearMessage e).ctr = 0 := rfl
@[simp] theorem clearMessage_dbuf {c : Cfg} (e : Engine c) : (clearMessage e).dbuf = [] := rfl
@[simp] theorem clearMessage_pthold {c : Cfg} (e : Engine c) : (clearMessage e).pthold = [] := rfl
@[simp] theorem clearMessage_ciphLog {c : Cfg} (e : Engine c) : (clearMessage e).ciphLog = e.ciphLog := rfl

/-! ### Zeroising -/

@[simp] theorem zeroise_phase {c : Cfg} (e : Engine c) : (zeroise e).phase = e.phase := rfl
@[simp] theorem zeroise_key {c : Cfg} (e : Engine c) : (zeroise e).key = [] := rfl
@[simp] theorem zeroise_lstar {c : Cfg} (e : Engine c) : (zeroise e).lstar = 0 := rfl
@[simp] theorem zeroise_ldollar {c : Cfg} (e : Engine c) : (zeroise e).ldollar = 0 := rfl
@[simp] theorem zeroise_ltab {c : Cfg} (e : Engine c) : (zeroise e).ltab = [] := rfl
@[simp] theorem zeroise_ncValid {c : Cfg} (e : Engine c) : (zeroise e).ncValid = false := rfl
@[simp] theorem zeroise_ncTop {c : Cfg} (e : Engine c) : (zeroise e).ncTop = 0 := rfl
@[simp] theorem zeroise_ncKtop {c : Cfg} (e : Engine c) : (zeroise e).ncKtop = 0 := rfl
@[simp] theorem zeroise_ncStretch {c : Cfg} (e : Engine c) : (zeroise e).ncStretch = 0 := rfl
@[simp] theorem zeroise_bottom {c : Cfg} (e : Engine c) : (zeroise e).bottom = 0 := rfl
@[simp] theorem zeroise_adbuf {c : Cfg} (e : Engine c) : (zeroise e).adbuf = [] := rfl
@[simp] theorem zeroise_sum {c : Cfg} (e : Engine c) : (zeroise e).sum = 0 := rfl
@[simp] theorem zeroise_offset {c : Cfg} (e : Engine c) : (zeroise e).offset = 0 := rfl
@[simp] theorem zeroise_checksum {c : Cfg} (e : Engine c) : (zeroise e).checksum = 0 := rfl
@[simp] theorem zeroise_ctr {c : Cfg} (e : Engine c) : (zeroise e).ctr = 0 := rfl
@[simp] theorem zeroise_dbuf {c : Cfg} (e : Engine c) : (zeroise e).dbuf = [] := rfl
@[simp] theorem zeroise_pthold {c : Cfg} (e : Engine c) : (zeroise e).pthold = [] := rfl
@[simp] theorem zeroise_ciphLog {c : Cfg} (e : Engine c) : (zeroise e).ciphLog = e.ciphLog := rfl

/-! ### The end of a message -/

@[simp] theorem endMessage_phase {c : Cfg} (e : Engine c) : (endMessage e).phase = .keyed := rfl
@[simp] theorem endMessage_key {c : Cfg} (e : Engine c) : (endMessage e).key = e.key := rfl
@[simp] theorem endMessage_lstar {c : Cfg} (e : Engine c) : (endMessage e).lstar = e.lstar := rfl
@[simp] theorem endMessage_ldollar {c : Cfg} (e : Engine c) : (endMessage e).ldollar = e.ldollar := rfl
@[simp] theorem endMessage_ltab {c : Cfg} (e : Engine c) : (endMessage e).ltab = e.ltab := rfl
@[simp] theorem endMessage_ncValid {c : Cfg} (e : Engine c) : (endMessage e).ncValid = e.ncValid := rfl
@[simp] theorem endMessage_ncTop {c : Cfg} (e : Engine c) : (endMessage e).ncTop = e.ncTop := rfl
@[simp] theorem endMessage_ncKtop {c : Cfg} (e : Engine c) : (endMessage e).ncKtop = e.ncKtop := rfl
@[simp] theorem endMessage_ncStretch {c : Cfg} (e : Engine c) : (endMessage e).ncStretch = e.ncStretch := rfl
@[simp] theorem endMessage_bottom {c : Cfg} (e : Engine c) : (endMessage e).bottom = 0 := rfl
@[simp] theorem endMessage_adbuf {c : Cfg} (e : Engine c) : (endMessage e).adbuf = [] := rfl
@[simp] theorem endMessage_sum {c : Cfg} (e : Engine c) : (endMessage e).sum = 0 := rfl
@[simp] theorem endMessage_offset {c : Cfg} (e : Engine c) : (endMessage e).offset = 0 := rfl
@[simp] theorem endMessage_checksum {c : Cfg} (e : Engine c) : (endMessage e).checksum = 0 := rfl
@[simp] theorem endMessage_ctr {c : Cfg} (e : Engine c) : (endMessage e).ctr = 0 := rfl
@[simp] theorem endMessage_dbuf {c : Cfg} (e : Engine c) : (endMessage e).dbuf = [] := rfl
@[simp] theorem endMessage_pthold {c : Cfg} (e : Engine c) : (endMessage e).pthold = [] := rfl
@[simp] theorem endMessage_ciphLog {c : Cfg} (e : Engine c) : (endMessage e).ciphLog = e.ciphLog := rfl

/-! ### The read of a mask-table entry -/

@[simp] theorem lget_phase {c : Cfg} (i : Nat) (e : Engine c) : ((lget i e).2).phase = e.phase := rfl
@[simp] theorem lget_key {c : Cfg} (i : Nat) (e : Engine c) : ((lget i e).2).key = e.key := rfl
@[simp] theorem lget_lstar {c : Cfg} (i : Nat) (e : Engine c) : ((lget i e).2).lstar = e.lstar := rfl
@[simp] theorem lget_ldollar {c : Cfg} (i : Nat) (e : Engine c) : ((lget i e).2).ldollar = e.ldollar := rfl
@[simp] theorem lget_ltab {c : Cfg} (i : Nat) (e : Engine c) : ((lget i e).2).ltab = growTable e.ldollar (i + 1 - e.ltab.length) e.ltab := rfl
@[simp] theorem lget_ncValid {c : Cfg} (i : Nat) (e : Engine c) : ((lget i e).2).ncValid = e.ncValid := rfl
@[simp] theorem lget_ncTop {c : Cfg} (i : Nat) (e : Engine c) : ((lget i e).2).ncTop = e.ncTop := rfl
@[simp] theorem lget_ncKtop {c : Cfg} (i : Nat) (e : Engine c) : ((lget i e).2).ncKtop = e.ncKtop := rfl
@[simp] theorem lget_ncStretch {c : Cfg} (i : Nat) (e : Engine c) : ((lget i e).2).ncStretch = e.ncStretch := rfl
@[simp] theorem lget_bottom {c : Cfg} (i : Nat) (e : Engine c) : ((lget i e).2).bottom = e.bottom := rfl
@[simp] theorem lget_adbuf {c : Cfg} (i : Nat) (e : Engine c) : ((lget i e).2).adbuf = e.adbuf := rfl
@[simp] theorem lget_sum {c : Cfg} (i : Nat) (e : Engine c) : ((lget i e).2).sum = e.sum := rfl
@[simp] theorem lget_offset {c : Cfg} (i : Nat) (e : Engine c) : ((lget i e).2).offset = e.offset := rfl
@[simp] theorem lget_checksum {c : Cfg} (i : Nat) (e : Engine c) : ((lget i e).2).checksum = e.checksum := rfl
@[simp] theorem lget_ctr {c : Cfg} (i : Nat) (e : Engine c) : ((lget i e).2).ctr = e.ctr := rfl
@[simp] theorem lget_dbuf {c : Cfg} (i : Nat) (e : Engine c) : ((lget i e).2).dbuf = e.dbuf := rfl
@[simp] theorem lget_pthold {c : Cfg} (i : Nat) (e : Engine c) : ((lget i e).2).pthold = e.pthold := rfl
@[simp] theorem lget_ciphLog {c : Cfg} (i : Nat) (e : Engine c) : ((lget i e).2).ciphLog = e.ciphLog := rfl

/-! ### The step of the Gray-code walk -/

@[simp] theorem advance_phase {c : Cfg} (e : Engine c) : (advance e).phase = e.phase := rfl
@[simp] theorem advance_key {c : Cfg} (e : Engine c) : (advance e).key = e.key := rfl
@[simp] theorem advance_lstar {c : Cfg} (e : Engine c) : (advance e).lstar = e.lstar := rfl
@[simp] theorem advance_ldollar {c : Cfg} (e : Engine c) : (advance e).ldollar = e.ldollar := rfl
@[simp] theorem advance_ltab {c : Cfg} (e : Engine c) : (advance e).ltab = (lget (ntz (e.ctr + 1)) e).2.ltab := rfl
@[simp] theorem advance_ncValid {c : Cfg} (e : Engine c) : (advance e).ncValid = e.ncValid := rfl
@[simp] theorem advance_ncTop {c : Cfg} (e : Engine c) : (advance e).ncTop = e.ncTop := rfl
@[simp] theorem advance_ncKtop {c : Cfg} (e : Engine c) : (advance e).ncKtop = e.ncKtop := rfl
@[simp] theorem advance_ncStretch {c : Cfg} (e : Engine c) : (advance e).ncStretch = e.ncStretch := rfl
@[simp] theorem advance_bottom {c : Cfg} (e : Engine c) : (advance e).bottom = e.bottom := rfl
@[simp] theorem advance_adbuf {c : Cfg} (e : Engine c) : (advance e).adbuf = e.adbuf := rfl
@[simp] theorem advance_sum {c : Cfg} (e : Engine c) : (advance e).sum = e.sum := rfl
@[simp] theorem advance_offset {c : Cfg} (e : Engine c) : (advance e).offset = e.offset ^^^ (lget (ntz (e.ctr + 1)) e).1 := rfl
@[simp] theorem advance_checksum {c : Cfg} (e : Engine c) : (advance e).checksum = e.checksum := rfl
@[simp] theorem advance_ctr {c : Cfg} (e : Engine c) : (advance e).ctr = e.ctr + 1 := rfl
@[simp] theorem advance_dbuf {c : Cfg} (e : Engine c) : (advance e).dbuf = e.dbuf := rfl
@[simp] theorem advance_pthold {c : Cfg} (e : Engine c) : (advance e).pthold = e.pthold := rfl
@[simp] theorem advance_ciphLog {c : Cfg} (e : Engine c) : (advance e).ciphLog = e.ciphLog := rfl

/-! ### Reset -/

@[simp] theorem reset_phase (c : Cfg) : (Engine.reset c).phase = if cfgLegal c then .uninit else .cfgerr := rfl
@[simp] theorem reset_key (c : Cfg) : (Engine.reset c).key = [] := rfl
@[simp] theorem reset_lstar (c : Cfg) : (Engine.reset c).lstar = 0 := rfl
@[simp] theorem reset_ldollar (c : Cfg) : (Engine.reset c).ldollar = 0 := rfl
@[simp] theorem reset_ltab (c : Cfg) : (Engine.reset c).ltab = [] := rfl
@[simp] theorem reset_ncValid (c : Cfg) : (Engine.reset c).ncValid = false := rfl
@[simp] theorem reset_ncTop (c : Cfg) : (Engine.reset c).ncTop = 0 := rfl
@[simp] theorem reset_ncKtop (c : Cfg) : (Engine.reset c).ncKtop = 0 := rfl
@[simp] theorem reset_ncStretch (c : Cfg) : (Engine.reset c).ncStretch = 0 := rfl
@[simp] theorem reset_bottom (c : Cfg) : (Engine.reset c).bottom = 0 := rfl
@[simp] theorem reset_adbuf (c : Cfg) : (Engine.reset c).adbuf = [] := rfl
@[simp] theorem reset_sum (c : Cfg) : (Engine.reset c).sum = 0 := rfl
@[simp] theorem reset_offset (c : Cfg) : (Engine.reset c).offset = 0 := rfl
@[simp] theorem reset_checksum (c : Cfg) : (Engine.reset c).checksum = 0 := rfl
@[simp] theorem reset_ctr (c : Cfg) : (Engine.reset c).ctr = 0 := rfl
@[simp] theorem reset_dbuf (c : Cfg) : (Engine.reset c).dbuf = [] := rfl
@[simp] theorem reset_pthold (c : Cfg) : (Engine.reset c).pthold = [] := rfl
@[simp] theorem reset_ciphLog (c : Cfg) : (Engine.reset c).ciphLog = [] := rfl

/-! ### Answering a command -/

@[simp] theorem answer_cfg (s : State) (r : Reply s.cfg) : (answer s r).cfg = s.cfg := rfl
@[simp] theorem answer_eng (s : State) (r : Reply s.cfg) : (answer s r).eng = r.eng := rfl
@[simp] theorem answer_cmdIn (s : State) (r : Reply s.cfg) : (answer s r).cmdIn = s.cmdIn := rfl
@[simp] theorem answer_rspOut (s : State) (r : Reply s.cfg) : (answer s r).rspOut = s.rspOut ++
      [⟨responseWord s.freeCtr r.status r.payload, r.payload⟩] := rfl
@[simp] theorem answer_freeCtr (s : State) (r : Reply s.cfg) : (answer s r).freeCtr = s.freeCtr + 1 := rfl

/-! ### Replies -/

@[simp] theorem respondOk_eng {c : Cfg} (e : Engine c) (pl : Bytes) : (respondOk e pl).eng = e := rfl
@[simp] theorem respondOk_status {c : Cfg} (e : Engine c) (pl : Bytes) : (respondOk e pl).status = .ok := rfl
@[simp] theorem respondOk_payload {c : Cfg} (e : Engine c) (pl : Bytes) : (respondOk e pl).payload = pl := rfl
@[simp] theorem fail_eng {c : Cfg} (k : ErrorKind) (e : Engine c) : (fail k e).eng = raise k e := rfl
@[simp] theorem fail_status {c : Cfg} (k : ErrorKind) (e : Engine c) : (fail k e).status = .err k := rfl
@[simp] theorem fail_payload {c : Cfg} (k : ErrorKind) (e : Engine c) : (fail k e).payload = [] := rfl

/-! ### Raising an error -/

@[simp] theorem raise_illegal {c : Cfg} (e : Engine c) : raise .illegal e = e := rfl
@[simp] theorem raise_configError {c : Cfg} (e : Engine c) : raise .configError e = e := rfl
@[simp] theorem raise_authFail {c : Cfg} (e : Engine c) : raise .authFail e = endMessage e := rfl
theorem raise_seqError_fault {c : Cfg} {e : Engine c} (h : e.phase = .fault) : raise .seqError e = e := by
  simp [raise, h]
theorem raise_seqError {c : Cfg} {e : Engine c} (h : e.phase ≠ .fault) :
    raise .seqError e = { Engine.reset c with phase := .fault, ciphLog := e.ciphLog } := by
  simp [raise, h, zeroise]

end Sys2Proof.Machine
end

