-- ==== Sys2Proof/Laws/Ops.lean ====
section
/-! SUPPORT. What each shared operation can do, said once: the opening checks, delivery, the finite counter and table, the
mask table, the block loops, the nonce cache. -/

namespace Sys2Proof.Machine

/-! ### Delivery and the opening checks -/

/-- A command either answers, and then changes registers and response port only, or has no step. -/
theorem deliver_next {s t : State} {r : Except Refusal (Reply s.cfg)} :
    deliver s r = .next t ↔ ∃ q, r = .ok q ∧ t = answer s q := by
  cases r with
  | ok q => simp [deliver, eq_comm]
  | error x => simp [deliver]

theorem deliver_ok (s : State) (q : Reply s.cfg) : deliver s (.ok q) = .next (answer s q) := rfl

theorem deliver_error (s : State) (x : Refusal) : deliver s (.error x) = .refused x := rfl

theorem deliver_ne_fault (s : State) (r : Except Refusal (Reply s.cfg)) (f : Fault) : deliver s r ≠ .fault f := by
  cases f

/-- In a legal phase the opening checks let the command through. -/
theorem gate_legal {c : Cfg} {legal : List Phase} {e : Engine c} {body : Except Refusal (Reply c)}
    (h : e.phase ∈ legal) (hc : e.phase ≠ .cfgerr) (hf : e.phase ≠ .fault) : gate legal e body = body := by
  simp [gate, h, hc, hf]

theorem gate_cfgerr {c : Cfg} {legal : List Phase} {e : Engine c} {body : Except Refusal (Reply c)}
    (h : e.phase = .cfgerr) : gate legal e body = .ok (fail .configError e) := by
  simp [gate, h]

theorem gate_fault {c : Cfg} {legal : List Phase} {e : Engine c} {body : Except Refusal (Reply c)}
    (h : e.phase = .fault) : gate legal e body = .ok (fail .seqError e) := by
  simp [gate, h]

theorem gate_illegal {c : Cfg} {legal : List Phase} {e : Engine c} {body : Except Refusal (Reply c)}
    (h : e.phase ∉ legal) (hc : e.phase ≠ .cfgerr) : gate legal e body = .ok (fail .seqError e) := by
  simp [gate, h, hc]

/-- All the opening checks can do: refuse for `CFGERR`, refuse for the sequence, or run the command. -/
theorem gate_cases {c : Cfg} (legal : List Phase) (e : Engine c) (body : Except Refusal (Reply c)) :
    (e.phase = .cfgerr ∧ gate legal e body = .ok (fail .configError e)) ∨
    (e.phase ≠ .cfgerr ∧ (e.phase = .fault ∨ e.phase ∉ legal) ∧ gate legal e body = .ok (fail .seqError e)) ∨
    (e.phase ≠ .cfgerr ∧ e.phase ≠ .fault ∧ e.phase ∈ legal ∧ gate legal e body = body) := by
  by_cases hc : e.phase = .cfgerr
  · exact .inl ⟨hc, gate_cfgerr hc⟩
  · by_cases hf : e.phase = .fault
    · exact .inr (.inl ⟨hc, .inl hf, gate_fault hf⟩)
    · by_cases hl : e.phase ∈ legal
      · exact .inr (.inr ⟨hc, hf, hl, gate_legal hl hc hf⟩)
      · exact .inr (.inl ⟨hc, .inr hl, gate_illegal hl hc⟩)

/-! ### The finite counter and table -/

/-- No block is refused exactly when none would wrap the counter or reach the table's depth. -/
theorem blocksRefused_eq_none (cb ld : Option Nat) (k n : Nat) :
    blocksRefused cb ld k n = none ↔
      (∀ b, cb = some b → ∀ i, k < i → i ≤ k + n → i < 2 ^ b) ∧
      (∀ d, ld = some d → ∀ i, k < i → i ≤ k + n → ntz i < d) := by
  induction n generalizing k with
  | zero =>
    simp only [blocksRefused, true_iff]
    exact ⟨fun _ _ i h h' => by omega, fun _ _ i h h' => by omega⟩
  | succ n ih =>
    have key : ∀ P : Nat → Prop,
        (∀ i, k < i → i ≤ k + (n + 1) → P i) ↔ P (k + 1) ∧ ∀ i, k + 1 < i → i ≤ k + 1 + n → P i := by
      intro P
      constructor
      · intro h
        exact ⟨h _ (by omega) (by omega), fun i h1 h2 => h i (by omega) (by omega)⟩
      · rintro ⟨h0, h⟩ i h1 h2
        rcases Nat.eq_or_lt_of_le (show k + 1 ≤ i by omega) with h3 | h3
        · exact h3 ▸ h0
        · exact h i h3 (by omega)
    simp only [blocksRefused, key]
    rcases cb with _ | b <;> rcases ld with _ | d
    · simp [ih]
    · by_cases h2 : d ≤ ntz (k + 1)
      · simp [h2]
      · simpa [h2, ih] using fun _ => Nat.lt_of_not_le h2
    · by_cases h1 : 2 ^ b ≤ k + 1
      · simp [h1]
      · simpa [h1, ih] using fun _ => Nat.lt_of_not_le h1
    · by_cases h1 : 2 ^ b ≤ k + 1
      · simp [h1]
      · by_cases h2 : d ≤ ntz (k + 1)
        · simp [h1, h2]
        · have h1' := Nat.lt_of_not_le h1
          have h2' := Nat.lt_of_not_le h2
          simp [h1, h2, h1', h2', ih]

theorem blocksFit_iff {c : Cfg} {k n : Nat} : blocksRefused c.ctrBits c.lDepth k n = none ↔ BlocksFit c k n :=
  blocksRefused_eq_none ..

theorem adBlocksFit_iff {c : Cfg} {m : Nat} : blocksRefused none c.lDepth 0 m = none ↔ AdBlocksFit c m := by
  rw [blocksRefused_eq_none]
  simp [AdBlocksFit]

/-- A refused block is refused by one of two names. -/
theorem blocksRefused_name {cb ld : Option Nat} {k n : Nat} {x : Refusal} (h : blocksRefused cb ld k n = some x) :
    x = .counterWrap ∨ x = .tableDepth := by
  induction n generalizing k with
  | zero => simp [blocksRefused] at h
  | succ n ih =>
    simp only [blocksRefused] at h
    split_ifs at h
    · exact .inl (by simpa using h.symm)
    · exact .inr (by simpa using h.symm)
    · exact ih h

/-! ### The mask table -/

theorem growTable_length {w : Nat} (ld : Block w) (n : Nat) (t : List (Block w)) :
    (growTable ld n t).length = t.length + n := by
  induction n generalizing t with
  | zero => rfl
  | succ n ih => simp [growTable, ih]; omega

theorem growTable_prefix {w : Nat} (ld : Block w) (n : Nat) (t : List (Block w)) : t <+: growTable ld n t := by
  induction n generalizing t with
  | zero => exact List.prefix_rfl
  | succ n ih => exact (List.prefix_append t _).trans (ih _)

/-- The loop of `LGET` keeps the entries of the schedule. -/
theorem growTable_entries {w : Nat} {lstar ld : Block w} (hd : ld = double lstar) (n : Nat) (t : List (Block w))
    (h : ∀ i, i < t.length → t.getD i 0 = maskL lstar i) (i : Nat) (hi : i < (growTable ld n t).length) :
    (growTable ld n t).getD i 0 = maskL lstar i := by
  induction n generalizing t with
  | zero => exact h i hi
  | succ n ih =>
    refine ih _ ?_ hi
    intro j hj
    rw [List.length_append, List.length_singleton] at hj
    rcases Nat.lt_or_ge j t.length with hjt | hjt
    · rw [List.getD_append _ _ _ _ hjt]
      exact h j hjt
    · obtain rfl : j = t.length := by omega
      rw [List.getD_append_right _ _ _ _ (le_refl _)]
      simp only [Nat.sub_self, List.getD_cons_zero]
      rcases List.eq_nil_or_concat t with rfl | ⟨t', x, rfl⟩
      · simp [hd, maskL, doubleN]
      · have := h t'.length (by simp)
        simp only [List.concat_eq_append, List.length_append, List.length_singleton] at *
        rw [List.getD_append_right _ _ _ _ (le_refl _)] at this
        simp only [Nat.sub_self, List.getD_cons_zero] at this
        simp [this, maskL, doubleN]

/-- `LGET(i)` answers the entry of the schedule and leaves a table that holds it (41_mask_schedule.md R93). -/
theorem lget_spec {c : Cfg} {e : Engine c} (h : TableOk e) (i : Nat) :
    (lget i e).1 = maskL e.lstar i ∧ TableOk (lget i e).2 ∧ e.ltab <+: (lget i e).2.ltab ∧
      (lget i e).2.ltab.length = max e.ltab.length (i + 1) := by
  have hlen : (lget i e).2.ltab.length = max e.ltab.length (i + 1) := by
    simp only [lget_ltab, growTable_length]
    omega
  have hent := growTable_entries h.1 (i + 1 - e.ltab.length) e.ltab h.2
  refine ⟨hent i ?_, ⟨h.1, hent⟩, growTable_prefix .., hlen⟩
  simp only [growTable_length]
  omega

/-- What `LGET` asks of the table to hold block number `k + 1`, as one step of `TableGrown`. -/
theorem tableGrown_refl {w : Nat} {lstar : Block w} {t : List (Block w)} (k : Nat)
    (h : ∀ i, i < t.length → t.getD i 0 = maskL lstar i) : TableGrown lstar k 0 t t :=
  ⟨List.prefix_rfl, h, fun _ _ _ => by omega, fun _ hd _ => hd⟩

theorem tableGrown_cons {w : Nat} {lstar : Block w} {t t1 t2 : List (Block w)} {k n : Nat} (hp : t <+: t1)
    (hl : t1.length = max t.length (ntz (k + 1) + 1)) (h : TableGrown lstar (k + 1) n t1 t2) :
    TableGrown lstar k (n + 1) t t2 := by
  obtain ⟨h1, h2, h3, h4⟩ := h
  refine ⟨hp.trans h1, h2, ?_, ?_⟩
  · intro i hi hi'
    rcases Nat.eq_or_lt_of_le (show k + 1 ≤ i by omega) with rfl | h5
    · have := h1.length_le
      omega
    · exact h3 i h5 (by omega)
  · intro d hd hn
    refine h4 d ?_ fun i hi hi' => hn i (by omega) (by omega)
    have := hn (k + 1) (by omega) (by omega)
    omega

end Sys2Proof.Machine
end

