-- ==== Sys2Proof/Laws/Loops.lean ====
section
/-! SUPPORT. What the block loops do, said once, in the closed forms of Safety.lean: later proofs cite these and never unfold
a loop. -/

namespace Sys2Proof.Machine

/-! ### The closed forms, one block at a time -/

theorem walk_succ_front {w : Nat} (lstar o : Block w) (k n : Nat) :
    walk lstar (o ^^^ maskL lstar (ntz (k + 1))) (k + 1) n = walk lstar o k (n + 1) := by
  induction n with
  | zero => rfl
  | succ n ih =>
    rw [walk, ih, walk]
    congr 3
    omega

theorem walk_add {w : Nat} (lstar o : Block w) (k m n : Nat) :
    walk lstar (walk lstar o k m) (k + m) n = walk lstar o k (m + n) := by
  induction n with
  | zero => rfl
  | succ n ih =>
    rw [walk, ih, ← Nat.add_assoc m n 1, walk]
    congr 3
    omega

theorem xorSum_succ {w : Nat} (n : Nat) (f : Nat → Block w) : xorSum (n + 1) f = xorSum n f ^^^ f n := by
  simp [xorSum, List.range_succ]

theorem xorSum_succ_front {w : Nat} (n : Nat) (f : Nat → Block w) :
    xorSum (n + 1) f = f 0 ^^^ xorSum n fun j => f (j + 1) := by
  induction n with
  | zero => simp [xorSum]
  | succ n ih => rw [xorSum_succ, ih, xorSum_succ n fun j => f (j + 1), BitVec.xor_assoc]

theorem xorSum_congr {w : Nat} {n : Nat} {f g : Nat → Block w} (h : ∀ j, j < n → f j = g j) :
    xorSum n f = xorSum n g := by
  induction n with
  | zero => rfl
  | succ n ih => rw [xorSum_succ, xorSum_succ, ih fun j hj => h j (by omega), h n (by omega)]

theorem blockAt_zero (c : Cfg) (t : Bytes) : blockAt c t 0 = intBlock c.w (t.take c.bs) := by
  simp [blockAt]

theorem blockAt_drop (c : Cfg) (t : Bytes) (j : Nat) : blockAt c (t.drop c.bs) j = blockAt c t (j + 1) := by
  simp only [blockAt, List.drop_drop]
  congr 3
  rw [Nat.succ_mul, Nat.add_comm]

theorem outBlockAt_drop {c : Cfg} {e e' : Engine c} (hk : e'.key = e.key) (hl : e'.lstar = e.lstar)
    (ho : e'.offset = e.offset ^^^ maskL e.lstar (ntz (e.ctr + 1))) (hc : e'.ctr = e.ctr + 1) (t : Bytes) (j : Nat) :
    outBlockAt e' (t.drop c.bs) j = outBlockAt e t (j + 1) := by
  simp only [outBlockAt, offsetAt, hk, hl, ho, hc, walk_succ_front, blockAt_drop]

theorem plainBlockAt_drop {c : Cfg} {e e' : Engine c} (hk : e'.key = e.key) (hl : e'.lstar = e.lstar)
    (ho : e'.offset = e.offset ^^^ maskL e.lstar (ntz (e.ctr + 1))) (hc : e'.ctr = e.ctr + 1) (t : Bytes) (j : Nat) :
    plainBlockAt e' (t.drop c.bs) j = plainBlockAt e t (j + 1) := by
  simp only [plainBlockAt, outBlockAt_drop hk hl ho hc, blockAt_drop]

theorem blocksOut_succ_front {c : Cfg} {e e' : Engine c} (hk : e'.key = e.key) (hl : e'.lstar = e.lstar)
    (ho : e'.offset = e.offset ^^^ maskL e.lstar (ntz (e.ctr + 1))) (hc : e'.ctr = e.ctr + 1) (t : Bytes) (n : Nat) :
    blocksOut e t (n + 1) = blockBytes (outBlockAt e t 0) ++ blocksOut e' (t.drop c.bs) n := by
  simp only [blocksOut, List.range_succ_eq_map, List.flatMap_cons, List.flatMap_map, outBlockAt_drop hk hl ho hc]

theorem blockRequests_succ_front {c : Cfg} {e e' : Engine c} (hk : e'.key = e.key) (hl : e'.lstar = e.lstar)
    (ho : e'.offset = e.offset ^^^ maskL e.lstar (ntz (e.ctr + 1))) (hc : e'.ctr = e.ctr + 1) (t : Bytes) (n : Nat) :
    blockRequests e t (n + 1) = asked c e.key (dataOp c) (offsetAt e 0 ^^^ blockAt c t 0) ::
      blockRequests e' (t.drop c.bs) n := by
  simp only [blockRequests, List.range_succ_eq_map, List.map_cons, List.map_map, Function.comp_def, offsetAt, hk, hl, ho,
    hc, walk_succ_front, blockAt_drop]

/-! ### Counting requests -/

theorem requestCount_append (a b : List CiphEvent) : requestCount (a ++ b) = requestCount a + requestCount b := by
  simp [requestCount]

theorem decryptCount_append (a b : List CiphEvent) : decryptCount (a ++ b) = decryptCount a + decryptCount b := by
  simp [decryptCount]

@[simp] theorem requestCount_nil : requestCount [] = 0 := rfl
@[simp] theorem decryptCount_nil : decryptCount [] = 0 := rfl
@[simp] theorem requestCount_request (op : CiphOp) (i a : Bytes) : requestCount [.request op i a] = 1 := rfl
@[simp] theorem requestCount_setKey (k : Bytes) (b : Bool) : requestCount [.setKey k b] = 0 := rfl
@[simp] theorem decryptCount_encrypt (i a : Bytes) : decryptCount [.request .encrypt i a] = 0 := rfl
@[simp] theorem decryptCount_decrypt (i a : Bytes) : decryptCount [.request .decrypt i a] = 1 := rfl
@[simp] theorem decryptCount_setKey (k : Bytes) (b : Bool) : decryptCount [.setKey k b] = 0 := rfl
@[simp] theorem requestCount_asked (c : Cfg) (key : Bytes) (op : CiphOp) (b : Block c.w) :
    requestCount [asked c key op b] = 1 := rfl
@[simp] theorem decryptCount_asked_encrypt (c : Cfg) (key : Bytes) (b : Block c.w) :
    decryptCount [asked c key .encrypt b] = 0 := rfl

/-- A request for each of `n` Blocks, in one direction. -/
theorem counts_map_asked (c : Cfg) (key : Bytes) (op : CiphOp) (f : Nat → Block c.w) (n : Nat) :
    requestCount ((List.range n).map fun j => asked c key op (f j)) = n ∧
    decryptCount ((List.range n).map fun j => asked c key op (f j)) = (if op = .decrypt then n else 0) := by
  induction n with
  | zero => simp
  | succ n ih =>
    rw [List.range_succ, List.map_append, requestCount_append, decryptCount_append, ih.1, ih.2]
    cases op <;> exact ⟨rfl, rfl⟩

@[simp] theorem requestCount_blockRequests {c : Cfg} (e : Engine c) (t : Bytes) (n : Nat) :
    requestCount (blockRequests e t n) = n := (counts_map_asked ..).1

@[simp] theorem decryptCount_blockRequests {c : Cfg} (e : Engine c) (t : Bytes) (n : Nat) :
    decryptCount (blockRequests e t n) = (if c.dir = .dec then n else 0) := by
  refine (counts_map_asked ..).2.trans ?_
  cases hd : c.dir <;> simp [dataOp, hd]

@[simp] theorem requestCount_finishRequests {c : Cfg} (e : Engine c) (t : Bytes) :
    requestCount (finishRequests e t) = blockCount c t.length + 1 := by
  rw [finishRequests, lastRequests, requestCount_append, requestCount_append, requestCount_blockRequests,
    requestCount_asked, blockCount]
  split <;> rfl

@[simp] theorem decryptCount_finishRequests {c : Cfg} (e : Engine c) (t : Bytes) :
    decryptCount (finishRequests e t) = (if c.dir = .dec then t.length / c.bs else 0) := by
  rw [finishRequests, lastRequests, decryptCount_append, decryptCount_append, decryptCount_blockRequests,
    decryptCount_asked_encrypt]
  split <;> split <;> rfl

@[simp] theorem requestCount_adRequests (c : Cfg) (key a : Bytes) :
    requestCount (adRequests c key a) = blockCount c a.length := by
  rw [adRequests, requestCount_append, (counts_map_asked ..).1, blockCount]
  split <;> rfl

@[simp] theorem decryptCount_adRequests (c : Cfg) (key a : Bytes) : decryptCount (adRequests c key a) = 0 := by
  rw [adRequests, decryptCount_append, (counts_map_asked ..).2, if_neg (by decide)]
  split <;> rfl

theorem requestCount_startRequests {c : Cfg} (e : Engine c) (n : Bytes) :
    requestCount (startRequests e n) = (if e.ncValid = true ∧ e.ncTop = topWord c (formatNonce c n) then 0 else 1) +
      blockCount c e.adbuf.length := by
  rw [startRequests, requestCount_append, requestCount_adRequests]
  split <;> rfl

@[simp] theorem decryptCount_startRequests {c : Cfg} (e : Engine c) (n : Bytes) :
    decryptCount (startRequests e n) = 0 := by
  rw [startRequests, decryptCount_append, decryptCount_adRequests]
  split <;> rfl

/-! ### One block of the data pass -/

/-- The Gray-code step: counter, Offset and table change, by the schedule. -/
theorem advance_spec {c : Cfg} {e : Engine c} (h : TableOk e) :
    ∃ tab, advance e = { e with
        ctr := e.ctr + 1, offset := e.offset ^^^ maskL e.lstar (ntz (e.ctr + 1)), ltab := tab } ∧
      e.ltab <+: tab ∧ tab.length = max e.ltab.length (ntz (e.ctr + 1) + 1) ∧
      ∀ i, i < tab.length → tab.getD i 0 = maskL e.lstar i := by
  obtain ⟨h1, h2, h3, h4⟩ := lget_spec h (ntz (e.ctr + 1))
  refine ⟨(lget (ntz (e.ctr + 1)) e).2.ltab, ?_, h3, h4, h2.2⟩
  rw [← h1]
  rfl

/-- One full block of the data pass in either direction. -/
theorem fullBlock_spec {c : Cfg} {e : Engine c} (h : TableOk e) (t : Bytes) :
    ∃ tab, fullBlock (intBlock c.w (t.take c.bs)) e = (outBlockAt e t 0, { e with
        ctr := e.ctr + 1, offset := e.offset ^^^ maskL e.lstar (ntz (e.ctr + 1)),
        checksum := e.checksum ^^^ plainBlockAt e t 0, ltab := tab,
        ciphLog := e.ciphLog ++ [asked c e.key (dataOp c) (offsetAt e 0 ^^^ blockAt c t 0)] }) ∧
      e.ltab <+: tab ∧ tab.length = max e.ltab.length (ntz (e.ctr + 1) + 1) ∧
      ∀ i, i < tab.length → tab.getD i 0 = maskL e.lstar i := by
  obtain ⟨tab, ha, h1, h2, h3⟩ := advance_spec h
  refine ⟨tab, ?_, h1, h2, h3⟩
  cases hd : c.dir with
  | enc =>
    simp only [fullBlock, hd, fullEnc, ha, wrap, plainBlockAt, outBlockAt, offsetAt, walk, Nat.add_zero,
      ← blockAt_zero, dataOp]
    rfl
  | dec =>
    simp only [fullBlock, hd, fullDec, ha, wrap, plainBlockAt, outBlockAt, offsetAt, walk, Nat.add_zero,
      ← blockAt_zero, dataOp]
    rfl

/-- The block loop of UPDATE and FINISH, whole: output, and every register it changes. -/
theorem runBlocks_spec {c : Cfg} (n : Nat) (t : Bytes) {e : Engine c} (h : TableOk e) :
    ∃ tab, runBlocks (fullBlocks c n t) e = (blocksOut e t n, { e with
        ctr := e.ctr + n, offset := walk e.lstar e.offset e.ctr n,
        checksum := e.checksum ^^^ xorSum n (plainBlockAt e t), ltab := tab,
        ciphLog := e.ciphLog ++ blockRequests e t n }) ∧
      TableGrown e.lstar e.ctr n e.ltab tab := by
  induction n generalizing t e with
  | zero =>
    refine ⟨e.ltab, ?_, tableGrown_refl _ h.2⟩
    simp [runBlocks, fullBlocks, blocksOut, walk, xorSum, blockRequests]
  | succ n ih =>
    obtain ⟨tab, h1, h2, h3, h4⟩ := fullBlock_spec h t
    rcases hfb : fullBlock (intBlock c.w (t.take c.bs)) e with ⟨y, e1⟩
    rw [hfb] at h1
    obtain ⟨hy, he⟩ := Prod.mk.inj h1
    have hk : e1.key = e.key := by rw [he]
    have hl : e1.lstar = e.lstar := by rw [he]
    have ho : e1.offset = e.offset ^^^ maskL e.lstar (ntz (e.ctr + 1)) := by rw [he]
    have hc : e1.ctr = e.ctr + 1 := by rw [he]
    obtain ⟨tab', g1, g2⟩ := ih (t.drop c.bs) (e := e1) (by rw [he]; exact ⟨h.1, h4⟩)
    have hp : xorSum n (plainBlockAt e1 (t.drop c.bs)) = xorSum n fun j => plainBlockAt e t (j + 1) :=
      xorSum_congr fun j _ => plainBlockAt_drop hk hl ho hc t j
    have hg : TableGrown e.lstar (e.ctr + 1) n tab tab' := by
      rw [he] at g2
      exact g2
    refine ⟨tab', ?_, tableGrown_cons h2 h3 hg⟩
    rw [fullBlocks, runBlocks, hfb]
    dsimp only
    rw [g1, hp, hy, blocksOut_succ_front hk hl ho hc, blockRequests_succ_front hk hl ho hc, xorSum_succ_front, he]
    simp only [walk_succ_front, Nat.add_assoc, Nat.add_comm 1 n, BitVec.xor_assoc, List.append_assoc,
      List.singleton_append]

/-! ### The end of the data pass and the tag -/

/-- The end of the data pass, whole: output, `OFFSET` and `CHECKSUM` at the tag, every other register it changes. -/
theorem lastBlocks_spec {c : Cfg} (t : Bytes) {e : Engine c} (h : TableOk e) :
    ∃ tab, lastBlocks t e = (lastOut e t, { e with
        ctr := e.ctr + t.length / c.bs, offset := tagOffset e t, checksum := tagChecksum e t,
        ltab := tab, ciphLog := e.ciphLog ++ lastRequests e t }) ∧
      TableGrown e.lstar e.ctr (t.length / c.bs) e.ltab tab := by
  obtain ⟨tab, h1, h2⟩ := runBlocks_spec (t.length / c.bs) t h
  refine ⟨tab, ?_, h2⟩
  by_cases hr : 0 < t.length % c.bs
  · cases hd : c.dir <;>
      simp only [lastBlocks, hr, if_true, h1, partialBlock, ciph, cipherAnswer_encrypt, lastOut, tagOffset,
        tagChecksum, fullOffset, fullChecksum, tailOut, tailPlain, tailBytes, hd, List.append_assoc, lastRequests, asked]
  · simp only [lastBlocks, hr, if_false, h1, lastOut, tagOffset, tagChecksum, fullOffset, fullChecksum,
      List.append_nil, lastRequests]

/-- The tag after the last data of a message; it changes the record of the cipher port only. -/
theorem tag_lastBlocks {c : Cfg} (t : Bytes) {e : Engine c} (h : TableOk e) :
    ∃ tab, lastBlocks t e = (lastOut e t, (lastBlocks t e).2) ∧
      tag (lastBlocks t e).2 = (messageTag e t, { e with
        ctr := e.ctr + t.length / c.bs, offset := tagOffset e t, checksum := tagChecksum e t,
        ltab := tab, ciphLog := e.ciphLog ++ finishRequests e t }) ∧
      TableGrown e.lstar e.ctr (t.length / c.bs) e.ltab tab := by
  obtain ⟨tab, h1, h2⟩ := lastBlocks_spec t h
  refine ⟨tab, ?_, ?_, h2⟩
  · rw [h1]
  · rw [h1]
    simp only [tag, tagBlock, ciph, cipherAnswer_encrypt, messageTag, List.append_assoc, finishRequests, asked]

/-! ### The AD hash -/

theorem block_zero_xor {w : Nat} (x : Block w) : (0 : Block w) ^^^ x = x := by simp

/-- The full-block loop of `HASH_AD` from block number `k + 1`. -/
theorem hashBlocks_spec {c : Cfg} (n : Nat) (t : Bytes) (k : Nat) (o d : Block c.w) {e : Engine c} (h : TableOk e) :
    ∃ tab, hashBlocks (fullBlocks c n t) (k + 1) o d e = (walk e.lstar o k n,
        d ^^^ xorSum n (fun j => cipherE c e.key (walk e.lstar o k (j + 1) ^^^ blockAt c t j)),
        { e with ltab := tab, ciphLog := e.ciphLog ++ ((List.range n).map fun j =>
          asked c e.key .encrypt (walk e.lstar o k (j + 1) ^^^ blockAt c t j)) }) ∧
      TableGrown e.lstar k n e.ltab tab := by
  induction n generalizing t k o d e with
  | zero =>
    refine ⟨e.ltab, ?_, tableGrown_refl _ h.2⟩
    simp [hashBlocks, fullBlocks, walk, xorSum]
  | succ n ih =>
    obtain ⟨g1, g2, g3, g4⟩ := lget_spec h (ntz (k + 1))
    rcases hl : lget (ntz (k + 1)) e with ⟨l, e1⟩
    rw [hl] at g1 g2 g3 g4
    replace g1 : l = maskL e.lstar (ntz (k + 1)) := g1
    have hl2 : (lget (ntz (k + 1)) e).2 = e1 := by rw [hl]
    have he1 : e1 = { e with ltab := e1.ltab } := by
      rw [← hl2]
      rfl
    have hk1 : e1.key = e.key := by rw [he1]
    rcases hr : ciph .encrypt (o ^^^ l ^^^ intBlock c.w (t.take c.bs)) e1 with ⟨y, e2⟩
    have hr1 : (ciph .encrypt (o ^^^ l ^^^ intBlock c.w (t.take c.bs)) e1).1 = y := by rw [hr]
    have hr2 : (ciph .encrypt (o ^^^ l ^^^ intBlock c.w (t.take c.bs)) e1).2 = e2 := by rw [hr]
    have hy : y = cipherE c e.key (o ^^^ l ^^^ intBlock c.w (t.take c.bs)) := by
      rw [← hr1, ciph_answer, hk1, cipherAnswer_encrypt]
    have he2 : e2 = { e with ltab := e1.ltab, ciphLog := e.ciphLog ++
        [asked c e.key .encrypt (o ^^^ l ^^^ intBlock c.w (t.take c.bs))] } := by
      rw [← hr2, ciph, hk1, asked, he1]
    have hk : e2.key = e.key := by rw [he2]
    have hs : e2.lstar = e.lstar := by rw [he2]
    have ht : e2.ltab = e1.ltab := by rw [he2]
    have hok : TableOk e2 := by
      have hd : e2.ldollar = e.ldollar := by rw [he2]
      have hs1 : e1.lstar = e.lstar := by rw [he1]
      refine ⟨by rw [hd, hs]; exact h.1, ?_⟩
      rw [ht, hs, ← hs1]
      exact g2.2
    obtain ⟨tab, i1, i2⟩ := ih (t.drop c.bs) (k + 1) (o ^^^ l) (d ^^^ y) hok
    rw [hs, ht] at i2
    refine ⟨tab, ?_, tableGrown_cons g3 g4 i2⟩
    rw [fullBlocks, hashBlocks, hl]
    dsimp only
    rw [hr]
    dsimp only
    rw [i1, xorSum_succ_front, hk, hs, he2]
    have hw : ∀ j, walk e.lstar (o ^^^ l) (k + 1) j = walk e.lstar o k (j + 1) := fun j => by
      rw [g1, walk_succ_front]
    have hz : walk e.lstar o k (0 + 1) ^^^ blockAt c t 0 = o ^^^ l ^^^ intBlock c.w (t.take c.bs) := by
      rw [g1, blockAt_zero]
      rfl
    simp only [hw, hz, hy, blockAt_drop, List.append_assoc, List.range_succ_eq_map, List.map_cons,
      List.map_map, Function.comp_def, List.singleton_append, ← BitVec.xor_assoc]

/-- `HASH_AD` answers the digest of the key and the AD alone; it grows the table and records its requests. -/
theorem hashAd_spec {c : Cfg} (a : Bytes) {e : Engine c} (h : TableOk e) (hl : e.lstar = cipherE c e.key 0) :
    ∃ tab, hashAd a e =
        (adDigest c e.key a, { e with ltab := tab, ciphLog := e.ciphLog ++ adRequests c e.key a }) ∧
      TableGrown e.lstar 0 (a.length / c.bs) e.ltab tab := by
  obtain ⟨tab, h1, h2⟩ := hashBlocks_spec (a.length / c.bs) a 0 0 0 h
  refine ⟨tab, ?_, h2⟩
  by_cases hr : 0 < a.length % c.bs
  · simp only [hashAd, hr, if_true, h1, ciph, cipherAnswer_encrypt, adDigest, adRequests, asked, ← hl, block_zero_xor,
      List.append_assoc]
  · simp only [hashAd, hr, if_false, h1, adDigest, adRequests, ← hl, block_zero_xor, List.append_nil]

/-! ### The nonce cache -/

/-- Hit or miss, the cache holds the entry of `top` afterwards (42_nonce_cache.md R109); a hit asks the cipher for nothing. -/
theorem fillCache_spec {c : Cfg} (top : Block c.w) {e : Engine c} (h : CacheOk e) :
    fillCache top e = { e with
      ncValid := true, ncTop := top, ncKtop := cipherE c e.key top, ncStretch := stretch c (cipherE c e.key top),
      ciphLog := e.ciphLog ++
        (if e.ncValid = true ∧ e.ncTop = top then [] else [asked c e.key .encrypt top]) } := by
  by_cases hh : e.ncValid = true ∧ e.ncTop = top
  · obtain ⟨h1, h2⟩ := h hh.1
    rw [if_pos hh, fillCache, if_pos hh, ← hh.2, ← h1, ← h2, List.append_nil, ← hh.1]
  · rw [if_neg hh, fillCache, if_neg hh]
    rfl

end Sys2Proof.Machine
end

