-- ==== Sys2Proof/Laws/Commands.lean ====
section
/-! SUPPORT. What each command can answer, said once: if its reply function answers `r`, then `r` is one of these, each with
the condition it stands under. Statements about every command go by these cases and never unfold a reply function. -/

namespace Sys2Proof.Machine

/-- All the opening checks can answer. -/
theorem gate_ok {c : Cfg} {legal : List Phase} {e : Engine c} {body : Except Refusal (Reply c)} {r : Reply c}
    (h : gate legal e body = .ok r) :
    (e.phase = .cfgerr ∧ r = ⟨e, .err .configError, []⟩) ∨
    (e.phase = .fault ∧ r = ⟨e, .err .seqError, []⟩) ∨
    (e.phase ≠ .cfgerr ∧ e.phase ≠ .fault ∧ e.phase ∉ legal ∧
      r = ⟨{ Engine.reset c with phase := .fault, ciphLog := e.ciphLog }, .err .seqError, []⟩) ∨
    (e.phase ≠ .cfgerr ∧ e.phase ≠ .fault ∧ e.phase ∈ legal ∧ body = .ok r) := by
  rcases gate_cases legal e body with ⟨hc, hg⟩ | ⟨hc, hl, hg⟩ | ⟨hc, hf, hl, hg⟩
  · rw [hg] at h
    exact .inl ⟨hc, (Except.ok.inj h).symm⟩
  · rw [hg] at h
    obtain rfl := Except.ok.inj h
    by_cases hf : e.phase = .fault
    · exact .inr (.inl ⟨hf, by simp [fail, raise, hf]⟩)
    · exact .inr (.inr (.inl ⟨hc, hf, hl.resolve_left hf, by simp [fail, raise, hf, zeroise]⟩))
  · rw [hg] at h
    exact .inr (.inr (.inr ⟨hc, hf, hl, h⟩))

/-- All SET_KEY can answer in a legal phase. -/
theorem setKeyReply_ok {c : Cfg} {pl : Bytes} {e : Engine c} {r : Reply c} (hl : e.phase = .uninit ∨ e.phase = .keyed)
    (h : setKeyReply pl e = .ok r) :
    (cipherAccepts c pl = true ∧ r = ⟨installKey pl (ciphSetKey pl e), .ok, []⟩) ∨
    (cipherAccepts c pl = false ∧ r = ⟨ciphSetKey pl e, .err .configError, []⟩) := by
  rw [setKeyReply, gate_legal (by rcases hl with hl | hl <;> simp [hl]) (by rcases hl with hl | hl <;> simp [hl])
    (by rcases hl with hl | hl <;> simp [hl])] at h
  cases ha : cipherAccepts c pl <;> simp only [ha, if_true, Bool.false_eq_true, if_false, Except.ok.injEq] at h
  · exact .inr ⟨rfl, h.symm⟩
  · exact .inl ⟨rfl, h.symm⟩

/-- All SET_AD can answer in its legal phase. -/
theorem setAdReply_ok {c : Cfg} {pl : Bytes} {e : Engine c} {r : Reply c} (hl : e.phase = .keyed)
    (h : setAdReply pl e = .ok r) :
    (overCap c.adMax pl.length = false ∧ r = ⟨{ e with adbuf := pl }, .ok, []⟩) ∨
    (overCap c.adMax pl.length = true ∧ r = ⟨e, .err .configError, []⟩) := by
  rw [setAdReply, gate_legal (by simp [hl]) (by simp [hl]) (by simp [hl])] at h
  cases ha : overCap c.adMax pl.length <;> simp only [ha, if_true, Bool.false_eq_true, if_false, Except.ok.injEq] at h
  · exact .inl ⟨rfl, h.symm⟩
  · exact .inr ⟨rfl, h.symm⟩

/-- What START does with an accepted nonce, whole. -/
theorem beginMessage_spec {c : Cfg} (pl : Bytes) {e : Engine c} (hk : KeyClassOk e) :
    ∃ tab, beginMessage pl e = { e with
        phase := .started, ncValid := true, ncTop := topWord c (formatNonce c pl),
        ncKtop := cipherE c e.key (topWord c (formatNonce c pl)),
        ncStretch := stretch c (cipherE c e.key (topWord c (formatNonce c pl))),
        bottom := bottomOf c (formatNonce c pl), offset := nonceOffset c e.key pl, sum := adDigest c e.key e.adbuf,
        checksum := 0, ctr := 0, dbuf := [], pthold := [], ltab := tab,
        ciphLog := e.ciphLog ++ startRequests e pl } ∧
      TableGrown e.lstar 0 (e.adbuf.length / c.bs) e.ltab tab := by
  obtain ⟨-, h2, h3, h4, -⟩ := hk
  have f1 := fillCache_spec (e := { e with bottom := bottomOf c (formatNonce c pl) }) (topWord c (formatNonce c pl)) h4
  obtain ⟨tab, g1, g2⟩ := hashAd_spec e.adbuf (e := { e with
    bottom := bottomOf c (formatNonce c pl), ncValid := true, ncTop := topWord c (formatNonce c pl),
    ncKtop := cipherE c e.key (topWord c (formatNonce c pl)),
    ncStretch := stretch c (cipherE c e.key (topWord c (formatNonce c pl))),
    ciphLog := e.ciphLog ++ (if e.ncValid = true ∧ e.ncTop = topWord c (formatNonce c pl) then []
      else [asked c e.key .encrypt (topWord c (formatNonce c pl))]),
    offset := nonceOffset c e.key pl }) h3 h2
  refine ⟨tab, ?_, g2⟩
  rw [nonceOffset] at g1
  simp only [beginMessage, f1, g1, nonceOffset, List.append_assoc, startRequests]

/-- All START can answer in its legal phase. -/
theorem startReply_ok {c : Cfg} {pl : Bytes} {e : Engine c} {r : Reply c} (hl : e.phase = .keyed)
    (h : startReply pl e = .ok r) :
    (c.bs ≤ pl.length ∧ r = ⟨e, .err .configError, []⟩) ∨
    (pl.length < c.bs ∧ slicesExist c = true ∧ AdBlocksFit c (e.adbuf.length / c.bs) ∧
      r = ⟨beginMessage pl e, .ok, []⟩) := by
  rw [startReply, gate_legal (by simp [hl]) (by simp [hl]) (by simp [hl])] at h
  split_ifs at h with h1 h2
  · exact .inl ⟨h1, (Except.ok.inj h).symm⟩
  · split at h
    · simp at h
    · rename_i hb
      exact .inr ⟨by omega, by simpa using h2, adBlocksFit_iff.mp hb, (Except.ok.inj h).symm⟩

/-- In a phase in which UPDATE and FINISH are legal, their opening checks let them through. -/
theorem gate_message {c : Cfg} {e : Engine c} {body : Except Refusal (Reply c)}
    (hl : e.phase = .started ∨ e.phase = .processing) : gate [.started, .processing] e body = body :=
  gate_legal (by rcases hl with hl | hl <;> simp [hl]) (by rcases hl with hl | hl <;> simp [hl])
    (by rcases hl with hl | hl <;> simp [hl])

/-- The registers UPDATE leaves when it answers OK; `tab` is the table. -/
def updated {c : Cfg} (e : Engine c) (t : Bytes) (tab : List (Block c.w)) : Engine c :=
  { e with
    phase := .processing, ctr := e.ctr + t.length / c.bs, offset := fullOffset e t, checksum := fullChecksum e t,
    dbuf := tailBytes c t, ltab := tab, ciphLog := e.ciphLog ++ blockRequests e t (t.length / c.bs),
    pthold := match c.dir with
      | .enc => e.pthold
      | .dec => e.pthold ++ blocksOut e t (t.length / c.bs) }

/-- All UPDATE can answer in a legal phase. -/
theorem updateReply_ok {c : Cfg} {pl : Bytes} {e : Engine c} {r : Reply c}
    (hl : e.phase = .started ∨ e.phase = .processing) (ht : TableOk e) (h : updateReply pl e = .ok r) :
    (c.dir = .dec ∧ overCap c.ptHoldMax (e.pthold.length + (e.dbuf ++ pl).length / c.bs * c.bs) = true ∧
      r = ⟨e, .err .configError, []⟩) ∨
    (¬(c.dir = .dec ∧ overCap c.ptHoldMax (e.pthold.length + (e.dbuf ++ pl).length / c.bs * c.bs) = true) ∧
      BlocksFit c e.ctr ((e.dbuf ++ pl).length / c.bs) ∧
      ∃ tab, r = ⟨updated e (e.dbuf ++ pl) tab, .ok,
          match c.dir with
          | .enc => blocksOut e (e.dbuf ++ pl) ((e.dbuf ++ pl).length / c.bs)
          | .dec => []⟩ ∧
        TableGrown e.lstar e.ctr ((e.dbuf ++ pl).length / c.bs) e.ltab tab) := by
  simp only [updateReply, gate_message hl] at h
  split_ifs at h with h1
  · exact .inl ⟨h1.1, h1.2, (Except.ok.inj h).symm⟩
  · obtain ⟨tab, g1, g2⟩ := runBlocks_spec ((e.dbuf ++ pl).length / c.bs) (e.dbuf ++ pl) ht
    split at h
    · simp at h
    · rename_i hb
      refine .inr ⟨h1, blocksFit_iff.mp hb, tab, ?_, g2⟩
      rw [g1] at h
      cases hd : c.dir <;> simp only [hd, Except.ok.injEq] at h <;> rw [← h] <;>
        simp [respondOk, updated, hd, fullOffset, fullChecksum, tailBytes]

/-- The registers FINISH leaves after the data pass; `tab` and `log` are the table and the requests. -/
def finished {c : Cfg} (e : Engine c) (tab : List (Block c.w)) (log : List CiphEvent) : Engine c :=
  { e with
    phase := .keyed, bottom := 0, adbuf := [], sum := 0, offset := 0, checksum := 0, ctr := 0, dbuf := [], pthold := [],
    ltab := tab, ciphLog := e.ciphLog ++ log }

/-- All an encrypting FINISH can answer in a legal phase. -/
theorem finishReply_enc_ok {c : Cfg} {pl : Bytes} {e : Engine c} {r : Reply c}
    (hl : e.phase = .started ∨ e.phase = .processing) (hd : c.dir = .enc) (ht : TableOk e)
    (h : finishReply pl e = .ok r) :
    BlocksFit c e.ctr ((e.dbuf ++ pl).length / c.bs) ∧
      ∃ tab, r = ⟨finished e tab (finishRequests e (e.dbuf ++ pl)), .ok,
          lastOut e (e.dbuf ++ pl) ++ messageTag e (e.dbuf ++ pl)⟩ ∧
        TableGrown e.lstar e.ctr ((e.dbuf ++ pl).length / c.bs) e.ltab tab := by
  simp only [finishReply, gate_message hl, hd, finishEnc] at h
  obtain ⟨tab, g0, g1, g2⟩ := tag_lastBlocks (e.dbuf ++ pl) ht
  split at h
  · simp at h
  · rename_i hb
    rw [g1, g0] at h
    exact ⟨blocksFit_iff.mp hb, tab, (Except.ok.inj h).symm, g2⟩

/-- All a decrypting FINISH can answer in a legal phase. -/
theorem finishReply_dec_ok {c : Cfg} {pl : Bytes} {e : Engine c} {r : Reply c}
    (hl : e.phase = .started ∨ e.phase = .processing) (hd : c.dir = .dec) (ht : TableOk e)
    (h : finishReply pl e = .ok r) :
    ((e.dbuf ++ pl).length < c.taglen ∧ r = ⟨finished e e.ltab [], .err .authFail, []⟩) ∨
    (c.taglen ≤ (e.dbuf ++ pl).length ∧ BlocksFit c e.ctr ((cipherPart c (e.dbuf ++ pl)).length / c.bs) ∧
      ∃ tab,
        ((messageTag e (cipherPart c (e.dbuf ++ pl)) = tagPart c (e.dbuf ++ pl) ∧
            r = ⟨finished e tab (finishRequests e (cipherPart c (e.dbuf ++ pl))), .ok,
              e.pthold ++ lastOut e (cipherPart c (e.dbuf ++ pl))⟩) ∨
          (messageTag e (cipherPart c (e.dbuf ++ pl)) ≠ tagPart c (e.dbuf ++ pl) ∧
            r = ⟨finished e tab (finishRequests e (cipherPart c (e.dbuf ++ pl))), .err .authFail, []⟩)) ∧
        TableGrown e.lstar e.ctr ((cipherPart c (e.dbuf ++ pl)).length / c.bs) e.ltab tab) := by
  simp only [finishReply, gate_message hl, hd, finishDec] at h
  by_cases h1 : (e.dbuf ++ pl).length < c.taglen
  · rw [if_pos h1] at h
    exact .inl ⟨h1, by rw [← Except.ok.inj h]; simp [fail, raise, clearMessage, finished]⟩
  · rw [if_neg h1] at h
    obtain ⟨tab, g0, g1, g2⟩ := tag_lastBlocks (cipherPart c (e.dbuf ++ pl)) ht
    simp only [cipherPart, tagPart] at *
    split at h
    · simp at h
    · rename_i hb
      refine .inr ⟨by omega, blocksFit_iff.mp hb, tab, ?_, g2⟩
      rw [g1, g0] at h
      split_ifs at h with h2
      · exact .inr ⟨by simpa only [ctEq, decide_eq_false_iff_not] using h2, (Except.ok.inj h).symm⟩
      · exact .inl ⟨by simpa only [ctEq, decide_eq_false_iff_not, not_not] using h2, (Except.ok.inj h).symm⟩

end Sys2Proof.Machine
end

