-- ==== Sys2Proof/Certificates/Slice0/Obligations.lean ====
section
/-! DEFINITION. The statements about the GFD-AEAD engine. A command's result is stated as the whole next state: the registers
as an update of the registers before (so everything not named is unchanged), the status and the payload of its response. -/

open Sys2Proof Sys2Proof.Machine

/-! ### Encoding -/

/-- Words of 95_test_vectors.md decode to their commands (30_encoding.md R65). -/
def Obligations.WordsOfTheVectorsDecode : Prop :=
  ∀ pl : Bytes,
    decodeCommand ⟨0x0100000000000010#64, pl⟩ = .ok (.setKey pl) ∧
    decodeCommand ⟨0x0200000000000003#64, pl⟩ = .ok (.setAd pl) ∧
    decodeCommand ⟨0x030000000000000C#64, pl⟩ = .ok (.start pl) ∧
    decodeCommand ⟨0x0400000000000014#64, pl⟩ = .ok (.update pl) ∧
    decodeCommand ⟨0x0500000000000035#64, pl⟩ = .ok (.finish pl) ∧
    decodeCommand ⟨0x0600000000000000#64, pl⟩ = .error (.reservedOpcode 0x06#8) ∧
    decodeCommand ⟨0x0101000000000010#64, pl⟩ = .error (.reservedField 0x01#8)

/-- Every well-formed command comes back from the bytes of its encoding, and the bytes after it are left (30_encoding.md R60,
R62, R65, R68). -/
def Obligations.EncodedBytesDecodeBack : Prop :=
  ∀ (i : Instr) (rest : Bytes), i.wellFormed = true →
    decodeStream ((encode i).toBytes ++ rest) = .command i rest

/-- A framed transaction that decodes is the encoding of what it decodes to: each command has one encoding. -/
def Obligations.DecodedCommandEncodesBack : Prop :=
  ∀ (cmd : Command) (i : Instr), cmd.framed = true → decodeCommand cmd = .ok i → encode i = cmd

/-- The words that spell a command are exactly those with `RSV = 0` and `OPC` from 1 to 5 (30_encoding.md R65, R66). -/
def Obligations.OnlyFiveOpcodesDecode : Prop :=
  ∀ cmd : Command, (∃ i, decodeCommand cmd = .ok i) ↔
    rsvField cmd.cw = 0#8 ∧ 1 ≤ (opcField cmd.cw).toNat ∧ (opcField cmd.cw).toNat ≤ 5

/-! ### The step -/

/-- A transaction of the right length whose word spells a command is taken off the port, and the step is that command. -/
def Obligations.StepRunsDecodedCommand : Prop :=
  ∀ (s : State) (cmd : Command) (rest : List HostEvent) (i : Instr),
    s.cmdIn = .command cmd :: rest → cmd.framed = true → decodeCommand cmd = .ok i →
    step s = exec i { s with cmdIn := rest }

/-- A word that spells no command answers ILLEGAL and changes no register, in every phase; its payload is consumed
(30_encoding.md R66, 60_exceptions.md R159). -/
def Obligations.IllegalWordChangesNothing : Prop :=
  ∀ (s : State) (cmd : Command) (rest : List HostEvent),
    s.cmdIn = .command cmd :: rest → cmd.framed = true →
    (opcField cmd.cw = 0x00#8 ∨ 6 ≤ (opcField cmd.cw).toNat ∨ rsvField cmd.cw ≠ 0x00#8) →
    step s = .next { s with
      cmdIn := rest, rspOut := s.rspOut ++ [⟨0x0400000000000000#64, []⟩], freeCtr := s.freeCtr + 1 }

/-- With nothing on its ports the engine waits; a transaction that is not `LEN` bytes long has no step (30_encoding.md R61:
the refusal is how the model says 'outside the model', log 3). -/
def Obligations.WaitingAndBadFraming : Prop :=
  (∀ s : State, s.cmdIn = [] → step s = .next s) ∧
  (∀ (s : State) (cmd : Command) (rest : List HostEvent), s.cmdIn = .command cmd :: rest →
    cmd.payload.length ≠ (lenField cmd.cw).toNat → step s = .refused .badFraming)

/-- After the reset input every register has the value of 10_state.md R38, the configuration inputs are what they stand at
(70_reset_and_hazards.md R180), and `PHASE` says whether they are legal (R182). That the parameters of 00_scope.md R6 and the
model's records of the ports go on across a reset is the model's choice (log 3). -/
def Obligations.ResetGivesEveryRegisterItsValue : Prop :=
  ∀ (s : State) (st : Straps) (rest : List HostEvent), s.cmdIn = .reset st :: rest →
    ∃ t, step s = .next t ∧ t.cfg.toStraps = st ∧ t.cfg.toParams = s.cfg.toParams ∧
      t.eng.phase = (if (st.bs = 16 ∨ st.bs = 24 ∨ st.bs = 32 ∨ st.bs = 64) ∧ st.taglen ≤ st.bs then .uninit
        else .cfgerr) ∧
      t.eng.key = [] ∧ t.eng.lstar = 0 ∧ t.eng.ldollar = 0 ∧ t.eng.ltab = [] ∧
      t.eng.ncValid = false ∧ t.eng.ncTop = 0 ∧ t.eng.ncKtop = 0 ∧ t.eng.ncStretch = 0 ∧ t.eng.bottom = 0 ∧
      t.eng.adbuf = [] ∧ t.eng.dbuf = [] ∧ t.eng.pthold = [] ∧
      t.eng.sum = 0 ∧ t.eng.offset = 0 ∧ t.eng.checksum = 0 ∧ t.eng.ctr = 0 ∧
      t.eng.ciphLog = s.eng.ciphLog ∧ t.cmdIn = rest ∧ t.rspOut = s.rspOut ∧ t.freeCtr = s.freeCtr

/-- The machine right after reset satisfies the invariant, for every configuration, legal or illegal, and every parameter
(10_state.md R38, 70_reset_and_hazards.md R182). The second clause is of `State.reset`, the one instance the model chose
(log 1, DESIGN CHOICE). -/
def Obligations.ResetHoldsInvariant : Prop :=
  (∀ c : Cfg, (freshState c).Inv) ∧ State.reset.Inv

/-- Every step keeps the invariant: what is derived from the key agrees with the key, the message registers agree with the AD,
the nonce and the block counter, the buffers keep their bounds, and every phase has the registers the spec gives it. -/
def Obligations.StepKeepsInvariant : Prop :=
  ∀ s t : State, s.Inv → step s = .next t → t.Inv

/-! ### Bytes, cipher, doubling, masks -/

/-- `bytes_n` and `int` are inverse to each other, and byte `k` is where 00_scope.md R8 puts it. -/
def Obligations.BytesAndBitStringsInverse : Prop :=
  (∀ (n : Nat) (x : BitVec (8 * n)), BitVec.ofNat (8 * n) (intOf (bytesOf n x)) = x) ∧
  (∀ s : Bytes, bytesOf s.length (BitVec.ofNat (8 * s.length) (intOf s)) = s) ∧
  (∀ (n : Nat) (x : BitVec (8 * n)) (k : Nat), k < n → (bytesOf n x)[k]? = some (x.extractLsb' (8 * (n - 1 - k)) 8))

/-- The two directions of the cipher port undo each other, for every cipher that can be attached and every key
(00_scope.md R10). -/
def Obligations.CipherDirectionsInvert : Prop :=
  ∀ (c : Cfg) (key : Bytes) (b : Block c.w),
    cipherD c key (cipherE c key b) = b ∧ cipherE c key (cipherD c key b) = b

/-- The four reduction constants (40_gf_doubling.md R81). -/
def Obligations.ReductionConstants : Prop :=
  rc 128 = 0x87#128 ∧ rc 192 = 0x87#192 ∧ rc 256 = 0x0425#256 ∧ rc 512 = 0x0125#512

/-- Bit `i` of the double: bit `i − 1` of the Block, XORed with bit `i` of the reduction constant where the top bit was
shifted out (40_gf_doubling.md R80). -/
def Obligations.DoubleShiftsAndReduces : Prop :=
  ∀ (w : Nat) (b : Block w) (i : Nat), i < w →
    (double b).getLsbD i =
      ((decide (0 < i) && b.getLsbD (i - 1)) ^^ (b.getLsbD (w - 1) && (rc w).getLsbD i))

/-- The hardware form of doubling, a mask in place of a branch, is the same function (40_gf_doubling.md R83). -/
def Obligations.DoubleEqualsMaskedForm : Prop :=
  ∀ (w : Nat) (b : Block w),
    double b = (b <<< 1) ^^^ (rc w &&& (BitVec.ofBool b.msb).signExtend w)

/-- The laws band1 requires of doubling (40_gf_doubling.md R84). -/
def Obligations.DoubleLaws : Prop :=
  ∀ w : Nat, (w = 128 ∨ w = 192 ∨ w = 256 ∨ w = 512) →
    double (0 : Block w) = 0 ∧ double (BitVec.twoPow w (w - 1)) = rc w ∧
    ∀ a b : Block w, double a ^^^ double b = double (a ^^^ b)

/-- Doubling loses nothing at the supported widths: it is injective, and no chain of doublings of a Block that is not zero
reaches zero (40_gf_doubling.md R85). -/
def Obligations.DoubleLosesNothing : Prop :=
  ∀ w : Nat, (w = 128 ∨ w = 192 ∨ w = 256 ∨ w = 512) →
    (∀ a b : Block w, double a = double b → a = b) ∧ ∀ (k : Nat) (b : Block w), b ≠ 0 → doubleN k b ≠ 0

/-- `ntz(i)` is the largest `n` with `2^n` dividing `i` (41_mask_schedule.md R94). -/
def Obligations.NtzIsLargestPower : Prop :=
  ∀ i : Nat, 1 ≤ i → 2 ^ ntz i ∣ i ∧ ∀ n, 2 ^ n ∣ i → n ≤ ntz i

/-- A read of the mask table answers the entry of the schedule whatever the fill level, grows the table to hold it, by
entries of the schedule, forgets nothing and changes nothing else (41_mask_schedule.md R92, R93). -/
def Obligations.TableReadIgnoresFillLevel : Prop :=
  ∀ (c : Cfg) (e f : Engine c) (i : Nat), TableOk e → TableOk f → e.lstar = f.lstar →
    (lget i e).1 = (lget i f).1 ∧ (lget i e).1 = doubleN (i + 2) e.lstar ∧ TableOk (lget i e).2 ∧
    (lget i e).2 = { e with ltab := (lget i e).2.ltab } ∧
    (lget i e).2.ltab.length = max e.ltab.length (i + 1) ∧ (lget i e).2.ltab.take e.ltab.length = e.ltab

/-- The Gray-code walk in closed form: after `n` blocks from the start of a message the Offset is the initial one XORed with
the entries `L[j]` for the bits `j` of the Gray code of `n` (41_mask_schedule.md R95). -/
def Obligations.GrayWalkClosedForm : Prop :=
  ∀ (c : Cfg) (e : Engine c) (n : Nat), TableOk e → e.ctr = 0 →
    (advance^[n] e).ctr = n ∧ (advance^[n] e).offset = e.offset ^^^ grayMask e.lstar n

/-! ### The nonce -/

/-- The `DOC` nonce word bit by bit: the top bit says whether `(8·TAGLEN) mod w` is not zero, the nonce stands right-aligned,
everything between is zero (42_nonce_cache.md R102). -/
def Obligations.DocNonceWordLayout : Prop :=
  ∀ (c : Cfg) (n : Bytes), c.nonceFmt = .doc → n.length < c.bs →
    (formatNonce c n).getLsbD (c.w - 1) = decide (8 * c.taglen % c.w ≠ 0) ∧
    (∀ i, 8 * n.length ≤ i → i < c.w - 1 → (formatNonce c n).getLsbD i = false) ∧
    (∀ i, i < 8 * n.length → (formatNonce c n).getLsbD i = (intOf n).testBit i)

/-- The `STD` nonce word at `w = 128` bit by bit: seven bits of `TAGMOD`, zeros, a single 1 just before the nonce, the nonce
(42_nonce_cache.md R103). -/
def Obligations.StdNonceWordLayout : Prop :=
  ∀ (c : Cfg) (n : Bytes), c.nonceFmt = .std → c.bs = 16 → n.length < 16 →
    (∀ i, 121 ≤ i → i < 128 → (formatNonce c n).getLsbD i = (8 * c.taglen % 128).testBit (i - 121)) ∧
    (∀ i, 8 * n.length < i → i < 121 → (formatNonce c n).getLsbD i = false) ∧
    (formatNonce c n).getLsbD (8 * n.length) = true ∧
    (∀ i, i < 8 * n.length → (formatNonce c n).getLsbD i = (intOf n).testBit i)

/-- What the nonce word must be under either format and at every width: it carries the nonce right-aligned, and it depends on
nothing but the nonce, `TAGLEN`, the width and the format (42_nonce_cache.md R101 b, c). -/
def Obligations.NonceWordKeepsContract : Prop :=
  (∀ (c : Cfg) (n : Bytes) (i : Nat), n.length < c.bs → i < 8 * n.length →
    (formatNonce c n).getLsbD i = (intOf n).testBit i) ∧
  (∀ (c d : Cfg) (n : Bytes), c.bs = d.bs → c.taglen = d.taglen → c.nonceFmt = d.nonceFmt →
    (formatNonce c n).toNat = (formatNonce d n).toNat)

/-- Under `DOC` a nonce and the same nonce with a leading zero byte give the same word (70_reset_and_hazards.md R188). -/
def Obligations.DocNonceIgnoresLeadingZero : Prop :=
  ∀ (c : Cfg) (n : Bytes), c.nonceFmt = .doc → formatNonce c (0x00#8 :: n) = formatNonce c n

/-- `BOTTOM` is the low `BOTTOM_BITS` bits of the nonce word, `TOPWORD` the word with them cleared (42_nonce_cache.md R104). -/
def Obligations.TopAndBottomSplitTheWord : Prop :=
  ∀ (c : Cfg) (word : Block c.w) (i : Nat),
    (i < c.bottomBits → (bottomOf c word).getLsbD i = word.getLsbD i ∧ (topWord c word).getLsbD i = false) ∧
    (c.bottomBits ≤ i → (topWord c word).getLsbD i = word.getLsbD i)

/-- Stretch and the initial Offset bit by bit, bit 0 the first: Ktop, then the XOR of Ktop's leading bits with those
`STRETCH_SHIFT` further on; the Offset is the `w` bits from bit `BOTTOM` on (42_nonce_cache.md R107, R108). -/
def Obligations.StretchAndInitialOffset : Prop :=
  ∀ (c : Cfg) (ktop : Block c.w) (bottom : BitVec c.bottomBits),
    2 ^ c.bottomBits - 1 ≤ c.extBits → c.extBits + c.stretchShift ≤ c.w →
    (∀ k, k < c.w → (stretch c ktop).getMsbD k = ktop.getMsbD k) ∧
    (∀ k, k < c.extBits →
      (stretch c ktop).getMsbD (c.w + k) = (ktop.getMsbD k ^^ ktop.getMsbD (c.stretchShift + k))) ∧
    (∀ k, k < c.w →
      (offset0 c (stretch c ktop) bottom).getMsbD k = (stretch c ktop).getMsbD (bottom.toNat + k)) ∧
    (bottom = 0 → offset0 c (stretch c ktop) bottom = ktop)

/-! ### The commands -/

/-- SET_KEY with an accepted key in a legal phase: the key, `LSTAR = E_K(0^w)` under it, `LDOLLAR = DOUBLE_w(LSTAR)`, an empty
table, an invalid cache, the message class clear; the key goes to the cipher, then the one request (41_mask_schedule.md R90,
R91, and R96 where it accepts; 30_encoding.md R72). That `NC_TOP`, `NC_KTOP` and `NC_STRETCH` stay as they were is the model's
inference (log 10, DEDUCED). -/
def Obligations.SetKeyInstallsKey : Prop :=
  ∀ (pl : Bytes) (s : State), (s.eng.phase = .uninit ∨ s.eng.phase = .keyed) → pl.length ∈ s.cfg.keylens →
    exec (.setKey pl) s = .next (answer s ⟨{ s.eng with
      phase := .keyed, key := pl, lstar := cipherE s.cfg pl 0, ldollar := double (cipherE s.cfg pl 0), ltab := [],
      ncValid := false, bottom := 0, adbuf := [], sum := 0, offset := 0, checksum := 0, ctr := 0, dbuf := [],
      pthold := [], ciphLog := s.eng.ciphLog ++ [.setKey pl true,
        .request .encrypt (blockBytes (0 : Block s.cfg.w)) (blockBytes (cipherE s.cfg pl 0))] }, .ok, []⟩)

/-- SET_KEY with a length outside `KEYLENS` in a legal phase: CONFIG_ERROR, no register changes; the cipher was asked and
answered `fail` (41_mask_schedule.md R96, 60_exceptions.md R156; that the port record shows it is log 10, DEDUCED). -/
def Obligations.SetKeyBadLengthKeepsState : Prop :=
  ∀ (pl : Bytes) (s : State), (s.eng.phase = .uninit ∨ s.eng.phase = .keyed) → pl.length ∉ s.cfg.keylens →
    exec (.setKey pl) s = .next (answer s ⟨{ s.eng with ciphLog := s.eng.ciphLog ++ [.setKey pl false] },
      .err .configError, []⟩)

/-- SET_AD in KEYED stores the whole payload and changes nothing else; over `AD_MAX` it is CONFIG_ERROR and changes nothing
(43_ad_hash.md R118). -/
def Obligations.SetAdStoresTheData : Prop :=
  ∀ (pl : Bytes) (s : State), s.eng.phase = .keyed →
    ((∀ m, s.cfg.adMax = some m → pl.length ≤ m) →
      exec (.setAd pl) s = .next (answer s ⟨{ s.eng with adbuf := pl }, .ok, []⟩)) ∧
    (∀ m, s.cfg.adMax = some m → m < pl.length →
      exec (.setAd pl) s = .next (answer s ⟨s.eng, .err .configError, []⟩))

/-- START in KEYED with a nonce shorter than a block: the cache holds the entry of the nonce's top bits whether it hit or not,
`OFFSET` is the initial Offset of key and nonce alone, `SUM` the digest of key and AD alone, the data pass starts at zero. The
cipher is asked for `Ktop` on a miss, then for the AD's Blocks in order (42_nonce_cache.md R110, R111, 43_ad_hash.md R116,
44_core_loop.md R125, 20_memory.md R49). -/
def Obligations.StartBeginsMessage : Prop :=
  ∀ (pl : Bytes) (s : State), s.eng.phase = .keyed → pl.length < s.cfg.bs → KeyClassOk s.eng →
    2 ^ s.cfg.bottomBits - 1 ≤ s.cfg.extBits → s.cfg.extBits + s.cfg.stretchShift ≤ s.cfg.w →
    AdBlocksFit s.cfg (s.eng.adbuf.length / s.cfg.bs) →
    ∃ tab, exec (.start pl) s = .next (answer s ⟨{ s.eng with
        phase := .started, ncValid := true, ncTop := topWord s.cfg (formatNonce s.cfg pl),
        ncKtop := cipherE s.cfg s.eng.key (topWord s.cfg (formatNonce s.cfg pl)),
        ncStretch := stretch s.cfg (cipherE s.cfg s.eng.key (topWord s.cfg (formatNonce s.cfg pl))),
        bottom := bottomOf s.cfg (formatNonce s.cfg pl), offset := nonceOffset s.cfg s.eng.key pl,
        sum := adDigest s.cfg s.eng.key s.eng.adbuf, checksum := 0, ctr := 0, dbuf := [], pthold := [],
        ltab := tab, ciphLog := s.eng.ciphLog ++ startRequests s.eng pl }, .ok, []⟩) ∧
      TableGrown s.eng.lstar 0 (s.eng.adbuf.length / s.cfg.bs) s.eng.ltab tab

/-- START in KEYED with a nonce of a block or more: CONFIG_ERROR, nothing changes, a stored AD is kept (42_nonce_cache.md
R100, R111). -/
def Obligations.StartLongNonceKeepsState : Prop :=
  ∀ (pl : Bytes) (s : State), s.eng.phase = .keyed → s.cfg.bs ≤ pl.length →
    exec (.start pl) s = .next (answer s ⟨s.eng, .err .configError, []⟩)

/-- Decrypting a full block undoes encrypting it from the same registers, and both leave the same counter, Offset and checksum
(44_core_loop.md R128). -/
def Obligations.FullDecInvertsFullEnc : Prop :=
  ∀ (c : Cfg) (e : Engine c) (x : Block c.w),
    (fullDec (fullEnc x e).1 e).1 = x ∧ (fullEnc (fullDec x e).1 e).1 = x ∧
    (fullDec (fullEnc x e).1 e).2.ctr = (fullEnc x e).2.ctr ∧
    (fullDec (fullEnc x e).1 e).2.offset = (fullEnc x e).2.offset ∧
    (fullDec (fullEnc x e).1 e).2.checksum = (fullEnc x e).2.checksum

/-- UPDATE of an encrypting engine during a message: the full blocks of `DBUF ∥ PL` are encrypted and answered, the remainder
is kept; the cipher is asked for `E_K(O_i XOR X_i)`, block by block in order (44_core_loop.md R127, R134, 30_encoding.md R72,
20_memory.md R49). -/
def Obligations.UpdateEncryptsFullBlocks : Prop :=
  ∀ (pl : Bytes) (s : State), (s.eng.phase = .started ∨ s.eng.phase = .processing) → s.cfg.dir = .enc → TableOk s.eng →
    let t := s.eng.dbuf ++ pl
    let n := t.length / s.cfg.bs
    BlocksFit s.cfg s.eng.ctr n →
    ∃ tab, exec (.update pl) s = .next (answer s ⟨{ s.eng with
        phase := .processing, ctr := s.eng.ctr + n, offset := walk s.eng.lstar s.eng.offset s.eng.ctr n,
        checksum := s.eng.checksum ^^^ xorSum n (blockAt s.cfg t), dbuf := t.drop (n * s.cfg.bs),
        ltab := tab, ciphLog := s.eng.ciphLog ++ ((List.range n).map fun j => asked s.cfg s.eng.key .encrypt
          (walk s.eng.lstar s.eng.offset s.eng.ctr (j + 1) ^^^ blockAt s.cfg t j)) }, .ok,
        (List.range n).flatMap fun j => blockBytes (cipherE s.cfg s.eng.key
          (walk s.eng.lstar s.eng.offset s.eng.ctr (j + 1) ^^^ blockAt s.cfg t j) ^^^
            walk s.eng.lstar s.eng.offset s.eng.ctr (j + 1))⟩) ∧
      TableGrown s.eng.lstar s.eng.ctr n s.eng.ltab tab

/-- UPDATE of a decrypting engine during a message: the full blocks are decrypted, their plaintext goes to `PTHOLD` and into
the checksum, and nothing is answered; the cipher is asked for `D_K(O_i XOR Y_i)`, block by block in order (44_core_loop.md
R128, R134, R136, 30_encoding.md R72, 20_memory.md R49). -/
def Obligations.UpdateHoldsPlaintext : Prop :=
  ∀ (pl : Bytes) (s : State), (s.eng.phase = .started ∨ s.eng.phase = .processing) → s.cfg.dir = .dec → TableOk s.eng →
    let t := s.eng.dbuf ++ pl
    let n := t.length / s.cfg.bs
    let plain := fun j => cipherD s.cfg s.eng.key
      (walk s.eng.lstar s.eng.offset s.eng.ctr (j + 1) ^^^ blockAt s.cfg t j) ^^^
        walk s.eng.lstar s.eng.offset s.eng.ctr (j + 1)
    BlocksFit s.cfg s.eng.ctr n →
    (∀ m, s.cfg.ptHoldMax = some m → s.eng.pthold.length + n * s.cfg.bs ≤ m) →
    ∃ tab, exec (.update pl) s = .next (answer s ⟨{ s.eng with
        phase := .processing, ctr := s.eng.ctr + n, offset := walk s.eng.lstar s.eng.offset s.eng.ctr n,
        checksum := s.eng.checksum ^^^ xorSum n plain, dbuf := t.drop (n * s.cfg.bs),
        pthold := s.eng.pthold ++ (List.range n).flatMap fun j => blockBytes (plain j),
        ltab := tab, ciphLog := s.eng.ciphLog ++ ((List.range n).map fun j => asked s.cfg s.eng.key .decrypt
          (walk s.eng.lstar s.eng.offset s.eng.ctr (j + 1) ^^^ blockAt s.cfg t j)) }, .ok, []⟩) ∧
      TableGrown s.eng.lstar s.eng.ctr n s.eng.ltab tab

/-- UPDATE of a decrypting engine whose plaintext would exceed `PT_HOLD_MAX`: CONFIG_ERROR, nothing changes
(30_encoding.md R67, 44_core_loop.md R134). -/
def Obligations.UpdateOverfullHoldKeepsState : Prop :=
  ∀ (pl : Bytes) (s : State) (m : Nat), (s.eng.phase = .started ∨ s.eng.phase = .processing) → s.cfg.dir = .dec →
    s.cfg.ptHoldMax = some m →
    m < s.eng.pthold.length + (s.eng.dbuf.length + pl.length) / s.cfg.bs * s.cfg.bs →
    exec (.update pl) s = .next (answer s ⟨s.eng, .err .configError, []⟩)

/-- FINISH of an encrypting engine during a message: the rest of the ciphertext, then the leading `TAGLEN` bytes of
`E_K(CHECKSUM XOR OFFSET XOR LDOLLAR) XOR SUM`; the message class is cleared, the key class and the cache are kept.
The cipher is asked for the full blocks, the partial block's pad, the tag, in that order (45_tag_finish.md R140, R141, R143,
R147, 30_encoding.md R72, 20_memory.md R49). -/
def Obligations.FinishSealsMessage : Prop :=
  ∀ (pl : Bytes) (s : State), (s.eng.phase = .started ∨ s.eng.phase = .processing) → s.cfg.dir = .enc → TableOk s.eng →
    let t := s.eng.dbuf ++ pl
    BlocksFit s.cfg s.eng.ctr (t.length / s.cfg.bs) →
    ∃ tab, exec (.finish pl) s = .next (answer s ⟨{ s.eng with
        phase := .keyed, bottom := 0, adbuf := [], sum := 0, offset := 0, checksum := 0, ctr := 0, dbuf := [],
        pthold := [], ltab := tab, ciphLog := s.eng.ciphLog ++ finishRequests s.eng t }, .ok,
        lastOut s.eng t ++ messageTag s.eng t⟩) ∧
      TableGrown s.eng.lstar s.eng.ctr (t.length / s.cfg.bs) s.eng.ltab tab

/-- FINISH of a decrypting engine whose tag verifies: the plaintext held by earlier UPDATEs, then that of this payload.
The cipher is asked for the full blocks in the decrypt direction, then for the partial block's pad and the tag in the encrypt
direction (45_tag_finish.md R144, R147, 30_encoding.md R72, 20_memory.md R49). -/
def Obligations.FinishOpensVerifiedMessage : Prop :=
  ∀ (pl : Bytes) (s : State), (s.eng.phase = .started ∨ s.eng.phase = .processing) → s.cfg.dir = .dec → TableOk s.eng →
    let t := s.eng.dbuf ++ pl
    let ct := t.take (t.length - s.cfg.taglen)
    s.cfg.taglen ≤ t.length → BlocksFit s.cfg s.eng.ctr (ct.length / s.cfg.bs) →
    messageTag s.eng ct = t.drop (t.length - s.cfg.taglen) →
    ∃ tab, exec (.finish pl) s = .next (answer s ⟨{ s.eng with
        phase := .keyed, bottom := 0, adbuf := [], sum := 0, offset := 0, checksum := 0, ctr := 0, dbuf := [],
        pthold := [], ltab := tab, ciphLog := s.eng.ciphLog ++ finishRequests s.eng ct }, .ok,
        s.eng.pthold ++ lastOut s.eng ct⟩) ∧
      TableGrown s.eng.lstar s.eng.ctr (ct.length / s.cfg.bs) s.eng.ltab tab

/-- FINISH of a decrypting engine whose tag does not verify: AUTH_FAIL, no byte of the message is answered, the message class
is cleared (the held plaintext with it), the key class and the cache are kept, `PHASE` is KEYED (45_tag_finish.md R145);
the cipher was asked as for a verified message. That the table keeps the entries FINISH's own blocks added is the model's
inference (log 10, DEDUCED; vector 8.3 of 95_test_vectors.md section 8 prints `LCNT=2` after AUTH_FAIL, up from 1). -/
def Obligations.TagMismatchReleasesNothing : Prop :=
  ∀ (pl : Bytes) (s : State), (s.eng.phase = .started ∨ s.eng.phase = .processing) → s.cfg.dir = .dec → TableOk s.eng →
    let t := s.eng.dbuf ++ pl
    let ct := t.take (t.length - s.cfg.taglen)
    s.cfg.taglen ≤ t.length → BlocksFit s.cfg s.eng.ctr (ct.length / s.cfg.bs) →
    messageTag s.eng ct ≠ t.drop (t.length - s.cfg.taglen) →
    ∃ tab, exec (.finish pl) s = .next (answer s ⟨{ s.eng with
        phase := .keyed, bottom := 0, adbuf := [], sum := 0, offset := 0, checksum := 0, ctr := 0, dbuf := [],
        pthold := [], ltab := tab, ciphLog := s.eng.ciphLog ++ finishRequests s.eng ct }, .err .authFail, []⟩) ∧
      TableGrown s.eng.lstar s.eng.ctr (ct.length / s.cfg.bs) s.eng.ltab tab

/-- FINISH of a decrypting engine with fewer bytes than a tag: AUTH_FAIL with the effects of a mismatch and no cipher request
(45_tag_finish.md R146). -/
def Obligations.ShortInputFailsAuthentication : Prop :=
  ∀ (pl : Bytes) (s : State), (s.eng.phase = .started ∨ s.eng.phase = .processing) → s.cfg.dir = .dec →
    s.eng.dbuf.length + pl.length < s.cfg.taglen →
    exec (.finish pl) s = .next (answer s ⟨{ s.eng with
      phase := .keyed, bottom := 0, adbuf := [], sum := 0, offset := 0, checksum := 0, ctr := 0, dbuf := [],
      pthold := [] }, .err .authFail, []⟩)

/-- With `TAGLEN = 0` a decrypting FINISH accepts every input; the tag Block is still computed: its request is the last of
those made (45_tag_finish.md R148). -/
def Obligations.ZeroTagLengthAcceptsEverything : Prop :=
  ∀ (pl : Bytes) (s : State), (s.eng.phase = .started ∨ s.eng.phase = .processing) → s.cfg.dir = .dec →
    s.cfg.taglen = 0 → TableOk s.eng →
    let t := s.eng.dbuf ++ pl
    BlocksFit s.cfg s.eng.ctr (t.length / s.cfg.bs) →
    (∃ tab, exec (.finish pl) s = .next (answer s ⟨{ s.eng with
        phase := .keyed, bottom := 0, adbuf := [], sum := 0, offset := 0, checksum := 0, ctr := 0, dbuf := [],
        pthold := [], ltab := tab, ciphLog := s.eng.ciphLog ++ finishRequests s.eng t }, .ok,
        s.eng.pthold ++ lastOut s.eng t⟩) ∧
      TableGrown s.eng.lstar s.eng.ctr (t.length / s.cfg.bs) s.eng.ltab tab) ∧
    requestCount (finishRequests s.eng t) = blockCount s.cfg t.length + 1

/-- A block that would make a finite counter wrap, or reach a finite table depth, has no step (93_implementation_defined.md
U5): UPDATE, FINISH in either direction, and START refuse by name; only a decrypting UPDATE is bound by `PT_HOLD_MAX` before
that (44_core_loop.md R134). -/
def Obligations.OverflowingBlockHasNoStep : Prop :=
  (∀ (pl : Bytes) (s : State), (s.eng.phase = .started ∨ s.eng.phase = .processing) →
    (s.cfg.dir = .dec → ∀ m, s.cfg.ptHoldMax = some m →
      s.eng.pthold.length + (s.eng.dbuf ++ pl).length / s.cfg.bs * s.cfg.bs ≤ m) →
    ¬ BlocksFit s.cfg s.eng.ctr ((s.eng.dbuf ++ pl).length / s.cfg.bs) →
    exec (.update pl) s = .refused .counterWrap ∨ exec (.update pl) s = .refused .tableDepth) ∧
  (∀ (pl : Bytes) (s : State), (s.eng.phase = .started ∨ s.eng.phase = .processing) → s.cfg.dir = .enc →
    ¬ BlocksFit s.cfg s.eng.ctr ((s.eng.dbuf ++ pl).length / s.cfg.bs) →
    exec (.finish pl) s = .refused .counterWrap ∨ exec (.finish pl) s = .refused .tableDepth) ∧
  (∀ (pl : Bytes) (s : State), (s.eng.phase = .started ∨ s.eng.phase = .processing) → s.cfg.dir = .dec →
    s.cfg.taglen ≤ (s.eng.dbuf ++ pl).length →
    ¬ BlocksFit s.cfg s.eng.ctr (((s.eng.dbuf ++ pl).length - s.cfg.taglen) / s.cfg.bs) →
    exec (.finish pl) s = .refused .counterWrap ∨ exec (.finish pl) s = .refused .tableDepth) ∧
  (∀ (pl : Bytes) (s : State), s.eng.phase = .keyed → pl.length < s.cfg.bs →
    2 ^ s.cfg.bottomBits - 1 ≤ s.cfg.extBits → s.cfg.extBits + s.cfg.stretchShift ≤ s.cfg.w →
    ¬ AdBlocksFit s.cfg (s.eng.adbuf.length / s.cfg.bs) →
    exec (.start pl) s = .refused .tableDepth)

/-- With parameters that break the condition of 00_scope.md R6 the slices START needs do not exist: it has no step, and that is
all it takes (log 8). -/
def Obligations.StartWithoutSlicesHasNoStep : Prop :=
  ∀ (pl : Bytes) (s : State), s.eng.phase = .keyed → pl.length < s.cfg.bs →
    (exec (.start pl) s = .refused .sliceUndefined ↔
      s.cfg.extBits < 2 ^ s.cfg.bottomBits - 1 ∨ s.cfg.w < s.cfg.extBits + s.cfg.stretchShift)

/-! ### Errors and responses -/

/-- A command outside its legal phases is a sequencing error: every register goes to its reset value, `PHASE` to FAULT, the
response carries nothing (60_exceptions.md R158, R162). -/
def Obligations.WrongPhaseZeroises : Prop :=
  ∀ (i : Instr) (s : State), s.eng.phase ∉ legalPhases i → s.eng.phase ≠ .cfgerr → s.eng.phase ≠ .fault →
    exec i s = .next (answer s ⟨{
      phase := .fault, key := [], lstar := 0, ldollar := 0, ltab := [], ncValid := false, ncTop := 0, ncKtop := 0,
      ncStretch := 0, bottom := 0, adbuf := [], sum := 0, offset := 0, checksum := 0, ctr := 0, dbuf := [],
      pthold := [], ciphLog := s.eng.ciphLog }, .err .seqError, []⟩)

/-- In FAULT every command answers SEQ_ERROR, in CFGERR CONFIG_ERROR, and no register changes (60_exceptions.md R156, R162,
R163). -/
def Obligations.StickyPhasesAnswerAndKeep : Prop :=
  ∀ (i : Instr) (s : State),
    (s.eng.phase = .fault → exec i s = .next (answer s ⟨s.eng, .err .seqError, []⟩)) ∧
    (s.eng.phase = .cfgerr → exec i s = .next (answer s ⟨s.eng, .err .configError, []⟩))

/-- The status and the phase after every command are an entry of the transition table (60_exceptions.md R172); an encrypting
engine never answers AUTH_FAIL (R157). -/
def Obligations.PhasesFollowTheTable : Prop :=
  ∀ (i : Instr) (s t : State), exec i s = .next t →
    ∃ (st : Status) (r : Response), t.rspOut = s.rspOut ++ [r] ∧ r.rw.extractLsb' 56 8 = statusCode st ∧
      phaseAfter s.eng.phase i st = some t.eng.phase ∧ (s.cfg.dir = .enc → st ≠ .err .authFail)

/-- A command changes neither the configuration nor what stands on the command port, and gives exactly one response. The
response word has the status, zero, and the payload's length; an error carries no payload; an OK payload has the length the
encoding says (30_encoding.md R63, 44_core_loop.md R135). -/
def Obligations.ResponsesFollowTheFormat : Prop :=
  ∀ (i : Instr) (s t : State), cfgLegal s.cfg = true → exec i s = .next t →
    t.cfg = s.cfg ∧ t.cmdIn = s.cmdIn ∧
    ∃ (st : Status) (r : Response), t.rspOut = s.rspOut ++ [r] ∧
      r.rw.extractLsb' 56 8 = statusCode st ∧ r.rw.extractLsb' 48 8 = 0x00#8 ∧
      (r.payload.length < 2 ^ 48 → (r.rw.extractLsb' 0 48).toNat = r.payload.length) ∧
      (st = .ok → r.payload.length = okPayloadLength i s.eng) ∧ (st ≠ .ok → r.payload = [])

/-- The cipher requests of every command, by its status, and how many of them decrypt (70_reset_and_hazards.md R195). -/
def Obligations.CipherRequestsAreCounted : Prop :=
  ∀ (i : Instr) (s t : State), s.Inv → exec i s = .next t →
    ∃ (st : Status) (r : Response) (new : List CiphEvent), t.rspOut = s.rspOut ++ [r] ∧
      r.rw.extractLsb' 56 8 = statusCode st ∧ t.eng.ciphLog = s.eng.ciphLog ++ new ∧
      requestCount new = requestsOf i st s.eng ∧ decryptCount new = decryptsOf i st s.eng

/-- A decrypting engine answers bytes only to a FINISH whose tag verifies, and then the held plaintext followed by that of the
payload (44_core_loop.md R136, 45_tag_finish.md R145). -/
def Obligations.PlaintextOnlyAfterTheTag : Prop :=
  ∀ (i : Instr) (s t : State) (r : Response), s.Inv → s.cfg.dir = .dec → exec i s = .next t →
    t.rspOut = s.rspOut ++ [r] → r.payload ≠ [] →
    ∃ pl, i = .finish pl ∧ s.cfg.taglen ≤ (s.eng.dbuf ++ pl).length ∧
      messageTag s.eng (cipherPart s.cfg (s.eng.dbuf ++ pl)) = tagPart s.cfg (s.eng.dbuf ++ pl) ∧
      r.payload = s.eng.pthold ++ lastOut s.eng (cipherPart s.cfg (s.eng.dbuf ++ pl))

/-! ### The engine as a whole -/

/-- Mask table, nonce cache and port record are invisible: two states of the machine that agree in everything else answer every
host event alike and agree in everything else afterwards (10_state.md R39, 42_nonce_cache.md R110, 70_reset_and_hazards.md
R187). -/
def Obligations.HiddenStateIsInvisible : Prop :=
  ∀ s t : State, s.Inv → t.Inv → s.visible = t.visible → SameToHost (step s) (step t)

/-- The nonce cache changes no response: a run in which every START misses it cannot be told from the run itself
(70_reset_and_hazards.md R187). -/
def Obligations.AlwaysMissingChangesNothing : Prop :=
  ∀ (k : Nat) (s : State), s.Inv → SameToHost (runMissing k s) (Host.Core.run Sys2Proof.core k s)

/-- Chunk boundaries of UPDATE are invisible: two UPDATEs leave the registers one UPDATE with the joined payload leaves, and
their responses join to its response; only a decrypting engine needs room in `PTHOLD` (44_core_loop.md R133, R134,
70_reset_and_hazards.md R185). -/
def Obligations.UpdateChunksJoin : Prop :=
  ∀ (a b : Bytes) (s : State), (s.eng.phase = .started ∨ s.eng.phase = .processing) → cfgLegal s.cfg = true →
    BlocksFit s.cfg s.eng.ctr ((s.eng.dbuf ++ a ++ b).length / s.cfg.bs) →
    (s.cfg.dir = .dec → ∀ m, s.cfg.ptHoldMax = some m →
      s.eng.pthold.length + (s.eng.dbuf ++ a ++ b).length / s.cfg.bs * s.cfg.bs ≤ m) →
    ∃ (e1 e2 : Engine s.cfg) (o1 o2 : Bytes),
      exec (.update a) s = .next (answer s ⟨e1, .ok, o1⟩) ∧
      exec (.update b) (answer s ⟨e1, .ok, o1⟩) = .next (answer (answer s ⟨e1, .ok, o1⟩) ⟨e2, .ok, o2⟩) ∧
      exec (.update (a ++ b)) s = .next (answer s ⟨e2, .ok, o1 ++ o2⟩)

/-- An UPDATE before FINISH is invisible too, as long as a decrypting engine has the tag bytes left for FINISH: same registers,
same status, joined responses (44_core_loop.md R133, 70_reset_and_hazards.md R186). That the mask tables agree after an
AUTH_FAIL too rests on the model's inference that it keeps the entries FINISH's own blocks added (log 10, DEDUCED). -/
def Obligations.UpdateBeforeFinishJoins : Prop :=
  ∀ (a b : Bytes) (s : State), (s.eng.phase = .started ∨ s.eng.phase = .processing) → cfgLegal s.cfg = true →
    BlocksFit s.cfg s.eng.ctr ((s.eng.dbuf ++ a ++ b).length / s.cfg.bs) →
    (s.cfg.dir = .dec → ∀ m, s.cfg.ptHoldMax = some m →
      s.eng.pthold.length + (s.eng.dbuf ++ a).length / s.cfg.bs * s.cfg.bs ≤ m) →
    (s.cfg.dir = .dec →
      (s.eng.dbuf ++ a).length / s.cfg.bs * s.cfg.bs + s.cfg.taglen ≤ (s.eng.dbuf ++ a ++ b).length) →
    ∃ (e1 e2 : Engine s.cfg) (o1 o2 : Bytes) (st : Status),
      exec (.update a) s = .next (answer s ⟨e1, .ok, o1⟩) ∧
      exec (.finish b) (answer s ⟨e1, .ok, o1⟩) = .next (answer (answer s ⟨e1, .ok, o1⟩) ⟨e2, st, o2⟩) ∧
      exec (.finish (a ++ b)) s = .next (answer s ⟨e2, st, o1 ++ o2⟩)

/-- Round trip: what an encrypting engine seals, a decrypting engine with the same parameters, cipher, key, nonce and AD opens
to the plaintext, and the sealed message is the plaintext's length plus `TAGLEN` long (30_encoding.md R70, 44_core_loop.md
R135, 45_tag_finish.md R144). -/
def Obligations.SealedMessageOpens : Prop :=
  ∀ (c : Cfg) (k n a p : Bytes), cfgLegal c = true → k.length ∈ c.keylens → n.length < c.bs →
    2 ^ c.bottomBits - 1 ≤ c.extBits → c.extBits + c.stretchShift ≤ c.w →
    (∀ m, c.adMax = some m → a.length ≤ m) → AdBlocksFit c (a.length / c.bs) → BlocksFit c 0 (p.length / c.bs) →
    ∃ (sealed opened : State) (ct : Bytes),
      runCommands (pseudoSeal k n a p) (freshState { c with dir := .enc }) = .next sealed ∧
      Answered sealed .ok ct ∧ ct.length = p.length + c.taglen ∧
      runCommands (pseudoOpen k n a ct) (freshState { c with dir := .dec }) = .next opened ∧
      Answered opened .ok p

/-- Determinism across the cache: the same message sent twice under one key is answered with the same bytes both times,
though the second START hits the cache (70_reset_and_hazards.md R189). -/
def Obligations.SameMessageTwiceSameAnswer : Prop :=
  ∀ (n a x : Bytes) (s t u : State), s.Inv → s.eng.phase = .keyed →
    (∀ m, s.cfg.adMax = some m → a.length ≤ m) →
    runCommands (pseudoMsg n a x) s = .next t → t.eng.phase = .keyed →
    runCommands (pseudoMsg n a x) t = .next u →
    ∃ (st : Status) (pl : Bytes), Answered t st pl ∧ Answered u st pl

/-- A SET_AD with an empty payload may be left out of a message when no AD is stored (30_encoding.md R70). -/
def Obligations.EmptySetAdMayBeOmitted : Prop :=
  ∀ (n x : Bytes) (s t : State), s.eng.phase = .keyed → s.eng.adbuf = [] →
    runCommands (pseudoMsg n [] x) s = .next t →
    ∃ (u : State) (st : Status) (pl : Bytes), runCommands [.start n, .finish x] s = .next u ∧
      Answered t st pl ∧ Answered u st pl

/-- After the longer of AD pass and data pass has run `m ≥ 1` full blocks, the table has at least `floor(log2 m) + 1` entries
(41_mask_schedule.md R97, 43_ad_hash.md R120): it is so while a message is in progress, from reset on and after every step
(START runs the AD pass, the data may come in any number of UPDATEs), and it is so of the whole message when FINISH has run
its last blocks. -/
def Obligations.TableDepthAfterBlocks : Prop :=
  (∀ c : Cfg, (freshState c).eng.DepthOk) ∧
  (∀ s t : State, s.Inv → s.eng.DepthOk → step s = .next t → t.eng.DepthOk) ∧
  (∀ (pl : Bytes) (s t : State), s.Inv → s.eng.DepthOk → (s.eng.phase = .started ∨ s.eng.phase = .processing) →
    exec (.finish pl) s = .next t →
    let m := max (s.eng.adbuf.length / s.cfg.bs) (s.eng.ctr + (workData (.finish pl) s.eng).length / s.cfg.bs)
    1 ≤ m → Nat.log2 m + 1 ≤ t.eng.lcnt)
end

