-- ==== Sys2Proof/Laws/PerInstr.lean ====
section
/-! SUPPORT. Statements made for every instruction, one lemma per constructor of `Instr`. -/

namespace Sys2Proof.Laws

/-- The three fields of a word put together from an opcode and a length (30_encoding.md R60). -/
theorem fields_of_word (o : BitVec 8) (l : BitVec 48) :
    opcField (o ++ 0x00#8 ++ l) = o ∧ rsvField (o ++ 0x00#8 ++ l) = 0x00#8 ∧ lenField (o ++ 0x00#8 ++ l) = l := by
  refine ⟨?_, ?_, ?_⟩ <;> apply BitVec.eq_of_getLsbD_eq <;> intro i hi
  · rw [opcField, BitVec.getLsbD_extractLsb', BitVec.getLsbD_append, if_neg (by omega), BitVec.getLsbD_append,
      if_neg (by omega)]
    simp [hi, show 56 + i - 48 - 8 = i by omega]
  · rw [rsvField, BitVec.getLsbD_extractLsb', BitVec.getLsbD_append, if_neg (by omega), BitVec.getLsbD_append,
      if_pos (by omega)]
    simp
  · rw [lenField, BitVec.getLsbD_extractLsb', BitVec.getLsbD_append, if_pos (by omega)]
    simp [hi]

/-- The word an instruction is encoded with has its opcode, a zero reserved field and the payload's length, and the payload
follows it (30_encoding.md R60, R61, R65). -/
def EncodesFields.Statement (i : Instr) : Prop :=
  i.wellFormed = true →
    opcField (encode i).cw = opcodeOf i ∧ rsvField (encode i).cw = 0x00#8 ∧
    (lenField (encode i).cw).toNat = i.payload.length ∧ (encode i).payload = i.payload

theorem EncodesFields.of_any (i : Instr) : EncodesFields.Statement i := by
  intro h
  obtain ⟨h1, h2, h3⟩ := fields_of_word (opcodeOf i) (BitVec.ofNat 48 i.payload.length)
  refine ⟨h1, h2, ?_, rfl⟩
  rw [encode, h3, BitVec.toNat_ofNat]
  exact Nat.mod_eq_of_lt (by simpa [Instr.wellFormed] using h)

theorem EncodesFields.setKey (pl : Bytes) : EncodesFields.Statement (.setKey pl) := EncodesFields.of_any _
theorem EncodesFields.setAd (pl : Bytes) : EncodesFields.Statement (.setAd pl) := EncodesFields.of_any _
theorem EncodesFields.start (pl : Bytes) : EncodesFields.Statement (.start pl) := EncodesFields.of_any _
theorem EncodesFields.update (pl : Bytes) : EncodesFields.Statement (.update pl) := EncodesFields.of_any _
theorem EncodesFields.finish (pl : Bytes) : EncodesFields.Statement (.finish pl) := EncodesFields.of_any _

end Sys2Proof.Laws
end

