-- ==== Sys2Proof/Tests/Slice0.lean ====
section
/-! SUPPORT. Tests of the model: ill-formed terms, words written out from the encoding tables, one step each with the values of
the spec's worked examples (the toy cipher of 95_test_vectors.md section 2), and for every obligation with hypotheses a
concrete state and operands that meet them. -/

namespace Sys2Proof.Tests

open Sys2Proof Sys2Proof.Machine

/-! ### Helpers -/

/-- Bytes of a number, most significant first. -/
def hx (n x : Nat) : Bytes := bytesOf n (BitVec.ofNat (8 * n) x)

/-- An engine of 95_test_vectors.md: TOY-128. -/
def toy (dir : Dir) (taglen : Nat) : Cfg :=
  { bs := 16, taglen := taglen, dir := dir, keylens := [16], cipher := .toy }

/-- `K1` of 95_test_vectors.md section 2. -/
def k1 : Bytes := hx 16 0x000102030405060708090A0B0C0D0E0F

/-- `N1` of 95_test_vectors.md section 2. -/
def n1 : Bytes := hx 12 0x000102030405060708090A0B

/-- An engine in KEYED under `K1`. -/
def keyed (c : Cfg) : State :=
  { freshState c with
    eng := { Engine.reset c with
      phase := .keyed, key := k1, lstar := cipherE c k1 0, ldollar := double (cipherE c k1 0) } }

/-- The same with a stored AD. -/
def keyedAd (c : Cfg) (a : Bytes) : State := { keyed c with eng := { (keyed c).eng with adbuf := a } }

/-- An engine in STARTED under `K1` and `N1`. -/
def begun (c : Cfg) : State := { keyed c with eng := beginMessage n1 (keyed c).eng }

/-- The registers a step leaves, read by `f`; `d` when there is no next state. -/
def look {α : Type} (d : α) (f : State → α) : Host.Outcome State Fault Refusal → α
  | .next t => f t
  | _ => d

/-- The refusal of a step, if it is one. -/
def refusal : Host.Outcome State Fault Refusal → Option Refusal
  | .refused r => some r
  | _ => none

/-- The last response of a step: its word and its payload. -/
def said (o : Host.Outcome State Fault Refusal) : Option (Nat × Bytes) :=
  look none (fun t => (lastResponse t).map fun r => (r.rw.toNat, r.payload)) o

/-- The state with one command on its port. -/
def withCommand (s : State) (cmd : Command) : State := { s with cmdIn := [.command cmd] }

/-! ### Ill-formed terms -/

theorem update_too_long {n : Nat} (h : 2 ^ 48 ≤ n) : (Instr.update (List.replicate n 0#8)).wellFormed = false := by
  simp only [Instr.wellFormed, Instr.payload, List.length_replicate, decide_eq_false_iff_not]
  omega

theorem test_wellFormed_refuses_long_payload : ∃ pl : Bytes, (Instr.update pl).wellFormed = false :=
  ⟨_, update_too_long (Nat.le_refl _)⟩

theorem test_wellFormed_accepts : (Instr.setKey k1).wellFormed = true := by decide

theorem test_framed_refuses_short : (Command.mk 0x0400000000000002#64 [0xAA#8]).framed = false := by decide

theorem test_framed_refuses_long : (Command.mk 0x0400000000000000#64 [0xAA#8]).framed = false := by decide

/-! ### Words written out from 30_encoding.md R60 and R65 -/

theorem test_decode_setKey : decodeTableWord 64 0x0100000000000000 = some (.setKey []) := by decide
theorem test_decode_setAd : decodeTableWord 88 0xA2A1A00200000000000003 =
    some (.setAd [0xA0#8, 0xA1#8, 0xA2#8]) := by decide
theorem test_decode_start : decodeTableWord 72 0x0B0300000000000001 = some (.start [0x0B#8]) := by decide
theorem test_decode_update : decodeTableWord 64 0x0400000000000002 = some (.update [0#8, 0#8]) := by decide
theorem test_decode_finish : decodeTableWord 64 0x0500000000000000 = some (.finish []) := by decide
theorem test_decode_refuses_opcode_0 : decodeTableWord 64 0x0000000000000000 = none := by decide
theorem test_decode_refuses_opcode_6 : decodeTableWord 64 0x0600000000000000 = none := by decide
theorem test_decode_refuses_reserved : decodeTableWord 64 0x0101000000000000 = none := by decide

/-- 30_encoding.md R69: the bytes of `START 000102030405060708090A0B`, then the next transaction. -/
theorem test_stream_start :
    decodeStream (hx 8 0x030000000000000C ++ n1 ++ [0x05#8]) = .command (.start n1) [0x05#8] := by decide

theorem test_encode_start : (encode (.start n1)).cw = 0x030000000000000C#64 := by decide

theorem test_text_start : commandText (.start n1) = "START 000102030405060708090A0B" := by decide

/-- 30_encoding.md R69. -/
theorem test_text_engine : engineText "E" "TOY-128" (toy .dec 12).toStraps =
    "ENGINE E BS=16 TAGLEN=12 DIR=DEC CIPHER=TOY-128" := by decide +kernel

theorem test_straps : strapsOfBits 16#7 12#7 1#1 [16] .toy = (toy .dec 12).toStraps := by decide

/-! ### Steps -/

theorem test_fetch_runs_setKey :
    look .fault (fun t => t.eng.phase) (step ((freshState (toy .enc 16)).withFetchWord 192
      (0x0F0E0D0C0B0A09080706050403020100 * 2 ^ 64 + 0x0100000000000010))) = .keyed := by decide

/-- 41_mask_schedule.md R96. -/
theorem test_setKey_lstar :
    look 0 (fun t => intOf (blockBytes t.eng.lstar)) (exec (.setKey k1) (freshState (toy .enc 16))) =
      0x08182838485868788898A8B8C8D8E8F8 := by decide

/-- 60_exceptions.md R173: fifteen key bytes. -/
theorem test_setKey_bad_length :
    said (exec (.setKey (k1.take 15)) (freshState (toy .enc 16))) = some (0x0100000000000000, []) := by decide

/-- 43_ad_hash.md R118: a second SET_AD replaces the first. -/
theorem test_setAd_replaces :
    look [] (fun t => t.eng.adbuf) (exec (.setAd [0xA0#8, 0xA1#8]) (keyedAd (toy .enc 16) [0xFF#8])) =
      [0xA0#8, 0xA1#8] := by decide

/-- 42_nonce_cache.md R111. -/
theorem test_start_offset :
    look 0 (fun t => intOf (blockBytes t.eng.offset)) (exec (.start n1) (keyed (toy .enc 16))) =
      0xC141C24282C3054585C6044484C7C081 := by decide

/-- 95_test_vectors.md 5.6: the DOC word of a truncated tag. -/
theorem test_doc_word :
    (formatNonce (toy .enc 12) n1).toNat = 0x80000000000102030405060708090A0B := by decide

/-- 95_test_vectors.md 11.2: the STD word of a truncated tag. -/
theorem test_std_word :
    (formatNonce { toy .enc 12 with nonceFmt := .std } n1).toNat = 0xC0000001000102030405060708090A0B := by decide

/-- 43_ad_hash.md R116: the digest of the one byte `A0`. -/
theorem test_start_digest :
    look 0 (fun t => intOf (blockBytes t.eng.sum)) (exec (.start n1) (keyedAd (toy .enc 16) [0xA0#8])) =
      0x4CD969FA8B1BAC3C4CDD6DFE8F1FA83D := by decide +kernel

/-- 44_core_loop.md R134, the second UPDATE of its example with the first one's five bytes before it. -/
theorem test_update_encrypts :
    said (exec (.update (hx 25 0x101112131415161718191A1B1C1D1E1F202122232425262728)) (begun (toy .enc 16))) =
      some (0x0000000000000010, hx 16 0x70BACF1E66677959A252A8B981B0776E) := by decide

/-- 44_core_loop.md R128, R136: the block is recovered into `PTHOLD`. -/
theorem test_update_decrypts :
    look [] (fun t => t.eng.pthold) (exec (.update (hx 16 0x70BACF1E66677959A252A8B981B0776E)) (begun (toy .dec 16))) =
      hx 16 0x101112131415161718191A1B1C1D1E1F := by decide

/-- 45_tag_finish.md R143: one byte of plaintext. -/
theorem test_finish_seals :
    said (exec (.finish [0x10#8]) (begun (toy .enc 16))) =
      some (0x0000000000000011, hx 17 0x425755D86B19A61698EB801496F58834B6) := by decide

/-- 45_tag_finish.md R145: the same message with the last bit of its tag flipped. -/
theorem test_finish_rejects :
    said (exec (.finish (hx 17 0x425755D86B19A61698EB801496F58834B7)) (begun (toy .dec 16))) =
      some (0x0200000000000000, []) := by decide +kernel

/-- 42_nonce_cache.md R106, then 43_ad_hash.md R116 with the `L[0]` of 41_mask_schedule.md R92: the requests of a START in order,
with their answers; the AD is `A0 … AF`. -/
theorem test_start_requests :
    look [] (fun t => t.eng.ciphLog) (exec (.start n1) (keyedAd (toy .enc 16) (hx 16 0xA0A1A2A3A4A5A6A7A8A9AAABACADAEAF))) =
      [.request .encrypt (hx 16 0x00000000000102030405060708090A00) (hx 16 0x0818283848505860A8B0B8C0889098F8),
        .request .encrypt (hx 16 0x80C1024285C407458ACB08488FCE0D4F) (hx 16 0x0E101A2C363842545E606A7C86889284)] := by
  decide +kernel

/-- 45_tag_finish.md R140: the last request of the FINISH of its worked example, and its answer. -/
theorem test_finish_tag_request :
    look none (fun t => t.eng.ciphLog.getLast?) (exec
        (.finish (hx 37 0x101112131415161718191A1B1C1D1E1F202122232425262728292A2B2C2D2E2F3031323334))
        (begun (toy .enc 16))) =
      some (.request .encrypt (hx 16 0xB9C9592A3D396FDA4AF82A98883A2D99) (hx 16 0xD652F169F213872A5FD95CFC8A299535)) := by
  decide +kernel

/-- 60_exceptions.md R173: UPDATE in KEYED. -/
theorem test_sequence_error :
    look (.uninit, []) (fun t => (t.eng.phase, t.eng.key)) (exec (.update [0x10#8]) (keyed (toy .enc 16))) =
      (.fault, []) := by decide

/-- 70_reset_and_hazards.md R182: `BS = 8` and `TAGLEN = 17` at reset. -/
theorem test_illegal_straps :
    ((Engine.reset { toy .enc 0 with bs := 8 }).phase, (Engine.reset (toy .enc 17)).phase) = (.cfgerr, .cfgerr) := by
  decide

/-! ### Hypotheses met: one witness for every obligation that has any -/

/-- A key schedule as SET_KEY leaves it. -/
theorem keyed_classOk {c : Cfg} (h : cipherAccepts c k1 = true) : KeyClassOk (keyed c).eng :=
  ⟨h, rfl, ⟨rfl, fun _ hi => absurd hi (Nat.not_lt_zero _)⟩, fun hv => absurd hv Bool.false_ne_true,
    fun _ _ => Nat.zero_le _⟩

/-- An engine in KEYED is one of the states the invariant describes. -/
theorem keyed_inv {c : Cfg} (h : cipherAccepts c k1 = true) (hl : cfgLegal c = true) (ha : overCap c.adMax 0 = false) :
    (keyed c).Inv :=
  ⟨hl, keyed_classOk h, ⟨rfl, rfl, rfl, rfl, rfl, rfl, rfl⟩, ha⟩

/-- The mask table of a message without full blocks of AD. -/
theorem begun_tableOk {c : Cfg} (h : cipherAccepts c k1 = true) : TableOk (begun c).eng := by
  obtain ⟨tab, h1, h2⟩ := beginMessage_spec n1 (keyed_classOk h)
  exact (show (begun c).eng = _ from h1) ▸ ⟨rfl, h2.2.1⟩

/-- With unbounded parameters every block has a step. -/
theorem blocksFit_unbounded {c : Cfg} (h1 : c.ctrBits = none) (h2 : c.lDepth = none) (k n : Nat) : BlocksFit c k n :=
  ⟨fun _ h => absurd (h1.symm.trans h) (by simp), fun _ h => absurd (h2.symm.trans h) (by simp)⟩

theorem adBlocksFit_unbounded {c : Cfg} (h : c.lDepth = none) (m : Nat) : AdBlocksFit c m :=
  fun _ hd => absurd (h.symm.trans hd) (by simp)

theorem witness_EncodedBytesDecodeBack : (Instr.setKey k1).wellFormed = true ∧ (Instr.finish []).wellFormed = true := by
  decide

theorem witness_DecodedCommandEncodesBack :
    (Command.mk 0x0500000000000001#64 [0x10#8]).framed = true ∧
      decodeCommand ⟨0x0500000000000001#64, [0x10#8]⟩ = .ok (.finish [0x10#8]) := by decide

theorem witness_StepRunsDecodedCommand :
    (withCommand (keyed (toy .enc 16)) ⟨0x0200000000000001#64, [0xA0#8]⟩).cmdIn =
      [.command ⟨0x0200000000000001#64, [0xA0#8]⟩] ∧
      (Command.mk 0x0200000000000001#64 [0xA0#8]).framed = true ∧
      decodeCommand ⟨0x0200000000000001#64, [0xA0#8]⟩ = .ok (.setAd [0xA0#8]) := by decide

theorem witness_IllegalWordChangesNothing :
    ((withCommand State.reset ⟨0x0000000000000000#64, []⟩).cmdIn = [.command ⟨0x0000000000000000#64, []⟩] ∧
      (Command.mk 0x0000000000000000#64 []).framed = true ∧ opcField 0x0000000000000000#64 = 0x00#8) ∧
    ((Command.mk 0x0600000000000000#64 []).framed = true ∧ 6 ≤ (opcField 0x0600000000000000#64).toNat) ∧
    ((Command.mk 0x05FF000000000001#64 [0x00#8]).framed = true ∧ rsvField 0x05FF000000000001#64 ≠ 0x00#8) := by decide

theorem witness_WaitingAndBadFraming :
    State.reset.cmdIn = [] ∧
    (withCommand State.reset ⟨0x0200000000000001#64, []⟩).cmdIn = [.command ⟨0x0200000000000001#64, []⟩] ∧
    ([] : Bytes).length ≠ (lenField 0x0200000000000001#64).toNat := by decide

/-- Straps of a legal configuration, and of an illegal one. -/
theorem witness_ResetGivesEveryRegisterItsValue :
    ({ keyed (toy .enc 16) with cmdIn := [.reset (toy .dec 16).toStraps] } : State).cmdIn =
      [.reset (toy .dec 16).toStraps] ∧
    look .fault (fun t => t.eng.phase) (step { keyed (toy .enc 16) with cmdIn := [.reset (toy .dec 16).toStraps] }) =
      .uninit ∧
    ({ keyed (toy .enc 16) with cmdIn := [.reset (toy .dec 17).toStraps] } : State).cmdIn =
      [.reset (toy .dec 17).toStraps] ∧
    look .fault (fun t => t.eng.phase) (step { keyed (toy .enc 16) with cmdIn := [.reset (toy .dec 17).toStraps] }) =
      .cfgerr := by decide

/-- A legal configuration and an illegal one. -/
theorem witness_ResetHoldsInvariant :
    (freshState (toy .dec 12)).eng.phase = .uninit ∧ (freshState (toy .enc 17)).eng.phase = .cfgerr := by decide

theorem witness_StepKeepsInvariant :
    (withCommand (keyed (toy .enc 16)) ⟨0x0200000000000001#64, [0xA0#8]⟩).Inv ∧
      ∃ t, step (withCommand (keyed (toy .enc 16)) ⟨0x0200000000000001#64, [0xA0#8]⟩) = .next t :=
  ⟨keyed_inv (by decide) (by decide) (by decide), _, rfl⟩

theorem witness_BytesAndBitStringsInverse : (0 < 1 ∧ bytesOf 1 0xAA#8 = [0xAA#8]) ∧ 15 < 16 := by decide

theorem witness_DoubleShiftsAndReduces : 0 < 128 ∧ 127 < 128 := by decide

theorem witness_DoubleLaws : (128 = 128 ∨ 128 = 192 ∨ 128 = 256 ∨ 128 = 512) ∧
    (512 = 128 ∨ 512 = 192 ∨ 512 = 256 ∨ 512 = 512) := by decide

theorem witness_DoubleLosesNothing : (128 = 128 ∨ 128 = 192 ∨ 128 = 256 ∨ 128 = 512) ∧
    (0x80000000000000000000000000000000#128 : Block 128) ≠ 0 := by decide

theorem witness_NtzIsLargestPower : 1 ≤ 1 ∧ 1 ≤ 96 ∧ 2 ^ 5 ∣ 96 := by decide

theorem witness_TableReadIgnoresFillLevel :
    TableOk (keyed (toy .enc 16)).eng ∧ TableOk (lget 3 (keyed (toy .enc 16)).eng).2 ∧
      (keyed (toy .enc 16)).eng.lstar = (lget 3 (keyed (toy .enc 16)).eng).2.lstar :=
  ⟨(keyed_classOk (by decide)).2.2.1, (lget_spec (keyed_classOk (by decide)).2.2.1 3).2.1, rfl⟩

theorem witness_GrayWalkClosedForm : TableOk (begun (toy .enc 16)).eng ∧ (begun (toy .enc 16)).eng.ctr = 0 :=
  ⟨begun_tableOk (by decide), rfl⟩

theorem witness_DocNonceWordLayout :
    (toy .enc 12).nonceFmt = .doc ∧ (List.replicate 15 0xFF#8).length < (toy .enc 12).bs ∧
      (8 * 15 ≤ 120 ∧ 120 < (toy .enc 12).w - 1) ∧ 119 < 8 * 15 := by decide

theorem witness_StdNonceWordLayout :
    ({ toy .enc 16 with nonceFmt := .std } : Cfg).nonceFmt = .std ∧
      ({ toy .enc 16 with nonceFmt := .std } : Cfg).bs = 16 ∧ n1.length < 16 ∧
      (121 ≤ 127 ∧ 127 < 128) ∧ (8 * n1.length < 120 ∧ 120 < 121) ∧ 95 < 8 * n1.length := by decide

theorem witness_NonceWordKeepsContract :
    (n1.length < (toy .enc 16).bs ∧ 95 < 8 * n1.length) ∧ (toy .enc 16).bs = (toy .dec 16).bs ∧
      (toy .enc 16).taglen = (toy .dec 16).taglen ∧ (toy .enc 16).nonceFmt = (toy .dec 16).nonceFmt := by decide

theorem witness_DocNonceIgnoresLeadingZero : (toy .enc 16).nonceFmt = .doc := rfl

theorem witness_TopAndBottomSplitTheWord : 5 < (toy .enc 16).bottomBits ∧ (toy .enc 16).bottomBits ≤ 6 := by decide

theorem witness_StretchAndInitialOffset :
    2 ^ (toy .enc 16).bottomBits - 1 ≤ (toy .enc 16).extBits ∧
      (toy .enc 16).extBits + (toy .enc 16).stretchShift ≤ (toy .enc 16).w ∧ 127 < (toy .enc 16).w ∧
      63 < (toy .enc 16).extBits ∧ (0 : BitVec (toy .enc 16).bottomBits) = 0 := by decide

theorem witness_SetKeyInstallsKey :
    ((freshState (toy .enc 16)).eng.phase = .uninit ∨ (freshState (toy .enc 16)).eng.phase = .keyed) ∧
      k1.length ∈ (freshState (toy .enc 16)).cfg.keylens := by decide

theorem witness_SetKeyBadLengthKeepsState :
    ((keyed (toy .enc 16)).eng.phase = .uninit ∨ (keyed (toy .enc 16)).eng.phase = .keyed) ∧
      (k1.take 15).length ∉ (keyed (toy .enc 16)).cfg.keylens := by decide

theorem witness_SetAdStoresTheData :
    (keyed { toy .enc 16 with adMax := some 12 }).eng.phase = .keyed ∧
      (∀ m, (keyed { toy .enc 16 with adMax := some 12 }).cfg.adMax = some m → n1.length ≤ m) ∧
      (keyed { toy .enc 16 with adMax := some 12 }).cfg.adMax = some 12 ∧ 12 < (k1.take 13).length := by
  refine ⟨rfl, ?_, rfl, by decide⟩
  rintro m ⟨⟩
  decide

theorem witness_StartBeginsMessage :
    (keyedAd (toy .enc 16) k1).eng.phase = .keyed ∧ (k1.take 15).length < (keyedAd (toy .enc 16) k1).cfg.bs ∧
      KeyClassOk (keyedAd (toy .enc 16) k1).eng ∧
      2 ^ (toy .enc 16).bottomBits - 1 ≤ (toy .enc 16).extBits ∧
      (toy .enc 16).extBits + (toy .enc 16).stretchShift ≤ (toy .enc 16).w ∧
      AdBlocksFit (toy .enc 16) ((keyedAd (toy .enc 16) k1).eng.adbuf.length / (toy .enc 16).bs) :=
  ⟨rfl, by decide, keyed_classOk (c := toy .enc 16) (by decide), by decide, by decide, adBlocksFit_unbounded rfl _⟩

theorem witness_StartLongNonceKeepsState :
    (keyed (toy .enc 16)).eng.phase = .keyed ∧ (keyed (toy .enc 16)).cfg.bs ≤ k1.length := by decide

theorem witness_UpdateEncryptsFullBlocks :
    ((begun (toy .enc 16)).eng.phase = .started ∨ (begun (toy .enc 16)).eng.phase = .processing) ∧
      (begun (toy .enc 16)).cfg.dir = .enc ∧ TableOk (begun (toy .enc 16)).eng ∧
      BlocksFit (begun (toy .enc 16)).cfg (begun (toy .enc 16)).eng.ctr
        (((begun (toy .enc 16)).eng.dbuf ++ (k1 ++ n1)).length / (begun (toy .enc 16)).cfg.bs) :=
  ⟨.inl rfl, rfl, begun_tableOk (by decide), blocksFit_unbounded rfl rfl _ _⟩

/-- A decrypting engine whose hold buffer takes one block. -/
def holdOne : Cfg := { toy .dec 16 with ptHoldMax := some 16 }

/-- An encrypting engine without a hold buffer. -/
def holdNone : Cfg := { toy .enc 16 with ptHoldMax := some 0 }

theorem witness_UpdateHoldsPlaintext :
    ((begun holdOne).eng.phase = .started ∨ (begun holdOne).eng.phase = .processing) ∧
      (begun holdOne).cfg.dir = .dec ∧ TableOk (begun holdOne).eng ∧
      BlocksFit (begun holdOne).cfg (begun holdOne).eng.ctr
        (((begun holdOne).eng.dbuf ++ (k1 ++ n1)).length / (begun holdOne).cfg.bs) ∧
      ∀ m, (begun holdOne).cfg.ptHoldMax = some m → (begun holdOne).eng.pthold.length +
        ((begun holdOne).eng.dbuf ++ (k1 ++ n1)).length / (begun holdOne).cfg.bs * (begun holdOne).cfg.bs ≤ m := by
  refine ⟨.inl rfl, rfl, begun_tableOk (by decide), blocksFit_unbounded rfl rfl _ _, ?_⟩
  rintro m ⟨⟩
  decide

theorem witness_UpdateOverfullHoldKeepsState :
    ((begun holdOne).eng.phase = .started ∨ (begun holdOne).eng.phase = .processing) ∧
      (begun holdOne).cfg.dir = .dec ∧ (begun holdOne).cfg.ptHoldMax = some 16 ∧
      16 < (begun holdOne).eng.pthold.length +
        ((begun holdOne).eng.dbuf.length + (k1 ++ k1).length) / (begun holdOne).cfg.bs * (begun holdOne).cfg.bs :=
  ⟨.inl rfl, rfl, rfl, by decide⟩

theorem witness_FinishSealsMessage :
    ((begun (toy .enc 12)).eng.phase = .started ∨ (begun (toy .enc 12)).eng.phase = .processing) ∧
      (begun (toy .enc 12)).cfg.dir = .enc ∧ TableOk (begun (toy .enc 12)).eng ∧
      BlocksFit (begun (toy .enc 12)).cfg (begun (toy .enc 12)).eng.ctr
        (((begun (toy .enc 12)).eng.dbuf ++ (k1 ++ n1)).length / (begun (toy .enc 12)).cfg.bs) :=
  ⟨.inl rfl, rfl, begun_tableOk (by decide), blocksFit_unbounded rfl rfl _ _⟩

/-- What `test_finish_seals` answers. -/
def sealed17 : Bytes := hx 17 0x425755D86B19A61698EB801496F58834B6

theorem witness_FinishOpensVerifiedMessage :
    ((begun (toy .dec 16)).eng.phase = .started ∨ (begun (toy .dec 16)).eng.phase = .processing) ∧
      (begun (toy .dec 16)).cfg.dir = .dec ∧ TableOk (begun (toy .dec 16)).eng ∧
      (begun (toy .dec 16)).cfg.taglen ≤ ((begun (toy .dec 16)).eng.dbuf ++ sealed17).length ∧
      BlocksFit (begun (toy .dec 16)).cfg (begun (toy .dec 16)).eng.ctr
        ((cipherPart (toy .dec 16) sealed17).length / (toy .dec 16).bs) ∧
      messageTag (begun (toy .dec 16)).eng (cipherPart (toy .dec 16) sealed17) = tagPart (toy .dec 16) sealed17 :=
  ⟨.inl rfl, rfl, begun_tableOk (by decide), by decide, blocksFit_unbounded rfl rfl _ _, by decide +kernel⟩

theorem witness_TagMismatchReleasesNothing :
    ((begun (toy .dec 16)).eng.phase = .started ∨ (begun (toy .dec 16)).eng.phase = .processing) ∧
      (begun (toy .dec 16)).cfg.dir = .dec ∧ TableOk (begun (toy .dec 16)).eng ∧
      (begun (toy .dec 16)).cfg.taglen ≤ ((begun (toy .dec 16)).eng.dbuf ++ k1).length ∧
      BlocksFit (begun (toy .dec 16)).cfg (begun (toy .dec 16)).eng.ctr
        ((cipherPart (toy .dec 16) k1).length / (toy .dec 16).bs) ∧
      messageTag (begun (toy .dec 16)).eng (cipherPart (toy .dec 16) k1) ≠ tagPart (toy .dec 16) k1 :=
  ⟨.inl rfl, rfl, begun_tableOk (by decide), by decide, blocksFit_unbounded rfl rfl _ _, by decide +kernel⟩

theorem witness_ShortInputFailsAuthentication :
    ((begun (toy .dec 16)).eng.phase = .started ∨ (begun (toy .dec 16)).eng.phase = .processing) ∧
      (begun (toy .dec 16)).cfg.dir = .dec ∧
      (begun (toy .dec 16)).eng.dbuf.length + (k1.take 15).length < (begun (toy .dec 16)).cfg.taglen :=
  ⟨.inl rfl, rfl, by decide⟩

theorem witness_ZeroTagLengthAcceptsEverything :
    ((begun (toy .dec 0)).eng.phase = .started ∨ (begun (toy .dec 0)).eng.phase = .processing) ∧
      (begun (toy .dec 0)).cfg.dir = .dec ∧ (begun (toy .dec 0)).cfg.taglen = 0 ∧ TableOk (begun (toy .dec 0)).eng ∧
      BlocksFit (begun (toy .dec 0)).cfg (begun (toy .dec 0)).eng.ctr
        (((begun (toy .dec 0)).eng.dbuf ++ k1).length / (begun (toy .dec 0)).cfg.bs) :=
  ⟨.inl rfl, rfl, rfl, begun_tableOk (by decide), blocksFit_unbounded rfl rfl _ _⟩

/-- A counter of no bits, so that the first block has no step, and no room for a block in `PTHOLD`. -/
def tiny (dir : Dir) : Cfg := { toy dir 16 with ctrBits := some 0, ptHoldMax := some 8 }

/-- The same with room for just one block. -/
def tinyDec : Cfg := { tiny .dec with ptHoldMax := some 16 }

/-- A mask table of no entries. -/
def noTable : Cfg := { toy .enc 16 with lDepth := some 0 }

theorem witness_OverflowingBlockHasNoStep :
    (((begun (tiny .enc)).eng.phase = .started ∨ (begun (tiny .enc)).eng.phase = .processing) ∧
      ((begun (tiny .enc)).cfg.dir = .dec → ∀ m, (begun (tiny .enc)).cfg.ptHoldMax = some m →
        (begun (tiny .enc)).eng.pthold.length + ((begun (tiny .enc)).eng.dbuf ++ k1).length /
          (begun (tiny .enc)).cfg.bs * (begun (tiny .enc)).cfg.bs ≤ m) ∧
      (begun (tiny .enc)).cfg.dir = .enc ∧ (begun (tiny .enc)).cfg.ptHoldMax = some 8 ∧
      ¬ BlocksFit (begun (tiny .enc)).cfg (begun (tiny .enc)).eng.ctr
        (((begun (tiny .enc)).eng.dbuf ++ k1).length / (begun (tiny .enc)).cfg.bs)) ∧
    (((begun tinyDec).eng.phase = .started ∨ (begun tinyDec).eng.phase = .processing) ∧ (begun tinyDec).cfg.dir = .dec ∧
      (∀ m, (begun tinyDec).cfg.ptHoldMax = some m → (begun tinyDec).eng.pthold.length +
        ((begun tinyDec).eng.dbuf ++ k1).length / (begun tinyDec).cfg.bs * (begun tinyDec).cfg.bs ≤ m) ∧
      ¬ BlocksFit (begun tinyDec).cfg (begun tinyDec).eng.ctr
        (((begun tinyDec).eng.dbuf ++ k1).length / (begun tinyDec).cfg.bs)) ∧
    (((begun (tiny .dec)).eng.phase = .started ∨ (begun (tiny .dec)).eng.phase = .processing) ∧
      (begun (tiny .dec)).cfg.dir = .dec ∧
      (begun (tiny .dec)).cfg.taglen ≤ ((begun (tiny .dec)).eng.dbuf ++ (k1 ++ k1)).length ∧
      ¬ BlocksFit (begun (tiny .dec)).cfg (begun (tiny .dec)).eng.ctr
        ((((begun (tiny .dec)).eng.dbuf ++ (k1 ++ k1)).length - (begun (tiny .dec)).cfg.taglen) /
          (begun (tiny .dec)).cfg.bs)) ∧
    ((keyedAd noTable k1).eng.phase = .keyed ∧ n1.length < (keyedAd noTable k1).cfg.bs ∧
      2 ^ noTable.bottomBits - 1 ≤ noTable.extBits ∧ noTable.extBits + noTable.stretchShift ≤ noTable.w ∧
      ¬ AdBlocksFit noTable ((keyedAd noTable k1).eng.adbuf.length / noTable.bs)) := by
  refine ⟨⟨.inl rfl, fun h => (nomatch h), rfl, rfl, fun h => ?_⟩, ⟨.inl rfl, rfl, ?_, fun h => ?_⟩,
    ⟨.inl rfl, rfl, by decide, fun h => ?_⟩, rfl, by decide, by decide, by decide, fun h => ?_⟩
  · exact absurd (h.1 0 rfl 1 (by decide) (by decide)) (by decide)
  · rintro m ⟨⟩
    decide
  · exact absurd (h.1 0 rfl 1 (by decide) (by decide)) (by decide)
  · exact absurd (h.1 0 rfl 1 (by decide) (by decide)) (by decide)
  · exact absurd (h 0 rfl 1 (by decide) (by decide)) (by decide)

theorem witness_StartWithoutSlicesHasNoStep :
    (keyed { toy .enc 16 with bottomBits := 7 }).eng.phase = .keyed ∧
      n1.length < (keyed { toy .enc 16 with bottomBits := 7 }).cfg.bs ∧
      ({ toy .enc 16 with bottomBits := 7 } : Cfg).extBits <
        2 ^ ({ toy .enc 16 with bottomBits := 7 } : Cfg).bottomBits - 1 := by decide

theorem witness_WrongPhaseZeroises :
    (keyed (toy .enc 16)).eng.phase ∉ legalPhases (.update k1) ∧ (keyed (toy .enc 16)).eng.phase ≠ .cfgerr ∧
      (keyed (toy .enc 16)).eng.phase ≠ .fault := by decide

theorem witness_StickyPhasesAnswerAndKeep :
    (Engine.reset { toy .enc 16 with bs := 8 }).phase = .cfgerr ∧
      look .uninit (fun t => t.eng.phase) (exec (.start n1) (freshState (toy .enc 16))) = .fault := by decide

theorem witness_PhasesFollowTheTable : ∃ t, exec (.setAd k1) (keyed (toy .enc 16)) = .next t := ⟨_, rfl⟩

theorem witness_ResponsesFollowTheFormat :
    cfgLegal (keyed (toy .enc 16)).cfg = true ∧ ∃ t, exec (.setAd k1) (keyed (toy .enc 16)) = .next t :=
  ⟨by decide, _, rfl⟩

theorem witness_CipherRequestsAreCounted :
    (keyed (toy .enc 16)).Inv ∧ ∃ t, exec (.start n1) (keyed (toy .enc 16)) = .next t :=
  ⟨keyed_inv (by decide) (by decide) (by decide), _, rfl⟩

/-- What a run of commands leaves, `d` when it does not end in a next state. -/
def ran (d : State) (is : List Instr) : State := look d id (runCommands is d)

theorem witness_HiddenStateIsInvisible :
    (keyed (toy .enc 16)).Inv ∧
      (keyed (toy .enc 16)).visible =
        ({ keyed (toy .enc 16) with eng := { (keyed (toy .enc 16)).eng with ncTop := 1 } } : State).visible ∧
      ({ keyed (toy .enc 16) with eng := { (keyed (toy .enc 16)).eng with ncTop := 1 } } : State).Inv := by
  refine ⟨keyed_inv (by decide) (by decide) (by decide), rfl, by decide, ⟨by decide, rfl, ⟨rfl, ?_⟩, ?_, ?_⟩,
    ⟨rfl, rfl, rfl, rfl, rfl, rfl, rfl⟩, by decide⟩
  · exact fun _ hi => absurd hi (Nat.not_lt_zero _)
  · exact fun hv => absurd hv Bool.false_ne_true
  · exact fun _ _ => Nat.zero_le _

/-- With a valid cache, so that dropping it changes something. -/
theorem witness_AlwaysMissingChangesNothing :
    (keyed (toy .enc 16)).Inv ∧ (ran (keyed (toy .enc 16)) (pseudoMsg n1 [] [])).eng.ncValid = true :=
  ⟨keyed_inv (by decide) (by decide) (by decide), by decide +kernel⟩

/-- An encrypting engine that `PT_HOLD_MAX` does not bind, and a decrypting one whose `PTHOLD` has room for just the block. -/
theorem witness_UpdateChunksJoin :
    (((begun holdNone).eng.phase = .started ∨ (begun holdNone).eng.phase = .processing) ∧
      cfgLegal (begun holdNone).cfg = true ∧
      BlocksFit (begun holdNone).cfg (begun holdNone).eng.ctr
        (((begun holdNone).eng.dbuf ++ n1 ++ k1).length / (begun holdNone).cfg.bs) ∧
      ((begun holdNone).cfg.dir = .dec → ∀ m, (begun holdNone).cfg.ptHoldMax = some m → (begun holdNone).eng.pthold.length +
        ((begun holdNone).eng.dbuf ++ n1 ++ k1).length / (begun holdNone).cfg.bs * (begun holdNone).cfg.bs ≤ m) ∧
      (begun holdNone).cfg.ptHoldMax = some 0) ∧
    ((begun holdOne).eng.phase = .started ∨ (begun holdOne).eng.phase = .processing) ∧
      cfgLegal (begun holdOne).cfg = true ∧
      BlocksFit (begun holdOne).cfg (begun holdOne).eng.ctr
        (((begun holdOne).eng.dbuf ++ n1 ++ k1).length / (begun holdOne).cfg.bs) ∧
      ((begun holdOne).cfg.dir = .dec → ∀ m, (begun holdOne).cfg.ptHoldMax = some m → (begun holdOne).eng.pthold.length +
        ((begun holdOne).eng.dbuf ++ n1 ++ k1).length / (begun holdOne).cfg.bs * (begun holdOne).cfg.bs ≤ m) := by
  refine ⟨⟨.inl rfl, by decide, blocksFit_unbounded rfl rfl _ _, fun h => (nomatch h), rfl⟩, .inl rfl, by decide,
    blocksFit_unbounded rfl rfl _ _, fun _ => ?_⟩
  rintro m ⟨⟩
  decide

/-- An encrypting engine that `PT_HOLD_MAX` does not bind, and a decrypting one with a block in UPDATE and the tag left. -/
theorem witness_UpdateBeforeFinishJoins :
    (((begun holdNone).eng.phase = .started ∨ (begun holdNone).eng.phase = .processing) ∧
      cfgLegal (begun holdNone).cfg = true ∧
      BlocksFit (begun holdNone).cfg (begun holdNone).eng.ctr
        (((begun holdNone).eng.dbuf ++ k1 ++ n1).length / (begun holdNone).cfg.bs) ∧
      (begun holdNone).cfg.dir ≠ .dec ∧ (begun holdNone).cfg.ptHoldMax = some 0) ∧
    ((begun holdOne).eng.phase = .started ∨ (begun holdOne).eng.phase = .processing) ∧
      cfgLegal (begun holdOne).cfg = true ∧
      BlocksFit (begun holdOne).cfg (begun holdOne).eng.ctr
        (((begun holdOne).eng.dbuf ++ k1 ++ k1).length / (begun holdOne).cfg.bs) ∧
      ((begun holdOne).cfg.dir = .dec → ∀ m, (begun holdOne).cfg.ptHoldMax = some m → (begun holdOne).eng.pthold.length +
        ((begun holdOne).eng.dbuf ++ k1).length / (begun holdOne).cfg.bs * (begun holdOne).cfg.bs ≤ m) ∧
      ((begun holdOne).cfg.dir = .dec →
        ((begun holdOne).eng.dbuf ++ k1).length / (begun holdOne).cfg.bs * (begun holdOne).cfg.bs +
          (begun holdOne).cfg.taglen ≤ ((begun holdOne).eng.dbuf ++ k1 ++ k1).length) := by
  refine ⟨⟨.inl rfl, by decide, blocksFit_unbounded rfl rfl _ _, by decide, rfl⟩, .inl rfl, by decide,
    blocksFit_unbounded rfl rfl _ _, fun _ => ?_, fun _ => by decide⟩
  rintro m ⟨⟩
  decide

theorem witness_SealedMessageOpens :
    cfgLegal (toy .enc 16) = true ∧ k1.length ∈ (toy .enc 16).keylens ∧ n1.length < (toy .enc 16).bs ∧
      2 ^ (toy .enc 16).bottomBits - 1 ≤ (toy .enc 16).extBits ∧
      (toy .enc 16).extBits + (toy .enc 16).stretchShift ≤ (toy .enc 16).w ∧
      (∀ m, (toy .enc 16).adMax = some m → k1.length ≤ m) ∧ AdBlocksFit (toy .enc 16) (k1.length / (toy .enc 16).bs) ∧
      BlocksFit (toy .enc 16) 0 (n1.length / (toy .enc 16).bs) :=
  ⟨by decide, by decide, by decide, by decide, by decide, fun _ h => (nomatch h), adBlocksFit_unbounded rfl _,
    blocksFit_unbounded rfl rfl _ _⟩

theorem overCap_zero (cap : Option Nat) : overCap cap 0 = false := by
  cases cap <;> simp [overCap]

/-- An engine in STARTED is one of the states the invariant describes. -/
theorem begun_inv {c : Cfg} (h : cipherAccepts c k1 = true) (hl : cfgLegal c = true) (hd : c.lDepth = none)
    (hb : 0 < c.bs) : (begun c).Inv := by
  obtain ⟨tab, h1, h2⟩ := beginMessage_spec n1 (keyed_classOk h)
  have he : (begun c).eng = _ := h1
  unfold State.Inv
  rw [he]
  exact ⟨hl, ⟨h, rfl, ⟨rfl, h2.2.1⟩, fun _ => ⟨rfl, rfl⟩, fun _ hx => absurd (hd.symm.trans hx) (by simp)⟩,
    ⟨rfl, rfl, rfl, fun b _ => Nat.two_pow_pos b, hb, fun _ => rfl, fun _ => (Nat.zero_mul _).symm,
      overCap_zero _⟩, overCap_zero _, rfl, rfl, rfl, rfl⟩

theorem witness_PlaintextOnlyAfterTheTag :
    (begun (toy .dec 16)).Inv ∧ (begun (toy .dec 16)).cfg.dir = .dec ∧
      look [] (fun t => t.rspOut) (exec (.finish sealed17) (begun (toy .dec 16))) =
        [⟨0x0000000000000001#64, [0x10#8]⟩] ∧ ([0x10#8] : Bytes) ≠ [] :=
  ⟨begun_inv (by decide) (by decide) rfl (by decide), rfl, by decide +kernel, by decide⟩

theorem witness_SameMessageTwiceSameAnswer :
    (keyed (toy .enc 16)).Inv ∧ (keyed (toy .enc 16)).eng.phase = .keyed ∧
      (∀ m, (keyed (toy .enc 16)).cfg.adMax = some m → ([] : Bytes).length ≤ m) ∧
      (ran (keyed (toy .enc 16)) (pseudoMsg n1 [] k1)).eng.phase = .keyed ∧
      (ran (ran (keyed (toy .enc 16)) (pseudoMsg n1 [] k1)) (pseudoMsg n1 [] k1)).rspOut.length = 6 :=
  ⟨keyed_inv (by decide) (by decide) (by decide), rfl, fun _ h => (nomatch h), by decide +kernel, by decide +kernel⟩

theorem witness_EmptySetAdMayBeOmitted :
    (keyed (toy .enc 16)).eng.phase = .keyed ∧ (keyed (toy .enc 16)).eng.adbuf = [] ∧
      (ran (keyed (toy .enc 16)) (pseudoMsg n1 [] k1)).rspOut.length = 3 := by decide +kernel

/-- A START with a block of AD from KEYED, an UPDATE with a block, a FINISH with two. -/
theorem witness_TableDepthAfterBlocks :
    ((keyedAd (toy .enc 16) k1).Inv ∧ (keyedAd (toy .enc 16) k1).eng.DepthOk ∧
      look 0 (fun t => t.eng.lcnt)
        (step (withCommand (keyedAd (toy .enc 16) k1) ⟨0x030000000000000C#64, n1⟩)) = 1) ∧
    ((begun (toy .enc 16)).Inv ∧ (begun (toy .enc 16)).eng.DepthOk ∧
      ((begun (toy .enc 16)).eng.phase = .started ∨ (begun (toy .enc 16)).eng.phase = .processing) ∧
      look 0 (fun t => t.eng.lcnt)
        (step (withCommand (begun (toy .enc 16)) ⟨0x0400000000000010#64, k1⟩)) = 1 ∧
      (workData (.finish (k1 ++ k1)) (begun (toy .enc 16)).eng).length / (begun (toy .enc 16)).cfg.bs = 2 ∧
      look 0 (fun t => t.eng.lcnt) (exec (.finish (k1 ++ k1)) (begun (toy .enc 16))) = 2) :=
  ⟨⟨⟨by decide, keyed_classOk (c := toy .enc 16) (by decide), ⟨rfl, rfl, rfl, rfl, rfl, rfl, rfl⟩, by decide⟩,
      fun h => absurd h (by decide), by decide +kernel⟩,
    begun_inv (by decide) (by decide) rfl (by decide), by unfold Engine.DepthOk; decide, .inl rfl, by decide +kernel,
    by decide, by decide +kernel⟩

end Sys2Proof.Tests
end

section
/-! PROOF. The mask table, the nonce cache and the record of the cipher port cannot be told from any response
(10_state.md R39). The argument compares a state with itself after its hidden part is taken away (`State.visible`): a step from
either gives the host the same view (`view_step`). Two states with the same visible part then agree through that common
state. A step never looks at hidden values without recomputing them as functions of the key and the operands, which is what
the closed forms of the loops and of START say (`runBlocks_spec`, `tag_lastBlocks`, `beginMessage_spec`). -/

namespace Sys2Proof.Machine

/-! ### The visible part -/

@[simp] theorem visible_adbuf {c : Cfg} (e : Engine c) : e.visible.adbuf = e.adbuf := rfl
@[simp] theorem visible_ctr {c : Cfg} (e : Engine c) : e.visible.ctr = e.ctr := rfl
@[simp] theorem visible_dbuf {c : Cfg} (e : Engine c) : e.visible.dbuf = e.dbuf := rfl
@[simp] theorem visible_pthold {c : Cfg} (e : Engine c) : e.visible.pthold = e.pthold := rfl

/-- A reply with the hidden part of its registers taken away; status and payload stay. -/
def Reply.visible {c : Cfg} (r : Reply c) : Reply c := { r with eng := r.eng.visible }

/-- What a host can see of a command's reply, or the reason it has none. -/
def seen {c : Cfg} (r : Except Refusal (Reply c)) : Except Refusal (Reply c) := r.map Reply.visible

theorem seen_ok {c : Cfg} (r : Reply c) : seen (.ok r) = .ok r.visible := rfl

/-- Two OK replies with one payload look alike where their registers do. -/
theorem seen_respondOk {c : Cfg} {e e' : Engine c} {p p' : Bytes} (he : e'.visible = e.visible) (hp : p' = p) :
    seen (.ok (respondOk e' p')) = seen (.ok (respondOk e p)) := by
  simp only [seen_ok, Reply.visible, respondOk, he, hp]

/-- What a host can see of the outcome of a step. -/
def view : Host.Outcome State Fault Refusal → Host.Outcome State Fault Refusal
  | .next s => .next s.visible
  | .fault f => .fault f
  | .refused x => .refused x

theorem sameToHost_iff_view {x y : Host.Outcome State Fault Refusal} : SameToHost x y ↔ view x = view y := by
  cases x <;> cases y <;> simp [SameToHost, view]

/-! ### The invariant speaks of the visible part, too: an empty table and an invalid cache hold nothing wrong -/

theorem TableOk.visible {c : Cfg} {e : Engine c} (h : TableOk e) : TableOk e.visible :=
  ⟨h.1, fun _ hi => absurd hi (Nat.not_lt_zero _)⟩

theorem KeyClassOk.visible {c : Cfg} {e : Engine c} (h : KeyClassOk e) : KeyClassOk e.visible := by
  obtain ⟨hacc, hlstar, htab, -, -⟩ := h
  exact ⟨hacc, hlstar, htab.visible, fun hv => absurd hv Bool.false_ne_true, fun _ _ => Nat.zero_le _⟩

theorem KeyClassOk.tableOk {c : Cfg} {e : Engine c} (h : KeyClassOk e) : TableOk e := by
  obtain ⟨-, -, htab, -, -⟩ := h
  exact htab

/-- Where a key is installed, all that is derived from it agrees with it. -/
theorem Engine.Inv.keyClassOk {c : Cfg} {e : Engine c} (h : e.Inv)
    (hp : e.phase = .keyed ∨ e.phase ∈ [Phase.started, .processing]) : KeyClassOk e := by
  rw [List.mem_pair] at hp
  rcases hp with hp | hp | hp
  all_goals
    simp only [Engine.Inv, hp] at h
    obtain ⟨-, hk, -⟩ := h
    exact hk

/-! ### The shared operations -/

/-- Each error leaves registers that do not depend on the hidden part but for keeping it. -/
theorem visible_raise {c : Cfg} (k : ErrorKind) (e : Engine c) : (raise k e.visible).visible = (raise k e).visible := by
  cases k with
  | illegal => rfl
  | configError => rfl
  | authFail => rfl
  | seqError =>
    by_cases hf : e.phase = .fault
    · rw [raise_seqError_fault hf, raise_seqError_fault (e := e.visible) hf]
      rfl
    · rw [raise_seqError hf, raise_seqError (e := e.visible) hf]
      rfl

/-- A refusal looks alike from registers that look alike. -/
theorem seen_fail {c : Cfg} (k : ErrorKind) {e e' : Engine c} (h : e'.visible = e.visible) :
    seen (.ok (fail k e')) = seen (.ok (fail k e)) := by
  have hr : (raise k e').visible = (raise k e).visible := by rw [← visible_raise k e', h, visible_raise]
  simp only [seen_ok, Reply.visible, fail, hr]

/-- The opening checks read `PHASE` alone. -/
theorem seen_gate {c : Cfg} {legal : List Phase} {e : Engine c} {body body' : Except Refusal (Reply c)}
    (h : e.phase ∈ legal → seen body' = seen body) : seen (gate legal e.visible body') = seen (gate legal e body) := by
  rcases gate_cases legal e body with ⟨hc, hg⟩ | ⟨hc, hf, hg⟩ | ⟨hc, hf, hl, hg⟩
  · rw [hg, gate_cfgerr (e := e.visible) hc]
    exact seen_fail _ rfl
  · have hg' : gate legal e.visible body' = .ok (fail .seqError e.visible) :=
      hf.elim (fun hf => gate_fault hf) (fun hl => gate_illegal hl hc)
    rw [hg, hg']
    exact seen_fail _ rfl
  · rw [hg, gate_legal (e := e.visible) hl hc hf]
    exact h hl

/-- The end of the data pass and the tag answer the same bytes and leave registers that look alike, whatever the table
held. -/
theorem tag_lastBlocks_visible {c : Cfg} (t : Bytes) {e : Engine c} (h : TableOk e) :
    (lastBlocks t e.visible).1 = (lastBlocks t e).1 ∧
    (tag (lastBlocks t e.visible).2).1 = (tag (lastBlocks t e).2).1 ∧
    (tag (lastBlocks t e.visible).2).2.visible = (tag (lastBlocks t e).2).2.visible := by
  obtain ⟨tab, o1, g1, -⟩ := tag_lastBlocks t h
  obtain ⟨tab', o2, g2, -⟩ := tag_lastBlocks t h.visible
  rw [g1, g2, o1, o2]
  exact ⟨rfl, rfl, rfl⟩

/-- START leaves registers that look alike, hit or miss and whatever the table held. -/
theorem beginMessage_visible {c : Cfg} (pl : Bytes) {e : Engine c} (h : KeyClassOk e) :
    (beginMessage pl e.visible).visible = (beginMessage pl e).visible := by
  obtain ⟨tab, h1, -⟩ := beginMessage_spec pl h
  obtain ⟨tab', h2, -⟩ := beginMessage_spec pl h.visible
  rw [h1, h2]
  rfl

theorem endMessage_visible_congr {c : Cfg} {e e' : Engine c} (h : e'.visible = e.visible) :
    (endMessage e').visible = (endMessage e).visible :=
  congrArg endMessage h

/-- `PTHOLD` is in the visible part. -/
theorem pthold_eq_of_visible {c : Cfg} {e e' : Engine c} (h : e'.visible = e.visible) : e'.pthold = e.pthold := by
  rw [← visible_pthold e', h, visible_pthold]

/-! ### The commands -/

/-- A check that comes out alike keeps the two runs together. -/
theorem seen_ite {c : Cfg} {p p' : Prop} [Decidable p] [Decidable p'] {a a' b b' : Except Refusal (Reply c)}
    (hp : p' ↔ p) (ha : seen a' = seen a) (hb : seen b' = seen b) :
    seen (if p' then a' else b') = seen (if p then a else b) := by
  by_cases h : p
  · rw [if_pos h, if_pos (hp.mpr h), ha]
  · rw [if_neg h, if_neg (mt hp.mp h), hb]

/-- SET_KEY overwrites the hidden part (41_mask_schedule.md R96) or, refused, keeps it unread. -/
theorem seen_setKeyReply {c : Cfg} (pl : Bytes) (e : Engine c) :
    seen (setKeyReply pl e.visible) = seen (setKeyReply pl e) := by
  refine seen_gate fun _ => ?_
  cases cipherAccepts c pl with
  | true => exact seen_respondOk rfl rfl
  | false => exact seen_fail .configError (e := ciphSetKey pl e) rfl

/-- SET_AD does not touch the hidden part. -/
theorem seen_setAdReply {c : Cfg} (pl : Bytes) (e : Engine c) :
    seen (setAdReply pl e.visible) = seen (setAdReply pl e) := by
  refine seen_gate fun _ => ?_
  cases overCap c.adMax pl.length with
  | true => exact seen_fail .configError rfl
  | false => exact seen_respondOk rfl rfl

/-- START may hit or miss the cache, and its AD hash reads the table: both hold functions of the key. -/
theorem seen_startReply {c : Cfg} (pl : Bytes) {e : Engine c} (h : e.Inv) :
    seen (startReply pl e.visible) = seen (startReply pl e) := by
  refine seen_gate fun hl => ?_
  have hk := h.keyClassOk (.inl (List.mem_singleton.mp hl))
  refine seen_ite .rfl (seen_fail .configError rfl) (seen_ite .rfl rfl ?_)
  rw [visible_adbuf]
  cases blocksRefused none c.lDepth 0 (e.adbuf.length / c.bs) with
  | some x => rfl
  | none => exact seen_respondOk (beginMessage_visible pl hk) rfl

/-- The Offsets UPDATE takes from the table are those of the schedule (`runBlocks_spec`). -/
theorem seen_updateReply {c : Cfg} (pl : Bytes) {e : Engine c} (h : e.Inv) :
    seen (updateReply pl e.visible) = seen (updateReply pl e) := by
  refine seen_gate fun hl => ?_
  have ht := (h.keyClassOk (.inr hl)).tableOk
  refine seen_ite .rfl (seen_fail .configError rfl) ?_
  simp only [visible_dbuf, visible_ctr]
  cases blocksRefused c.ctrBits c.lDepth e.ctr ((e.dbuf ++ pl).length / c.bs) with
  | some x => rfl
  | none =>
    obtain ⟨tab, hrun, -⟩ := runBlocks_spec ((e.dbuf ++ pl).length / c.bs) (e.dbuf ++ pl) ht
    obtain ⟨tab', hrun', -⟩ := runBlocks_spec ((e.dbuf ++ pl).length / c.bs) (e.dbuf ++ pl) ht.visible
    simp only [hrun, hrun']
    cases c.dir with
    | enc => exact seen_respondOk rfl rfl
    | dec => exact seen_respondOk rfl rfl

theorem seen_finishEnc {c : Cfg} (pl : Bytes) {e : Engine c} (ht : TableOk e) :
    seen (finishEnc pl e.visible) = seen (finishEnc pl e) := by
  obtain ⟨hout, htag, hregs⟩ := tag_lastBlocks_visible (e.dbuf ++ pl) ht
  simp only [finishEnc, visible_dbuf, visible_ctr]
  cases blocksRefused c.ctrBits c.lDepth e.ctr ((e.dbuf ++ pl).length / c.bs) with
  | some x => rfl
  | none => exact seen_respondOk (endMessage_visible_congr hregs) (by rw [hout, htag])

/-- Both runs compare the same tag, so they take the same branch (45_tag_finish.md R144 to R146). -/
theorem seen_finishDec {c : Cfg} (pl : Bytes) {e : Engine c} (ht : TableOk e) :
    seen (finishDec pl e.visible) = seen (finishDec pl e) := by
  refine seen_ite .rfl (seen_fail .authFail rfl) ?_
  obtain ⟨hout, htag, hregs⟩ := tag_lastBlocks_visible (cipherPart c (e.dbuf ++ pl)) ht
  simp only [visible_dbuf, visible_ctr]
  simp only [cipherPart] at hout htag hregs
  cases blocksRefused c.ctrBits c.lDepth e.ctr
      (((e.dbuf ++ pl).take ((e.dbuf ++ pl).length - c.taglen)).length / c.bs) with
  | some x => rfl
  | none =>
    refine seen_ite (Eq.to_iff (congrArg (ctEq · _ = false) htag)) (seen_fail .authFail hregs)
      (seen_respondOk (endMessage_visible_congr hregs) ?_)
    exact congrArg₂ (· ++ ·) (pthold_eq_of_visible hregs) hout

theorem seen_finishReply {c : Cfg} (pl : Bytes) {e : Engine c} (h : e.Inv) :
    seen (finishReply pl e.visible) = seen (finishReply pl e) := by
  refine seen_gate fun hl => ?_
  have ht := (h.keyClassOk (.inr hl)).tableOk
  cases c.dir with
  | enc => exact seen_finishEnc pl ht
  | dec => exact seen_finishDec pl ht

/-! ### The step, by what stands on the command port -/

theorem step_idle {s : State} (h : s.cmdIn = []) : step s = .next s := by
  simp only [step, fetch, h]

theorem step_reset {s : State} {st : Straps} {rest : List HostEvent} (h : s.cmdIn = .reset st :: rest) :
    step s = .next (resetMachine st { s with cmdIn := rest }) := by
  simp only [step, fetch, h]

theorem step_unframed {s : State} {cmd : Command} {rest : List HostEvent} (h : s.cmdIn = .command cmd :: rest)
    (hf : cmd.framed = false) : step s = .refused .badFraming := by
  simp only [step, fetch, h, hf, if_true]

theorem step_decoded {s : State} {cmd : Command} {rest : List HostEvent} {i : Instr}
    (h : s.cmdIn = .command cmd :: rest) (hf : cmd.framed = true) (hd : decodeCommand cmd = .ok i) :
    step s = exec i { s with cmdIn := rest } := by
  simp only [step, fetch, h, hf, hd, Bool.true_eq_false, if_false]

theorem step_undecoded {s : State} {cmd : Command} {rest : List HostEvent} {x : DecodeError}
    (h : s.cmdIn = .command cmd :: rest) (hf : cmd.framed = true) (hd : decodeCommand cmd = .error x) :
    step s = .next (answerIllegal { s with cmdIn := rest }) := by
  simp only [step, fetch, h, hf, hd, Bool.true_eq_false, if_false]

/-! ### What a host can see of a step -/

/-- Delivery adds to the response port what the reply shows, and nothing hidden. -/
theorem view_deliver (s : State) (r : Except Refusal (Reply s.cfg)) :
    view (deliver s r) = deliver s.visible (seen r) := by
  cases r <;> rfl

theorem view_deliver_congr {s : State} {r r' : Except Refusal (Reply s.cfg)} (h : seen r' = seen r) :
    view (deliver s.visible r') = view (deliver s r) :=
  calc view (deliver s.visible r')
      = deliver s.visible (seen r') := view_deliver s.visible r'
    _ = deliver s.visible (seen r) := congrArg (deliver s.visible) h
    _ = view (deliver s r) := (view_deliver s r).symm

theorem view_exec (i : Instr) {s : State} (h : s.Inv) : view (exec i s.visible) = view (exec i s) := by
  cases i with
  | setKey pl => exact view_deliver_congr (seen_setKeyReply pl s.eng)
  | setAd pl => exact view_deliver_congr (seen_setAdReply pl s.eng)
  | start pl => exact view_deliver_congr (seen_startReply pl h)
  | update pl => exact view_deliver_congr (seen_updateReply pl h)
  | finish pl => exact view_deliver_congr (seen_finishReply pl h)

/-- Taking the hidden part away before a step changes nothing a host can see of it. -/
theorem view_step {s : State} (h : s.Inv) : view (step s.visible) = view (step s) := by
  match hin : s.cmdIn with
  | [] =>
    rw [step_idle hin, step_idle (s := s.visible) hin]
    rfl
  | .reset st :: rest =>
    rw [step_reset hin, step_reset (s := s.visible) hin]
    rfl
  | .command cmd :: rest =>
    cases hf : cmd.framed with
    | false => rw [step_unframed hin hf, step_unframed (s := s.visible) hin hf]
    | true =>
      cases hd : decodeCommand cmd with
      | ok i =>
        rw [step_decoded hin hf hd, step_decoded (s := s.visible) hin hf hd]
        exact view_exec i (s := { s with cmdIn := rest }) h
      | error x =>
        rw [step_undecoded hin hf hd, step_undecoded (s := s.visible) hin hf hd]
        rfl

/-- Settles O49: each of the two steps looks like the step from the visible part they share. -/
theorem hiddenStateIsInvisible : Obligations.HiddenStateIsInvisible := by
  intro s t hs ht hst
  rw [sameToHost_iff_view, ← view_step hs, hst, view_step ht]

end Sys2Proof.Machine
end

section
/-! PROOF. The answer to a word that spells no command, and the format of the answer to a command (30_encoding.md R63 to R66).
A word that decodes shows the opcode of its command and a zero reserved field (`fields_of_decodeCommand`), so any other word is
answered by ILLEGAL. Every command answers through its opening checks (`inFormat_of_gate`), so the format is shown command by
command on the registers alone; the payloads of UPDATE and FINISH are counted through the block loop, whatever the mask table
holds (`runBlocks_length`, `lastBlocks_length`). -/

namespace Sys2Proof.Machine

open Sys2Proof.Laws

/-! ### The fields of a command word -/

theorem opcField_and_selMask (cw : BitVec 64) : opcField (cw &&& selMask) = opcField cw := by
  have hmask : selMask.extractLsb' 56 8 = BitVec.allOnes 8 := by decide
  rw [opcField, BitVec.extractLsb'_and, hmask, BitVec.and_allOnes, opcField]

theorem rsvField_and_selMask (cw : BitVec 64) : rsvField (cw &&& selMask) = rsvField cw := by
  have hmask : selMask.extractLsb' 48 8 = BitVec.allOnes 8 := by decide
  rw [rsvField, BitVec.extractLsb'_and, hmask, BitVec.and_allOnes, rsvField]

/-- What the decoder compares a word with: the opcode of the command, and zeros (30_encoding.md R65). -/
theorem selected_of_decodeCommand {cmd : Command} {i : Instr} (h : decodeCommand cmd = .ok i) :
    cmd.cw &&& selMask = opcodeOf i ++ 0x00#8 ++ 0#48 := by
  simp only [decodeCommand] at h
  split_ifs at h with h1 h2 h3 h4 h5
  all_goals
    obtain rfl := Except.ok.inj h
    rw [opcodeOf]
  exacts [h1.trans (by decide), h2.trans (by decide), h3.trans (by decide), h4.trans (by decide), h5.trans (by decide)]

theorem fields_of_decodeCommand {cmd : Command} {i : Instr} (h : decodeCommand cmd = .ok i) :
    opcField cmd.cw = opcodeOf i ∧ rsvField cmd.cw = 0x00#8 := by
  obtain ⟨hopc, hrsv, -⟩ := fields_of_word (opcodeOf i) 0#48
  rw [← opcField_and_selMask, ← rsvField_and_selMask, selected_of_decodeCommand h]
  exact ⟨hopc, hrsv⟩

theorem opcodeOf_bounds (i : Instr) : 1 ≤ (opcodeOf i).toNat ∧ (opcodeOf i).toNat ≤ 5 := by
  cases i <;> simp only [opcodeOf] <;> decide

/-- A word outside the opcode table spells no command (30_encoding.md R66). -/
theorem decodeCommand_eq_error {cmd : Command}
    (h : opcField cmd.cw = 0x00#8 ∨ 6 ≤ (opcField cmd.cw).toNat ∨ rsvField cmd.cw ≠ 0x00#8) :
    ∃ x, decodeCommand cmd = .error x := by
  cases hd : decodeCommand cmd with
  | error x => exact ⟨x, rfl⟩
  | ok i =>
    obtain ⟨hopc, hrsv⟩ := fields_of_decodeCommand hd
    obtain ⟨hlo, hhi⟩ := opcodeOf_bounds i
    rw [hopc] at h
    rcases h with h0 | h6 | hr
    · rw [h0] at hlo
      exact absurd hlo (by decide)
    · omega
    · exact absurd hrsv hr

/-! ### The response word -/

theorem rlenField_of_lt (k : Nat) {n : Nat} (h : n < 2 ^ 48) : rlenField k n = BitVec.ofNat 48 n := if_pos h

theorem responseWord_illegal (k : Nat) : responseWord k (.err .illegal) [] = 0x0400000000000000#64 := by
  rw [responseWord, rlenField_of_lt k (by decide)]
  decide

/-- The fields of a response word (30_encoding.md R63). -/
theorem responseWord_fields (k : Nat) (st : Status) (pl : Bytes) :
    (responseWord k st pl).extractLsb' 56 8 = statusCode st ∧ (responseWord k st pl).extractLsb' 48 8 = 0x00#8 ∧
    (pl.length < 2 ^ 48 → ((responseWord k st pl).extractLsb' 0 48).toNat = pl.length) := by
  obtain ⟨hst, hrsv, hlen⟩ := fields_of_word (statusCode st) (rlenField k pl.length)
  refine ⟨hst, hrsv, fun h => ?_⟩
  rw [rlenField_of_lt k h] at hlen
  rw [responseWord, rlenField_of_lt k h]
  exact (congrArg BitVec.toNat hlen).trans (BitVec.toNat_ofNat ..|>.trans (Nat.mod_eq_of_lt h))

/-- Settles O6: the word decodes to no command, and the answer to such a word leaves the registers as they are. -/
theorem illegalWordChangesNothing : Obligations.IllegalWordChangesNothing := by
  intro s cmd rest hin hf hw
  obtain ⟨x, hd⟩ := decodeCommand_eq_error hw
  rw [step_undecoded hin hf hd, answerIllegal, answer, fail_eng, raise_illegal, fail_status, fail_payload,
    responseWord_illegal]

/-! ### The lengths of what the data pass and the tag give -/

@[simp] theorem bytesOf_length {w : Nat} (n : Nat) (x : BitVec w) : (bytesOf n x).length = n := by
  induction n with
  | zero => rfl
  | succ n ih => rw [bytesOf, List.length_cons, ih]

@[simp] theorem blockBytes_length {c : Cfg} (b : Block c.w) : (blockBytes b).length = c.bs := bytesOf_length c.bs b

@[simp] theorem fullBlocks_length (c : Cfg) (n : Nat) (t : Bytes) : (fullBlocks c n t).length = n := by
  induction n generalizing t with
  | zero => rfl
  | succ n ih => rw [fullBlocks, List.length_cons, ih]

/-- Every full block gives `BS` bytes of output (44_core_loop.md R134). -/
theorem runBlocks_length {c : Cfg} (l : List (Block c.w)) (e : Engine c) :
    (runBlocks l e).1.length = c.bs * l.length := by
  induction l generalizing e with
  | nil => rfl
  | cons b l ih => rw [runBlocks, List.length_append, blockBytes_length, ih, List.length_cons, Nat.mul_succ, Nat.add_comm]

/-- The partial block gives as many bytes as it takes (44_core_loop.md R130, R131). -/
theorem partialBlock_length {c : Cfg} {s : Bytes} (h : s.length ≤ c.bs) (e : Engine c) :
    (partialBlock s e).1.length = s.length := by
  rw [partialBlock, xorPrefix, List.length_zipWith, blockBytes_length, Nat.min_eq_left h]

/-- The end of the data pass gives as many bytes as it takes (45_tag_finish.md R143, R144). -/
theorem lastBlocks_length {c : Cfg} (h : 0 < c.bs) (t : Bytes) (e : Engine c) :
    (lastBlocks t e).1.length = t.length := by
  have hdiv := Nat.div_add_mod t.length c.bs
  by_cases hr : 0 < t.length % c.bs
  · have htail : (t.drop (t.length / c.bs * c.bs)).length = t.length % c.bs := by
      rw [List.length_drop, Nat.mul_comm]
      omega
    have hlt := Nat.mod_lt t.length h
    simp only [lastBlocks, if_pos hr]
    rw [List.length_append, runBlocks_length, fullBlocks_length, partialBlock_length (by omega), htail, hdiv]
  · simp only [lastBlocks, if_neg hr]
    rw [runBlocks_length, fullBlocks_length]
    omega

theorem tag_length {c : Cfg} (h : c.taglen ≤ c.bs) (e : Engine c) : (tag e).1.length = c.taglen := by
  rw [tag, List.length_take, blockBytes_length, Nat.min_eq_left h]

/-! ### `PTHOLD` in FINISH: the data pass and the tag leave it -/

@[simp] theorem fullBlock_pthold {c : Cfg} (b : Block c.w) (e : Engine c) : (fullBlock b e).2.pthold = e.pthold := by
  rw [fullBlock]
  cases c.dir with
  | enc => rfl
  | dec => rfl

@[simp] theorem runBlocks_pthold {c : Cfg} (l : List (Block c.w)) (e : Engine c) :
    (runBlocks l e).2.pthold = e.pthold := by
  induction l generalizing e with
  | nil => rfl
  | cons b l ih => rw [runBlocks, ih, fullBlock_pthold]

@[simp] theorem partialBlock_pthold {c : Cfg} (s : Bytes) (e : Engine c) : (partialBlock s e).2.pthold = e.pthold := rfl

@[simp] theorem lastBlocks_pthold {c : Cfg} (t : Bytes) (e : Engine c) : (lastBlocks t e).2.pthold = e.pthold := by
  by_cases hr : 0 < t.length % c.bs
  · simp only [lastBlocks, if_pos hr, partialBlock_pthold, runBlocks_pthold]
  · simp only [lastBlocks, if_neg hr, runBlocks_pthold]

@[simp] theorem tag_pthold {c : Cfg} (e : Engine c) : (tag e).2.pthold = e.pthold := rfl

/-! ### The format of a reply -/

/-- A command's reply has the payload the encoding gives its status: of the stated length if OK, none if refused
(30_encoding.md R63). -/
def InFormat {c : Cfg} (i : Instr) (e : Engine c) (r : Reply c) : Prop :=
  (r.status = .ok → r.payload.length = okPayloadLength i e) ∧ (r.status ≠ .ok → r.payload = [])

theorem inFormat_ok {c : Cfg} {i : Instr} {e e' : Engine c} {pl : Bytes} (h : pl.length = okPayloadLength i e) :
    InFormat i e ⟨e', .ok, pl⟩ :=
  ⟨fun _ => h, fun hne => absurd rfl hne⟩

theorem inFormat_err {c : Cfg} (i : Instr) (e e' : Engine c) (k : ErrorKind) : InFormat i e ⟨e', .err k, []⟩ :=
  ⟨fun h => Status.noConfusion h, fun _ => rfl⟩

/-- The opening checks refuse without a payload, so the format is a matter of the legal phases. -/
theorem inFormat_of_gate {c : Cfg} {i : Instr} {legal : List Phase} {e : Engine c} {body : Except Refusal (Reply c)}
    {r : Reply c} (h : gate legal e body = .ok r) (hb : e.phase ∈ legal → body = .ok r → InFormat i e r) :
    InFormat i e r := by
  rcases gate_ok h with ⟨-, rfl⟩ | ⟨-, rfl⟩ | ⟨-, -, -, rfl⟩ | ⟨-, -, hl, hr⟩
  · exact inFormat_err ..
  · exact inFormat_err ..
  · exact inFormat_err ..
  · exact hb hl hr

theorem setKeyReply_inFormat {c : Cfg} {pl : Bytes} {e : Engine c} {r : Reply c} (h : setKeyReply pl e = .ok r) :
    InFormat (.setKey pl) e r := by
  refine inFormat_of_gate h fun hl _ => ?_
  rcases setKeyReply_ok (List.mem_pair.mp hl) h with ⟨-, rfl⟩ | ⟨-, rfl⟩
  · exact inFormat_ok rfl
  · exact inFormat_err ..

theorem setAdReply_inFormat {c : Cfg} {pl : Bytes} {e : Engine c} {r : Reply c} (h : setAdReply pl e = .ok r) :
    InFormat (.setAd pl) e r := by
  refine inFormat_of_gate h fun hl _ => ?_
  rcases setAdReply_ok (List.mem_singleton.mp hl) h with ⟨-, rfl⟩ | ⟨-, rfl⟩
  · exact inFormat_ok rfl
  · exact inFormat_err ..

theorem startReply_inFormat {c : Cfg} {pl : Bytes} {e : Engine c} {r : Reply c} (h : startReply pl e = .ok r) :
    InFormat (.start pl) e r := by
  refine inFormat_of_gate h fun hl _ => ?_
  rcases startReply_ok (List.mem_singleton.mp hl) h with ⟨-, rfl⟩ | ⟨-, -, -, rfl⟩
  · exact inFormat_err ..
  · exact inFormat_ok rfl

/-- An encrypting UPDATE gives its full blocks at once, a decrypting one holds them back (44_core_loop.md R134, R136). -/
theorem updateReply_inFormat {c : Cfg} {pl : Bytes} {e : Engine c} {r : Reply c} (h : updateReply pl e = .ok r) :
    InFormat (.update pl) e r := by
  refine inFormat_of_gate h fun _ hb => ?_
  dsimp only at hb
  split_ifs at hb with hcap
  · obtain rfl := Except.ok.inj hb
    exact inFormat_err ..
  · split at hb
    · cases hb
    · cases hd : c.dir with
      | enc =>
        simp only [hd] at hb
        obtain rfl := Except.ok.inj hb
        refine inFormat_ok ?_
        simp only [okPayloadLength, hd, runBlocks_length, fullBlocks_length, List.length_append]
      | dec =>
        simp only [hd] at hb
        obtain rfl := Except.ok.inj hb
        refine inFormat_ok ?_
        simp only [okPayloadLength, hd, List.length_nil]

/-- The ciphertext is as long as the data, and the tag follows it (45_tag_finish.md R143). -/
theorem finishEnc_inFormat {c : Cfg} {pl : Bytes} {e : Engine c} {r : Reply c} (hbs : 0 < c.bs)
    (htag : c.taglen ≤ c.bs) (hd : c.dir = .enc) (h : finishEnc pl e = .ok r) : InFormat (.finish pl) e r := by
  rw [finishEnc] at h
  split at h
  · cases h
  · obtain rfl := Except.ok.inj h
    refine inFormat_ok ?_
    simp only [okPayloadLength, hd, List.length_append, lastBlocks_length hbs, tag_length htag]

/-- The held plaintext, then as many bytes as the data without the tag (45_tag_finish.md R144). -/
theorem finishDec_inFormat {c : Cfg} {pl : Bytes} {e : Engine c} {r : Reply c} (hbs : 0 < c.bs)
    (hd : c.dir = .dec) (h : finishDec pl e = .ok r) : InFormat (.finish pl) e r := by
  simp only [finishDec] at h
  split_ifs at h with hshort hct
  · obtain rfl := Except.ok.inj h
    exact inFormat_err ..
  · split at h
    · cases h
    · obtain rfl := Except.ok.inj h
      exact inFormat_err ..
  · split at h
    · cases h
    · obtain rfl := Except.ok.inj h
      refine inFormat_ok ?_
      simp only [List.length_append] at hshort
      simp only [okPayloadLength, hd, List.length_append, tag_pthold, lastBlocks_pthold, lastBlocks_length hbs,
        List.length_take]
      omega

theorem finishReply_inFormat {c : Cfg} {pl : Bytes} {e : Engine c} {r : Reply c} (hbs : 0 < c.bs)
    (htag : c.taglen ≤ c.bs) (h : finishReply pl e = .ok r) : InFormat (.finish pl) e r := by
  refine inFormat_of_gate h fun _ hb => ?_
  cases hd : c.dir with
  | enc =>
    rw [hd] at hb
    exact finishEnc_inFormat hbs htag hd hb
  | dec =>
    rw [hd] at hb
    exact finishDec_inFormat hbs hd hb

/-! ### The format of the response -/

/-- What a legal configuration has of the block size and of the tag length (70_reset_and_hazards.md R182). -/
theorem bounds_of_cfgLegal {c : Cfg} (h : cfgLegal c = true) : 0 < c.bs ∧ c.taglen ≤ c.bs := by
  simp only [cfgLegal, Bool.and_eq_true, Bool.or_eq_true, beq_iff_eq, decide_eq_true_eq] at h
  omega

/-- A command with a next state leaves a reply in format, and the next state is the answer with that reply. -/
theorem exec_answers_inFormat {i : Instr} {s t : State} (hc : cfgLegal s.cfg = true) (h : exec i s = .next t) :
    ∃ r, t = answer s r ∧ InFormat i s.eng r := by
  obtain ⟨hbs, htag⟩ := bounds_of_cfgLegal hc
  cases i with
  | setKey pl =>
    obtain ⟨r, hr, rfl⟩ := deliver_next.mp h
    exact ⟨r, rfl, setKeyReply_inFormat hr⟩
  | setAd pl =>
    obtain ⟨r, hr, rfl⟩ := deliver_next.mp h
    exact ⟨r, rfl, setAdReply_inFormat hr⟩
  | start pl =>
    obtain ⟨r, hr, rfl⟩ := deliver_next.mp h
    exact ⟨r, rfl, startReply_inFormat hr⟩
  | update pl =>
    obtain ⟨r, hr, rfl⟩ := deliver_next.mp h
    exact ⟨r, rfl, updateReply_inFormat hr⟩
  | finish pl =>
    obtain ⟨r, hr, rfl⟩ := deliver_next.mp h
    exact ⟨r, rfl, finishReply_inFormat hbs htag hr⟩

/-- Settles O46: the reply is in format, and the response word shows its status and its payload's length. -/
theorem responsesFollowTheFormat : Obligations.ResponsesFollowTheFormat := by
  intro i s t hc h
  obtain ⟨r, rfl, hok, herr⟩ := exec_answers_inFormat hc h
  obtain ⟨hst, hrsv, hlen⟩ := responseWord_fields s.freeCtr r.status r.payload
  exact ⟨rfl, rfl, r.status, _, rfl, hst, hrsv, hlen, hok, herr⟩

end Sys2Proof.Machine
end

section
/-! PROOF. The doubling unit as an operation on bits and over XOR (40_gf_doubling.md R80, R81, R84). Doubling is the XOR of two
parts, the shift and the constant selected by the carry. Each part is linear over XOR (`selectRc_xor` for the second: the carry
of an XOR is the XOR of the carries), hence doubling is (`double_xor`), and nothing in this depends on the constant. -/

namespace Sys2Proof.Machine

/-! ### The reduction constants -/

/-- Settles O13, width by width. -/
theorem reductionConstants : Obligations.ReductionConstants := by
  refine ⟨?_, ?_, ?_, ?_⟩ <;> simp [rc, rcNat]

/-! ### One doubling, by its carry -/

theorem double_of_carry {w : Nat} {b : Block w} (h : b.msb = true) : double b = (b <<< 1) ^^^ rc w := by
  simp [double, h]

theorem double_of_no_carry {w : Nat} {b : Block w} (h : b.msb = false) : double b = b <<< 1 := by
  simp [double, h]

theorem double_zero {w : Nat} : double (0 : Block w) = 0 := by
  have hcarry : (0 : Block w).msb = false := BitVec.msb_zero
  rw [double_of_no_carry hcarry]
  exact BitVec.zero_shiftLeft 1

/-- The only bit set is shifted out. -/
theorem double_topBit {w : Nat} (hw : 0 < w) : double (BitVec.twoPow w (w - 1)) = rc w := by
  have hcarry : (BitVec.twoPow w (w - 1)).msb = true := by
    simp [BitVec.msb_twoPow, hw]
  have hshift : BitVec.twoPow w (w - 1) <<< 1 = 0#w := by
    rw [BitVec.twoPow_eq, ← BitVec.shiftLeft_add, BitVec.shiftLeft_eq_zero (by omega)]
  rw [double_of_carry hcarry, hshift, BitVec.zero_xor]

theorem getLsbD_double {w : Nat} (b : Block w) {i : Nat} (hi : i < w) :
    (double b).getLsbD i = ((decide (0 < i) && b.getLsbD (i - 1)) ^^ (b.msb && (rc w).getLsbD i)) := by
  have hshift : (b <<< 1).getLsbD i = (decide (0 < i) && b.getLsbD (i - 1)) := by
    simp only [BitVec.getLsbD_shiftLeft, hi, decide_true, Bool.true_and, ← decide_not, Nat.not_lt, Nat.succ_le_iff]
  cases hb : b.msb with
  | true => rw [double_of_carry hb, BitVec.getLsbD_xor, hshift, Bool.true_and]
  | false => rw [double_of_no_carry hb, hshift, Bool.false_and, Bool.xor_false]

/-- Settles O14: the carry is the top bit. -/
theorem doubleShiftsAndReduces : Obligations.DoubleShiftsAndReduces := by
  intro w b i hi
  rw [getLsbD_double b hi, BitVec.msb_eq_getLsbD_last]

/-! ### Doubling over XOR -/

theorem selectRc_xor {w : Nat} (r : Block w) (p q : Bool) :
    (if p ^^ q then r else 0) = (if p then r else 0) ^^^ (if q then r else 0) := by
  cases p <;> cases q <;> simp

/-- R84 (c), at every width. -/
theorem double_xor {w : Nat} (a b : Block w) : double (a ^^^ b) = double a ^^^ double b :=
  calc double (a ^^^ b)
    _ = (a <<< 1 ^^^ b <<< 1) ^^^ (if a.msb ^^ b.msb then rc w else 0) := by
      rw [double, BitVec.shiftLeft_xor_distrib, BitVec.msb_xor]
    _ = (a <<< 1 ^^^ b <<< 1) ^^^ ((if a.msb then rc w else 0) ^^^ (if b.msb then rc w else 0)) := by
      rw [selectRc_xor]
    _ = double a ^^^ double b := by
      simp only [double]
      ac_rfl

/-- Settles O16: the laws hold at every width that has a top bit, as the supported ones do. -/
theorem doubleLaws : Obligations.DoubleLaws := by
  intro w hw
  have hpos : 0 < w := by omega
  exact ⟨double_zero, double_topBit hpos, fun a b => (double_xor a b).symm⟩

end Sys2Proof.Machine
end

section
/-! PROOF. The mask schedule (41_mask_schedule.md R94, R96, R97). `ntz` is characterised by the powers of two that divide its
argument (`two_pow_dvd_iff_le_ntz`). The depth of the table is then read as a statement about powers of two, that entry `i` is
there once a pass has reached block `2^i` (`coversPass_iff_log2`): block `2^i` is the first to ask for entry `i`, so a pass that
goes on from block `k` needs a new entry only for the powers of two above `k` (`CoversPass.grown`). SET_KEY is run once on its
accepted path. -/

namespace Sys2Proof.Machine

/-! ### `ntz` -/

/-- The search is long enough where its fuel is at least its argument. -/
theorem two_pow_dvd_iff_le_ntzUpTo {fuel i : Nat} (hpos : 1 ≤ i) (hfuel : i ≤ fuel) (n : Nat) :
    2 ^ n ∣ i ↔ n ≤ ntzUpTo fuel i := by
  induction fuel generalizing i n with
  | zero => omega
  | succ fuel ih =>
    cases n with
    | zero => simp
    | succ n =>
      by_cases heven : i % 2 = 0
      · have hhalf : 2 ^ (n + 1) ∣ i ↔ 2 ^ n ∣ i / 2 := by
          rw [Nat.dvd_div_iff_mul_dvd (Nat.dvd_of_mod_eq_zero heven), Nat.pow_succ']
        rw [hhalf, ih (by omega) (by omega), ntzUpTo, if_pos heven, Nat.add_le_add_iff_right]
      · have hodd : ¬ 2 ^ (n + 1) ∣ i := fun h =>
          heven (Nat.mod_eq_zero_of_dvd ((Dvd.intro_left (2 ^ n) rfl).trans h))
        simp [ntzUpTo, heven, hodd]

theorem two_pow_dvd_iff_le_ntz {i : Nat} (hpos : 1 ≤ i) (n : Nat) : 2 ^ n ∣ i ↔ n ≤ ntz i :=
  two_pow_dvd_iff_le_ntzUpTo hpos le_rfl n

/-- Settles O18: a power of two divides `i` exactly when its exponent is at most `ntz i`. -/
theorem ntzIsLargestPower : Obligations.NtzIsLargestPower := fun _ hpos =>
  ⟨(two_pow_dvd_iff_le_ntz hpos _).mpr le_rfl, fun n => (two_pow_dvd_iff_le_ntz hpos n).mp⟩

/-! ### The depth of the mask table -/

/-- A table of `len` entries is deep enough for a pass of `m` full blocks: entry `i` is there once block `2^i` has been
reached. -/
def CoversPass (m len : Nat) : Prop := ∀ i, 2 ^ i ≤ m → i < len

/-- The depth of 41_mask_schedule.md R97. -/
theorem coversPass_iff_log2 {m len : Nat} : CoversPass m len ↔ (1 ≤ m → Nat.log2 m + 1 ≤ len) := by
  constructor
  · intro h hm
    exact h _ (Nat.log2_self_le (by omega))
  · intro h i hi
    have hm : 1 ≤ m := Nat.one_le_two_pow.trans hi
    exact (Nat.le_log2 (by omega)).mpr hi |>.trans_lt (h hm)

theorem coversPass_zero (len : Nat) : CoversPass 0 len := fun i hi => absurd hi (by simp)

/-- The data pass goes on from block number `k` by `n` blocks beside another pass of `a` blocks: a power of two up to `k` or `a`
is covered already, block `2^i` above `k` asks for entry `ntz (2^i) = i`. -/
theorem CoversPass.grown {w : Nat} {lstar : Block w} {a k n : Nat} {t t' : List (Block w)}
    (h : CoversPass (max a k) t.length) (hg : TableGrown lstar k n t t') : CoversPass (max a (k + n)) t'.length := by
  obtain ⟨hprefix, -, hasked, -⟩ := hg
  intro i hi
  by_cases hold : 2 ^ i ≤ max a k
  · exact (h i hold).trans_le hprefix.length_le
  · have hi_ntz : i ≤ ntz (2 ^ i) := (two_pow_dvd_iff_le_ntz Nat.one_le_two_pow i).mp dvd_rfl
    exact hi_ntz.trans_lt (hasked _ (by omega) (by omega))

theorem depthOk_iff_coversPass {c : Cfg} {e : Engine c} :
    e.DepthOk ↔ ((e.phase = .started ∨ e.phase = .processing) → CoversPass e.longerPass e.lcnt) := by
  simp only [Engine.DepthOk, coversPass_iff_log2]

/-- Outside a message nothing is asked of the table. -/
theorem depthOk_of_no_message {c : Cfg} {e : Engine c} (h1 : e.phase ≠ .started) (h2 : e.phase ≠ .processing) :
    e.DepthOk := fun h => (h.elim h1 h2).elim

theorem depthOk_of_keyed {c : Cfg} {e : Engine c} (h : e.phase = .keyed) : e.DepthOk :=
  depthOk_of_no_message (by simp [h]) (by simp [h])

/-- After reset no message is in progress, whatever the record of the cipher port. -/
theorem reset_depthOk (c : Cfg) (log : List CiphEvent) : ({ Engine.reset c with ciphLog := log } : Engine c).DepthOk := by
  cases hc : cfgLegal c <;> exact depthOk_of_no_message (by simp [hc]) (by simp [hc])

/-! ### Every command keeps the depth -/

/-- The opening checks keep the registers or end the message, so the depth is a matter of the legal phases. -/
theorem depthOk_of_gate {c : Cfg} {legal : List Phase} {e : Engine c} {body : Except Refusal (Reply c)} {r : Reply c}
    (he : e.DepthOk) (h : gate legal e body = .ok r) (hb : e.phase ∈ legal → r.eng.DepthOk) : r.eng.DepthOk := by
  rcases gate_ok h with ⟨-, rfl⟩ | ⟨-, rfl⟩ | ⟨-, -, -, rfl⟩ | ⟨-, -, hl, -⟩
  · exact he
  · exact he
  · exact depthOk_of_no_message Phase.noConfusion Phase.noConfusion
  · exact hb hl

theorem setKeyReply_depthOk {c : Cfg} {pl : Bytes} {e : Engine c} {r : Reply c} (he : e.DepthOk)
    (h : setKeyReply pl e = .ok r) : r.eng.DepthOk := by
  refine depthOk_of_gate he h fun hl => ?_
  rcases setKeyReply_ok (List.mem_pair.mp hl) h with ⟨-, rfl⟩ | ⟨-, rfl⟩
  · exact depthOk_of_keyed rfl
  · exact he

theorem setAdReply_depthOk {c : Cfg} {pl : Bytes} {e : Engine c} {r : Reply c} (he : e.DepthOk)
    (h : setAdReply pl e = .ok r) : r.eng.DepthOk := by
  refine depthOk_of_gate he h fun hl => ?_
  have hkeyed := List.mem_singleton.mp hl
  rcases setAdReply_ok hkeyed h with ⟨-, rfl⟩ | ⟨-, rfl⟩
  · exact depthOk_of_keyed hkeyed
  · exact he

/-- The AD pass of START grows the table from block 1 on (43_ad_hash.md R120). -/
theorem beginMessage_depthOk {c : Cfg} (pl : Bytes) {e : Engine c} (hk : KeyClassOk e) : (beginMessage pl e).DepthOk := by
  obtain ⟨tab, hregs, hgrown⟩ := beginMessage_spec pl hk
  have hcover := CoversPass.grown (a := 0) (coversPass_zero _) hgrown
  rw [depthOk_iff_coversPass, hregs]
  intro _
  simpa [Engine.longerPass, Engine.lcnt] using hcover

theorem startReply_depthOk {c : Cfg} {pl : Bytes} {e : Engine c} {r : Reply c} (hi : e.Inv) (he : e.DepthOk)
    (h : startReply pl e = .ok r) : r.eng.DepthOk := by
  refine depthOk_of_gate he h fun hl => ?_
  have hkeyed := List.mem_singleton.mp hl
  rcases startReply_ok hkeyed h with ⟨-, rfl⟩ | ⟨-, -, -, rfl⟩
  · exact he
  · exact beginMessage_depthOk pl (hi.keyClassOk (.inl hkeyed))

theorem updateReply_depthOk {c : Cfg} {pl : Bytes} {e : Engine c} {r : Reply c} (hi : e.Inv) (he : e.DepthOk)
    (h : updateReply pl e = .ok r) : r.eng.DepthOk := by
  refine depthOk_of_gate he h fun hl => ?_
  have hmsg := List.mem_pair.mp hl
  rcases updateReply_ok hmsg (hi.keyClassOk (.inr hl)).tableOk h with ⟨-, -, rfl⟩ | ⟨-, -, tab, rfl, hgrown⟩
  · exact he
  · exact depthOk_iff_coversPass.mpr fun _ => (depthOk_iff_coversPass.mp he hmsg).grown hgrown

/-- What an answered FINISH leaves: no message, and a table deep enough for its last blocks, whether the tag agreed or not. -/
theorem finishReply_depth {c : Cfg} {pl : Bytes} {e : Engine c} {r : Reply c} (hi : e.Inv) (he : e.DepthOk)
    (hmsg : e.phase = .started ∨ e.phase = .processing) (h : finishReply pl e = .ok r) :
    r.eng.phase = .keyed ∧
      CoversPass (max (e.adbuf.length / c.bs) (e.ctr + (workData (.finish pl) e).length / c.bs)) r.eng.lcnt := by
  have ht := (hi.keyClassOk (.inr (List.mem_pair.mpr hmsg))).tableOk
  have hcover : CoversPass (max (e.adbuf.length / c.bs) e.ctr) e.ltab.length := depthOk_iff_coversPass.mp he hmsg
  cases hd : c.dir with
  | enc =>
    obtain ⟨-, tab, rfl, hgrown⟩ := finishReply_enc_ok hmsg hd ht h
    simp only [workData, hd]
    exact ⟨rfl, hcover.grown hgrown⟩
  | dec =>
    simp only [workData, hd]
    rcases finishReply_dec_ok hmsg hd ht h with ⟨hshort, rfl⟩ | ⟨-, -, tab, hr, hgrown⟩
    · have hnone : cipherPart c (finishData e pl) = [] := by
        rw [cipherPart, finishData, Nat.sub_eq_zero_of_le hshort.le, List.take_zero]
      rw [hnone, List.length_nil, Nat.zero_div]
      exact ⟨rfl, hcover⟩
    · rcases hr with ⟨-, rfl⟩ | ⟨-, rfl⟩ <;> exact ⟨rfl, hcover.grown hgrown⟩

theorem finishReply_depthOk {c : Cfg} {pl : Bytes} {e : Engine c} {r : Reply c} (hi : e.Inv) (he : e.DepthOk)
    (h : finishReply pl e = .ok r) : r.eng.DepthOk :=
  depthOk_of_gate he h fun hl => depthOk_of_keyed (finishReply_depth hi he (List.mem_pair.mp hl) h).1

theorem exec_depthOk {i : Instr} {s t : State} (hi : s.Inv) (he : s.eng.DepthOk) (h : exec i s = .next t) :
    t.eng.DepthOk := by
  cases i with
  | setKey pl =>
    obtain ⟨r, hr, rfl⟩ := deliver_next.mp h
    exact setKeyReply_depthOk he hr
  | setAd pl =>
    obtain ⟨r, hr, rfl⟩ := deliver_next.mp h
    exact setAdReply_depthOk he hr
  | start pl =>
    obtain ⟨r, hr, rfl⟩ := deliver_next.mp h
    exact startReply_depthOk hi he hr
  | update pl =>
    obtain ⟨r, hr, rfl⟩ := deliver_next.mp h
    exact updateReply_depthOk hi he hr
  | finish pl =>
    obtain ⟨r, hr, rfl⟩ := deliver_next.mp h
    exact finishReply_depthOk hi he hr

theorem step_depthOk {s t : State} (hi : s.Inv) (he : s.eng.DepthOk) (h : step s = .next t) : t.eng.DepthOk := by
  match hin : s.cmdIn with
  | [] =>
    rw [step_idle hin] at h
    obtain rfl := Host.Outcome.next.inj h
    exact he
  | .reset st :: rest =>
    rw [step_reset hin] at h
    obtain rfl := Host.Outcome.next.inj h
    exact reset_depthOk _ _
  | .command cmd :: rest =>
    cases hf : cmd.framed with
    | false =>
      rw [step_unframed hin hf] at h
      cases h
    | true =>
      cases hd : decodeCommand cmd with
      | ok i =>
        rw [step_decoded hin hf hd] at h
        exact exec_depthOk (s := { s with cmdIn := rest }) hi he h
      | error x =>
        rw [step_undecoded hin hf hd] at h
        obtain rfl := Host.Outcome.next.inj h
        exact he

/-- Settles O56: no message after reset, every step keeps the depth, and FINISH covers its last blocks. -/
theorem tableDepthAfterBlocks : Obligations.TableDepthAfterBlocks := by
  refine ⟨fun c => reset_depthOk c [], fun s t => step_depthOk, fun pl s t hi he hmsg h => ?_⟩
  obtain ⟨r, hr, rfl⟩ := deliver_next.mp h
  exact coversPass_iff_log2.mp (finishReply_depth hi he hmsg hr).2

/-! ### SET_KEY, accepted -/

/-- SET_KEY in a legal phase with a length in `KEYLENS` (41_mask_schedule.md R96): the cipher is told the key, then the key is
installed. -/
theorem setKeyReply_accepted {c : Cfg} {pl : Bytes} {e : Engine c} (hl : e.phase = .uninit ∨ e.phase = .keyed)
    (ha : cipherAccepts c pl = true) :
    setKeyReply pl e = .ok (respondOk (installKey pl (ciphSetKey pl e)) []) := by
  have hc : e.phase ≠ .cfgerr := by rcases hl with hl | hl <;> simp [hl]
  have hf : e.phase ≠ .fault := by rcases hl with hl | hl <;> simp [hl]
  simp only [setKeyReply, gate_legal (List.mem_pair.mpr hl) hc hf, ha, if_true]

/-- The whole of the registers after the key is installed (41_mask_schedule.md R90, R91): `LSTAR` is asked for under the new
key. -/
theorem installKey_ciphSetKey {c : Cfg} {pl : Bytes} (ha : cipherAccepts c pl = true) (e : Engine c) :
    installKey pl (ciphSetKey pl e) = { e with
      phase := .keyed, key := pl, lstar := cipherE c pl 0, ldollar := double (cipherE c pl 0), ltab := [],
      ncValid := false, bottom := 0, adbuf := [], sum := 0, offset := 0, checksum := 0, ctr := 0, dbuf := [],
      pthold := [], ciphLog := e.ciphLog ++ [.setKey pl true,
        .request .encrypt (blockBytes (0 : Block c.w)) (blockBytes (cipherE c pl 0))] } := by
  simp only [installKey, ciphSetKey, ha, ciph, cipherAnswer_encrypt, clearMessage, List.append_assoc,
    List.singleton_append]

/-- Settles O27: the opening checks and the cipher accept, and the key is installed. -/
theorem setKeyInstallsKey : Obligations.SetKeyInstallsKey := by
  intro pl s hl hlen
  have ha : cipherAccepts s.cfg pl = true := List.contains_iff_mem.mpr hlen
  calc exec (.setKey pl) s
    _ = deliver s (setKeyReply pl s.eng) := rfl
    _ = .next (answer s (respondOk (installKey pl (ciphSetKey pl s.eng)) [])) := by
      rw [setKeyReply_accepted hl ha, deliver_ok]
    _ = _ := by rw [installKey_ciphSetKey ha, respondOk]

end Sys2Proof.Machine
end

section
/-! PROOF. The bits of the nonce derivation (42_nonce_cache.md R102, R104, R107, R108). The bits of a Block made of a byte string
are those of its number, which has no bit beyond its bytes (`intOf_lt`), so the tag bit and the nonce share the `DOC` word
without overlap (`getLsbD_wordDoc`). Stretch and the initial Offset count bits from the first, as `getMsbD` does; a slice that
lies inside its word shifts that count by its start (`getMsbD_msbSlice`), and R6 says that the slices taken here do. -/

namespace Sys2Proof.Machine

/-! ### The number of a byte string and its bits -/

theorem intOf_concat (s : Bytes) (b : BitVec 8) : intOf (s ++ [b]) = 256 * intOf s + b.toNat := by
  rw [intOf, List.foldl_append]
  rfl

/-- A byte string is a number of its length's bits (00_scope.md R8). -/
theorem intOf_lt (s : Bytes) : intOf s < 2 ^ (8 * s.length) := by
  induction s using List.reverseRecOn with
  | nil => exact Nat.one_pos
  | append_singleton s b ih =>
    have hb : b.toNat < 256 := b.isLt
    rw [intOf_concat, List.length_append, List.length_singleton, Nat.mul_succ, Nat.pow_add]
    omega

theorem testBit_intOf_of_le {s : Bytes} {i : Nat} (h : 8 * s.length ≤ i) : (intOf s).testBit i = false :=
  Nat.testBit_lt_two_pow ((intOf_lt s).trans_le (Nat.pow_le_pow_right Nat.two_pos h))

theorem getLsbD_intBlock (w : Nat) (s : Bytes) (i : Nat) :
    (intBlock w s).getLsbD i = (decide (i < w) && (intOf s).testBit i) :=
  BitVec.getLsbD_ofNat w (intOf s) i

/-! ### The `DOC` nonce word -/

theorem formatNonce_doc {c : Cfg} (h : c.nonceFmt = .doc) (n : Bytes) : formatNonce c n = wordDoc c n := by
  rw [formatNonce, h]

/-- The bit in front is 'TAGMOD is not zero' and nothing else. -/
theorem getLsbD_tagBit {w m i : Nat} (hi : i < w) :
    ((if m ≠ 0 then 1 else 0 : Block w) <<< (w - 1)).getLsbD i = decide (m ≠ 0 ∧ i = w - 1) := by
  by_cases hm : m ≠ 0
  · have hone : (1 : Block w) <<< (w - 1) = BitVec.twoPow w (w - 1) := (BitVec.twoPow_eq w (w - 1)).symm
    have hlast : w - 1 < w := by omega
    rw [if_pos hm, hone, BitVec.getLsbD_twoPow]
    simp [hlast, hm, eq_comm]
  · have hzero : (0 : Block w) <<< (w - 1) = 0#w := BitVec.zero_shiftLeft (w - 1)
    rw [if_neg hm, hzero, BitVec.getLsbD_zero, decide_eq_false fun h => hm h.1]

theorem getLsbD_wordDoc {c : Cfg} (n : Bytes) {i : Nat} (hi : i < c.w) :
    (wordDoc c n).getLsbD i = (decide (tagMod c ≠ 0 ∧ i = c.w - 1) || (intOf n).testBit i) := by
  rw [wordDoc, BitVec.getLsbD_or, getLsbD_tagBit hi, getLsbD_intBlock, decide_eq_true hi, Bool.true_and]

/-- Settles O21: the nonce has no bit at or above `8·|N|`, the tag bit stands above that. -/
theorem docNonceWordLayout : Obligations.DocNonceWordLayout := by
  intro c n hdoc hlen
  have hw : 8 * n.length < c.w := Nat.mul_lt_mul_of_pos_left hlen (by decide)
  have hlast : 8 * n.length ≤ c.w - 1 := by omega
  rw [formatNonce_doc hdoc]
  refine ⟨?_, fun i hlow hhigh => ?_, fun i hi => ?_⟩
  · rw [getLsbD_wordDoc n (by omega), testBit_intOf_of_le hlast]
    simp [tagMod]
  · have hne : i ≠ c.w - 1 := by omega
    rw [getLsbD_wordDoc n (by omega), testBit_intOf_of_le hlow]
    simp [hne]
  · have hne : i ≠ c.w - 1 := by omega
    rw [getLsbD_wordDoc n (by omega)]
    simp [hne]

/-! ### `BOTTOM` and `TOPWORD` -/

theorem getLsbD_bottomOf (c : Cfg) (word : Block c.w) (i : Nat) :
    (bottomOf c word).getLsbD i = (decide (i < c.bottomBits) && word.getLsbD i) := by
  rw [bottomOf, BitVec.getLsbD_extractLsb', Nat.zero_add]

theorem getLsbD_topWord (c : Cfg) (word : Block c.w) (i : Nat) :
    (topWord c word).getLsbD i = (decide (c.bottomBits ≤ i) && word.getLsbD i) := by
  rw [topWord, BitVec.getLsbD_shiftLeft, BitVec.getLsbD_ushiftRight]
  by_cases hi : c.bottomBits ≤ i
  · rw [Nat.add_sub_cancel' hi]
    by_cases hw : i < c.w
    · simp [hi, hw]
    · simp [hw, BitVec.getLsbD_of_ge word i (by omega)]
  · simp [hi, Nat.lt_of_not_le hi]

/-- Settles O25, on either side of bit `BOTTOM_BITS`. -/
theorem topAndBottomSplitTheWord : Obligations.TopAndBottomSplitTheWord := by
  intro c word i
  refine ⟨fun hlow => ⟨?_, ?_⟩, fun hhigh => ?_⟩
  · rw [getLsbD_bottomOf, decide_eq_true hlow, Bool.true_and]
  · rw [getLsbD_topWord, decide_eq_false (Nat.not_le.mpr hlow), Bool.false_and]
  · rw [getLsbD_topWord, decide_eq_true hhigh, Bool.true_and]

/-! ### Stretch and the initial Offset -/

/-- A slice inside its word: its bit `k` is bit `s + k` of the word, counted from the first. -/
theorem getMsbD_msbSlice {n s len k : Nat} (x : BitVec n) (hin : s + len ≤ n) (hk : k < len) :
    (msbSlice x s len).getMsbD k = x.getMsbD (s + k) := by
  have hbit : n - (n - s - len + len - k) = s + k := by omega
  have hle : n - s - len + len - k ≤ n := by omega
  rw [msbSlice, BitVec.getMsbD_extractLsb', hbit, decide_eq_true hk, decide_eq_true hle, Bool.true_and, Bool.true_and]

/-- Stretch begins with Ktop. -/
theorem getMsbD_stretch_ktop (c : Cfg) (ktop : Block c.w) {k : Nat} (hk : k < c.w) :
    (stretch c ktop).getMsbD k = ktop.getMsbD k := by
  rw [stretch, BitVec.getMsbD_append, if_neg (Nat.not_le.mpr hk)]

/-- The `EXT_BITS` bits that follow, where both slices of Ktop lie inside it (00_scope.md R6). -/
theorem getMsbD_stretch_ext {c : Cfg} (ktop : Block c.w) (hfit : c.extBits + c.stretchShift ≤ c.w) {k : Nat}
    (hk : k < c.extBits) :
    (stretch c ktop).getMsbD (c.w + k) = (ktop.getMsbD k ^^ ktop.getMsbD (c.stretchShift + k)) := by
  have hlead : (msbSlice ktop 0 c.extBits).getMsbD k = ktop.getMsbD k := by
    rw [getMsbD_msbSlice ktop (by omega) hk, Nat.zero_add]
  have hshifted := getMsbD_msbSlice (s := c.stretchShift) ktop (by omega) hk
  rw [stretch, BitVec.getMsbD_append, if_pos (Nat.le_add_right c.w k), Nat.add_sub_cancel_left, BitVec.getMsbD_xor,
    hlead, hshifted]

/-- `BOTTOM` is at most `EXT_BITS`, so the Offset's slice ends inside Stretch (00_scope.md R6). -/
theorem getMsbD_offset0 {c : Cfg} (str : BitVec (c.w + c.extBits)) (bottom : BitVec c.bottomBits)
    (hext : 2 ^ c.bottomBits - 1 ≤ c.extBits) {k : Nat} (hk : k < c.w) :
    (offset0 c str bottom).getMsbD k = str.getMsbD (bottom.toNat + k) := by
  have hbottom : bottom.toNat ≤ c.extBits := (Nat.le_sub_one_of_lt bottom.isLt).trans hext
  exact getMsbD_msbSlice str (by omega) hk

/-- For `BOTTOM = 0` the Offset is Ktop, the beginning of Stretch. -/
theorem offset0_stretch_zero {c : Cfg} (ktop : Block c.w) (hext : 2 ^ c.bottomBits - 1 ≤ c.extBits) :
    offset0 c (stretch c ktop) 0 = ktop := by
  refine BitVec.eq_of_getMsbD_eq fun k hk => ?_
  calc (offset0 c (stretch c ktop) 0).getMsbD k
    _ = (stretch c ktop).getMsbD ((0 : BitVec c.bottomBits).toNat + k) := getMsbD_offset0 _ _ hext hk
    _ = (stretch c ktop).getMsbD k := congrArg _ (Nat.zero_add k)
    _ = ktop.getMsbD k := getMsbD_stretch_ktop c ktop hk

/-- Settles O26: the two parts of Stretch, the slice of the Offset, and the slice that starts at bit 0. -/
theorem stretchAndInitialOffset : Obligations.StretchAndInitialOffset := by
  intro c ktop bottom hext hfit
  refine ⟨fun _ hk => getMsbD_stretch_ktop c ktop hk, fun _ hk => getMsbD_stretch_ext ktop hfit hk,
    fun _ hk => getMsbD_offset0 _ bottom hext hk, ?_⟩
  rintro rfl
  exact offset0_stretch_zero ktop hext

end Sys2Proof.Machine
end

section
/-! PROOF. A decrypting FINISH whose data cannot hold a tag (45_tag_finish.md R146): it is refused before the data pass, so the
only effects are those of taking AUTH_FAIL (R145, R147), and the record of the cipher port is not touched. -/

namespace Sys2Proof.Machine

/-- FINISH during a message of a decrypting engine is what follows its phase checks (45_tag_finish.md R144). -/
theorem finishReply_dec {c : Cfg} {e : Engine c} (hl : e.phase = .started ∨ e.phase = .processing) (hd : c.dir = .dec)
    (pl : Bytes) : finishReply pl e = finishDec pl e := by
  simp only [finishReply, gate_message hl, hd]

theorem finishDec_of_short {c : Cfg} {e : Engine c} {pl : Bytes} (h : e.dbuf.length + pl.length < c.taglen) :
    finishDec pl e = .ok (fail .authFail e) :=
  if_pos (List.length_append.trans_lt h)

/-- Taking AUTH_FAIL ends the message as an accepted FINISH does, with no payload (45_tag_finish.md R145, R147). -/
theorem fail_authFail {c : Cfg} (e : Engine c) : fail .authFail e = ⟨endMessage e, .err .authFail, []⟩ := rfl

/-- Settles O39: too short for a tag, FINISH takes AUTH_FAIL on the registers as it found them. -/
theorem shortInputFailsAuthentication : Obligations.ShortInputFailsAuthentication := by
  intro pl s hl hd hshort
  calc exec (.finish pl) s
    _ = deliver s (finishReply pl s.eng) := rfl
    _ = .next (answer s (fail .authFail s.eng)) := by
      rw [finishReply_dec hl hd, finishDec_of_short hshort, deliver_ok]
    _ = _ := by rw [fail_authFail, endMessage, clearMessage]

end Sys2Proof.Machine
end

section
/-! PROOF. Every step keeps the invariant of the registers (10_state.md R21 to R38). What each command can answer is read off
`Laws/Commands.lean`; left to show is that the registers it leaves are those of their phase. Two facts carry the argument: a
table grown by the schedule stays right (`KeyClassOk.grown`), and the walk of UPDATE goes on where the last one stopped
(`walk_add`). -/

namespace Sys2Proof.Machine

/-! ### The invariant, phase by phase -/

theorem not_overCap_zero (cap : Option Nat) : overCap cap 0 = false := by
  cases cap with
  | none => rfl
  | some m => exact decide_eq_false (Nat.not_lt_zero m)

/-- An engine that is not in `CFGERR` was legally configured (70_reset_and_hazards.md R182). -/
theorem Engine.Inv.legal {c : Cfg} {e : Engine c} (h : e.Inv) (hp : e.phase ≠ .cfgerr) : cfgLegal c = true := by
  cases hphase : e.phase <;> simp only [Engine.Inv, hphase] at h
  case cfgerr => exact absurd hphase hp
  all_goals exact h.1

theorem Engine.inv_uninit_iff {c : Cfg} {e : Engine c} (hp : e.phase = .uninit) :
    e.Inv ↔ cfgLegal c = true ∧ e = { Engine.reset c with ciphLog := e.ciphLog } := by
  simp only [Engine.Inv, hp]

theorem Engine.inv_keyed_iff {c : Cfg} {e : Engine c} (hp : e.phase = .keyed) :
    e.Inv ↔ cfgLegal c = true ∧ KeyClassOk e ∧ MessageClear e ∧ overCap c.adMax e.adbuf.length = false := by
  simp only [Engine.Inv, hp]

/-- What the invariant says during a message, before and after its first UPDATE alike. -/
theorem Engine.Inv.inMessage {c : Cfg} {e : Engine c} (h : e.Inv) (hp : e.phase = .started ∨ e.phase = .processing) :
    InMessage e ∧ overCap c.adMax e.adbuf.length = false := by
  rcases hp with hp | hp <;> simp only [Engine.Inv, hp] at h
  · obtain ⟨-, -, hmsg, had, -⟩ := h
    exact ⟨hmsg, had⟩
  · obtain ⟨-, -, hmsg, had⟩ := h
    exact ⟨hmsg, had⟩

/-- Reset gives every register the value of 10_state.md R38, legal configuration or not. -/
theorem reset_inv (c : Cfg) (log : List CiphEvent) : ({ Engine.reset c with ciphLog := log } : Engine c).Inv := by
  cases hc : cfgLegal c <;> simp only [Engine.Inv, reset_phase, hc, Bool.false_eq_true, if_false, if_true, and_self]

/-! ### The key class -/

/-- Blocks that have a step grow the table by the schedule and within its depth. -/
theorem KeyClassOk.grown {c : Cfg} {e : Engine c} {k n : Nat} {tab : List (Block c.w)} (h : KeyClassOk e)
    (hg : TableGrown e.lstar k n e.ltab tab)
    (hfit : ∀ d, c.lDepth = some d → ∀ i, k < i → i ≤ k + n → ntz i < d) : KeyClassOk { e with ltab := tab } := by
  obtain ⟨hacc, hlstar, ⟨hldollar, -⟩, hcache, hdepth⟩ := h
  obtain ⟨-, hentries, -, hbound⟩ := hg
  exact ⟨hacc, hlstar, ⟨hldollar, hentries⟩, hcache, fun d hd => hbound d (hdepth d hd) (hfit d hd)⟩

/-- A freshly installed key: empty table, invalid cache. -/
theorem installKey_inv {c : Cfg} {pl : Bytes} (hc : cfgLegal c = true) (ha : cipherAccepts c pl = true) (e : Engine c) :
    (installKey pl e).Inv :=
  ⟨hc, ⟨ha, rfl, ⟨rfl, fun _ hi => absurd hi (Nat.not_lt_zero _)⟩, fun hv => absurd hv Bool.false_ne_true,
    fun _ _ => Nat.zero_le _⟩, ⟨rfl, rfl, rfl, rfl, rfl, rfl, rfl⟩, not_overCap_zero _⟩

/-- The transaction of a refused SET_KEY shows in the record of the cipher port only. -/
theorem ciphSetKey_inv {c : Cfg} {e : Engine c} (pl : Bytes) (hp : e.phase = .uninit ∨ e.phase = .keyed) (h : e.Inv) :
    (ciphSetKey pl e).Inv := by
  rcases hp with hp | hp
  · rw [Engine.inv_uninit_iff hp] at h
    obtain ⟨hc, he⟩ := h
    exact (Engine.inv_uninit_iff (e := ciphSetKey pl e) hp).mpr ⟨hc, congrArg (ciphSetKey pl) he⟩
  · exact (Engine.inv_keyed_iff (e := ciphSetKey pl e) hp).mpr ((Engine.inv_keyed_iff hp).mp h)

/-! ### The message -/

/-- START: the digest is that of the AD, the Offset that of the nonce, the cache holds what a miss computes. -/
theorem beginMessage_inv {c : Cfg} (pl : Bytes) {e : Engine c} (hp : e.phase = .keyed) (h : e.Inv)
    (hfit : AdBlocksFit c (e.adbuf.length / c.bs)) : (beginMessage pl e).Inv := by
  obtain ⟨hc, hk, -, had⟩ := (Engine.inv_keyed_iff hp).mp h
  obtain ⟨hbs, -⟩ := bounds_of_cfgLegal hc
  obtain ⟨tab, hregs, hgrown⟩ := beginMessage_spec pl hk
  obtain ⟨hacc, hlstar, htab, -, hdepth⟩ := hk.grown hgrown fun d hd i hi hi' => hfit d hd i hi (by omega)
  rw [hregs]
  exact ⟨hc, ⟨hacc, hlstar, htab, fun _ => ⟨rfl, rfl⟩, hdepth⟩,
    ⟨rfl, rfl, rfl, fun b _ => Nat.two_pow_pos b, hbs, fun _ => rfl, fun _ => (Nat.zero_mul _).symm, not_overCap_zero _⟩,
    had, rfl, rfl, rfl, rfl⟩

@[simp] theorem blocksOut_length {c : Cfg} (e : Engine c) (t : Bytes) (n : Nat) : (blocksOut e t n).length = n * c.bs := by
  simp [blocksOut, List.length_flatMap]

/-- Less than a block is left after the full blocks (10_state.md R32). -/
theorem tailBytes_length_lt {c : Cfg} (hbs : 0 < c.bs) (t : Bytes) : (tailBytes c t).length < c.bs := by
  have hdiv := Nat.div_add_mod' t.length c.bs
  have hmod := Nat.mod_lt t.length hbs
  rw [tailBytes, List.length_drop]
  omega

/-- The counter stays below a finite bound: the last of the new blocks has a step, and without new blocks it stands still. -/
theorem BlocksFit.ctr_lt {c : Cfg} {k n b : Nat} (h : BlocksFit c k n) (hb : c.ctrBits = some b) (hk : k < 2 ^ b) :
    k + n < 2 ^ b := by
  cases n with
  | zero => exact hk
  | succ n => exact h.1 b hb _ (by omega) le_rfl

/-- UPDATE: the Offset walks on, the buffers keep their bounds (44_core_loop.md R133, R134). -/
theorem updated_inMessage {c : Cfg} {e : Engine c} {t : Bytes} (tab : List (Block c.w)) (hbs : 0 < c.bs) (h : InMessage e)
    (hfit : BlocksFit c e.ctr (t.length / c.bs))
    (hroom : ¬(c.dir = .dec ∧ overCap c.ptHoldMax (e.pthold.length + t.length / c.bs * c.bs) = true)) :
    InMessage (updated e t tab) := by
  obtain ⟨hsum, hvalid, hoffset, hctr, -, henc, hdec, hcap⟩ := h
  have hwalk : fullOffset e t = walk e.lstar (offset0 c e.ncStretch e.bottom) 0 (e.ctr + t.length / c.bs) := by
    rw [fullOffset, hoffset, ← walk_add, Nat.zero_add]
  refine ⟨hsum, hvalid, hwalk, fun b hb => hfit.ctr_lt hb (hctr b hb), tailBytes_length_lt hbs t, ?_⟩
  cases hd : c.dir with
  | enc => simpa [updated, hd] using ⟨henc hd, hcap⟩
  | dec => simpa [updated, hd, hdec hd, Nat.add_mul] using hroom

theorem updated_inv {c : Cfg} {e : Engine c} {t : Bytes} {tab : List (Block c.w)} (h : e.Inv)
    (hp : e.phase = .started ∨ e.phase = .processing) (hfit : BlocksFit c e.ctr (t.length / c.bs))
    (hroom : ¬(c.dir = .dec ∧ overCap c.ptHoldMax (e.pthold.length + t.length / c.bs * c.bs) = true))
    (hg : TableGrown e.lstar e.ctr (t.length / c.bs) e.ltab tab) : (updated e t tab).Inv := by
  have hc := h.legal (by rcases hp with hp | hp <;> simp [hp])
  obtain ⟨hbs, -⟩ := bounds_of_cfgLegal hc
  obtain ⟨hmsg, had⟩ := h.inMessage hp
  exact ⟨hc, (h.keyClassOk (.inr (List.mem_pair.mpr hp))).grown hg hfit.2, updated_inMessage tab hbs hmsg hfit hroom, had⟩

/-- FINISH clears the message and keeps the key (45_tag_finish.md R147). -/
theorem finished_inv {c : Cfg} {e : Engine c} {tab : List (Block c.w)} (log : List CiphEvent)
    (hc : cfgLegal c = true) (hk : KeyClassOk { e with ltab := tab }) : (finished e tab log).Inv :=
  ⟨hc, hk, ⟨rfl, rfl, rfl, rfl, rfl, rfl, rfl⟩, not_overCap_zero _⟩

/-! ### Every command keeps the invariant -/

/-- The opening checks keep the registers or take them to `FAULT`, so the invariant is a matter of the legal phases. -/
theorem inv_of_gate {c : Cfg} {legal : List Phase} {e : Engine c} {body : Except Refusal (Reply c)} {r : Reply c}
    (he : e.Inv) (h : gate legal e body = .ok r)
    (hb : cfgLegal c = true → e.phase ∈ legal → r.eng.Inv) : r.eng.Inv := by
  rcases gate_ok h with ⟨-, rfl⟩ | ⟨-, rfl⟩ | ⟨hc, -, -, rfl⟩ | ⟨hc, -, hl, -⟩
  · exact he
  · exact he
  · exact ⟨he.legal hc, rfl⟩
  · exact hb (he.legal hc) hl

theorem setKeyReply_inv {c : Cfg} {pl : Bytes} {e : Engine c} {r : Reply c} (he : e.Inv)
    (h : setKeyReply pl e = .ok r) : r.eng.Inv := by
  refine inv_of_gate he h fun hc hl => ?_
  have hp := List.mem_pair.mp hl
  rcases setKeyReply_ok hp h with ⟨ha, rfl⟩ | ⟨-, rfl⟩
  · exact installKey_inv hc ha _
  · exact ciphSetKey_inv pl hp he

theorem setAdReply_inv {c : Cfg} {pl : Bytes} {e : Engine c} {r : Reply c} (he : e.Inv)
    (h : setAdReply pl e = .ok r) : r.eng.Inv := by
  refine inv_of_gate he h fun hc hl => ?_
  have hp := List.mem_singleton.mp hl
  obtain ⟨-, hk, hclear, -⟩ := (Engine.inv_keyed_iff hp).mp he
  rcases setAdReply_ok hp h with ⟨hcap, rfl⟩ | ⟨-, rfl⟩
  · exact (Engine.inv_keyed_iff (e := { e with adbuf := pl }) hp).mpr ⟨hc, hk, hclear, hcap⟩
  · exact he

theorem startReply_inv {c : Cfg} {pl : Bytes} {e : Engine c} {r : Reply c} (he : e.Inv)
    (h : startReply pl e = .ok r) : r.eng.Inv := by
  refine inv_of_gate he h fun _ hl => ?_
  have hp := List.mem_singleton.mp hl
  rcases startReply_ok hp h with ⟨-, rfl⟩ | ⟨-, -, hfit, rfl⟩
  · exact he
  · exact beginMessage_inv pl hp he hfit

theorem updateReply_inv {c : Cfg} {pl : Bytes} {e : Engine c} {r : Reply c} (he : e.Inv)
    (h : updateReply pl e = .ok r) : r.eng.Inv := by
  refine inv_of_gate he h fun _ hl => ?_
  have hp := List.mem_pair.mp hl
  rcases updateReply_ok hp (he.keyClassOk (.inr hl)).tableOk h with ⟨-, -, rfl⟩ | ⟨hroom, hfit, tab, rfl, hg⟩
  · exact he
  · exact updated_inv he hp hfit hroom hg

theorem finishReply_inv {c : Cfg} {pl : Bytes} {e : Engine c} {r : Reply c} (he : e.Inv)
    (h : finishReply pl e = .ok r) : r.eng.Inv := by
  refine inv_of_gate he h fun hc hl => ?_
  have hp := List.mem_pair.mp hl
  have hk := he.keyClassOk (.inr hl)
  cases hd : c.dir with
  | enc =>
    obtain ⟨hfit, tab, rfl, hg⟩ := finishReply_enc_ok hp hd hk.tableOk h
    exact finished_inv _ hc (hk.grown hg hfit.2)
  | dec =>
    rcases finishReply_dec_ok hp hd hk.tableOk h with ⟨-, rfl⟩ | ⟨-, hfit, tab, hr, hg⟩
    · exact finished_inv _ hc hk
    · rcases hr with ⟨-, rfl⟩ | ⟨-, rfl⟩ <;> exact finished_inv _ hc (hk.grown hg hfit.2)

theorem exec_inv {i : Instr} {s t : State} (hs : s.Inv) (h : exec i s = .next t) : t.Inv := by
  cases i with
  | setKey pl =>
    obtain ⟨r, hr, rfl⟩ := deliver_next.mp h
    exact setKeyReply_inv hs hr
  | setAd pl =>
    obtain ⟨r, hr, rfl⟩ := deliver_next.mp h
    exact setAdReply_inv hs hr
  | start pl =>
    obtain ⟨r, hr, rfl⟩ := deliver_next.mp h
    exact startReply_inv hs hr
  | update pl =>
    obtain ⟨r, hr, rfl⟩ := deliver_next.mp h
    exact updateReply_inv hs hr
  | finish pl =>
    obtain ⟨r, hr, rfl⟩ := deliver_next.mp h
    exact finishReply_inv hs hr

/-- Every host event leaves a state of the invariant: a reset by its values, a word that spells no command by changing no
register. -/
theorem step_inv {s t : State} (hs : s.Inv) (h : step s = .next t) : t.Inv := by
  match hin : s.cmdIn with
  | [] =>
    rw [step_idle hin] at h
    obtain rfl := Host.Outcome.next.inj h
    exact hs
  | .reset st :: rest =>
    rw [step_reset hin] at h
    obtain rfl := Host.Outcome.next.inj h
    exact reset_inv _ _
  | .command cmd :: rest =>
    cases hf : cmd.framed with
    | false =>
      rw [step_unframed hin hf] at h
      cases h
    | true =>
      cases hd : decodeCommand cmd with
      | ok i =>
        rw [step_decoded hin hf hd] at h
        exact exec_inv (s := { s with cmdIn := rest }) hs h
      | error x =>
        rw [step_undecoded hin hf hd] at h
        obtain rfl := Host.Outcome.next.inj h
        exact hs

end Sys2Proof.Machine
end

section
/-! PROOF. An engine whose every START misses the nonce cache cannot be told from one that keeps it (70_reset_and_hazards.md
R187). The relation between the two runs is 'same visible part, both states of the invariant': emptying the cache keeps it
(`dropCache_visible`, `dropCache_inv`), and a step keeps it because the cache is invisible (`hiddenStateIsInvisible`) and the
invariant is kept (`step_inv`). Induction on the length of the run does the rest. -/

namespace Sys2Proof.Machine

/-! ### Emptying the cache -/

/-- The cache is no part of what a host can see. -/
@[simp] theorem dropCache_visible (s : State) : s.dropCache.visible = s.visible := by
  by_cases hp : s.eng.phase = .keyed
  · rw [State.dropCache, if_pos hp]
    rfl
  · rw [State.dropCache, if_neg hp]

/-- Nothing is asked of an invalid cache (42_nonce_cache.md R109). -/
theorem KeyClassOk.invalidate {c : Cfg} {e : Engine c} (h : KeyClassOk e) : KeyClassOk { e with ncValid := false } := by
  obtain ⟨hacc, hlstar, htab, -, hdepth⟩ := h
  exact ⟨hacc, hlstar, htab, fun hv => absurd hv Bool.false_ne_true, hdepth⟩

theorem dropCache_inv {s : State} (h : s.Inv) : s.dropCache.Inv := by
  by_cases hp : s.eng.phase = .keyed
  · obtain ⟨hc, hk, hclear, had⟩ := (Engine.inv_keyed_iff hp).mp h
    rw [State.dropCache, if_pos hp]
    exact (Engine.inv_keyed_iff (e := { s.eng with ncValid := false }) hp).mpr ⟨hc, hk.invalidate, hclear, had⟩
  · rw [State.dropCache, if_neg hp]
    exact h

/-! ### The two runs -/

/-- Two outcomes a host cannot tell apart are two next states that look alike, or one refusal: this machine has no fault. -/
theorem sameToHost_cases {x y : Host.Outcome State Fault Refusal} (h : SameToHost x y) :
    (∃ s t, x = .next s ∧ y = .next t ∧ s.visible = t.visible) ∨ ∃ r, x = .refused r ∧ y = .refused r := by
  rw [sameToHost_iff_view] at h
  match x, y with
  | .next s, .next t => exact .inl ⟨s, t, rfl, rfl, Host.Outcome.next.inj h⟩
  | .refused a, .refused b => exact .inr ⟨a, rfl, by rw [Host.Outcome.refused.inj h]⟩
  | .next _, .refused _ => cases h
  | .refused _, .next _ => cases h

theorem runMissing_of_next {s t : State} (h : step s.dropCache = .next t) (k : Nat) :
    runMissing (k + 1) s = runMissing k t := by
  simp only [runMissing, h]

theorem runMissing_of_refused {s : State} {r : Refusal} (h : step s.dropCache = .refused r) (k : Nat) :
    runMissing (k + 1) s = .refused r := by
  simp only [runMissing, h]

theorem run_of_next {s t : State} (h : step s = .next t) (k : Nat) :
    Host.Core.run Sys2Proof.core (k + 1) s = Host.Core.run Sys2Proof.core k t := by
  have hstep : Sys2Proof.core.step s = .next t := h
  simp only [Host.Core.run, hstep]

theorem run_of_refused {s : State} {r : Refusal} (h : step s = .refused r) (k : Nat) :
    Host.Core.run Sys2Proof.core (k + 1) s = .refused r := by
  have hstep : Sys2Proof.core.step s = .refused r := h
  simp only [Host.Core.run, hstep]

/-- The simulation: from states that look alike, the missing run and the run itself stay alike. -/
theorem runMissing_sameToHost_run (k : Nat) {s t : State} (hs : s.Inv) (ht : t.Inv) (hst : s.visible = t.visible) :
    SameToHost (runMissing k s) (Host.Core.run Sys2Proof.core k t) := by
  induction k generalizing s t with
  | zero => exact hst
  | succ k ih =>
    have hstep : SameToHost (step s.dropCache) (step t) :=
      hiddenStateIsInvisible _ _ (dropCache_inv hs) ht ((dropCache_visible s).trans hst)
    rcases sameToHost_cases hstep with ⟨s', t', hs', ht', hst'⟩ | ⟨r, hs', ht'⟩
    · rw [runMissing_of_next hs', run_of_next ht']
      exact ih (step_inv (dropCache_inv hs) hs') (step_inv ht ht') hst'
    · rw [runMissing_of_refused hs', run_of_refused ht']
      rfl

/-- Settles O50: both runs begin in one state. -/
theorem alwaysMissingChangesNothing : Obligations.AlwaysMissingChangesNothing :=
  fun k _ hs => runMissing_sameToHost_run k hs hs rfl

end Sys2Proof.Machine
end

section
/-! PROOF. Every step keeps the invariant, and the codes on the command port go both ways (00_scope.md R8, 30_encoding.md
R60 to R68). The number of a byte string is read from its first byte on (`intOf_cons`), so `bytes_n` and `int` are inverse
to each other (`intOf_bytesOf`, `bytesOf_intOf`). What the decoder looks at is the two upper fields of the word
(`and_selMask`): a transaction decodes to the command whose opcode they spell and whose operand follows
(`decodeCommand_eq_ok_iff`), and to nothing else. -/

namespace Sys2Proof.Machine

open Sys2Proof.Laws

/-- Settles O10: the step lemma of the invariant. -/
theorem stepKeepsInvariant : Obligations.StepKeepsInvariant := fun _ _ hs h => step_inv hs h

/-! ### Bytes and numbers -/

theorem intOf_cons (b : Byte) (s : Bytes) : intOf (b :: s) = b.toNat * 2 ^ (8 * s.length) + intOf s := by
  induction s using List.reverseRecOn with
  | nil => simp [intOf]
  | append_singleton s x ih =>
    rw [← List.cons_append, intOf_concat, ih, intOf_concat, List.length_append, List.length_singleton, Nat.mul_succ,
      Nat.pow_add]
    ring

/-- The number of the low `n` bytes. -/
theorem intOf_bytesOf {w : Nat} (n : Nat) (x : BitVec w) : intOf (bytesOf n x) = x.toNat % 2 ^ (8 * n) := by
  induction n with
  | zero => simp [bytesOf, intOf, Nat.mod_one]
  | succ n ih =>
    rw [bytesOf, intOf_cons, bytesOf_length, ih, BitVec.extractLsb'_toNat, Nat.shiftRight_eq_div_pow, Nat.mul_succ,
      Nat.pow_add, Nat.mod_mul, Nat.mul_comm (2 ^ (8 * n)), Nat.add_comm]

/-- Byte strings of one length have different numbers. -/
theorem eq_of_intOf_eq {s t : Bytes} (hlen : s.length = t.length) (h : intOf s = intOf t) : s = t := by
  induction s generalizing t with
  | nil => exact (List.length_eq_zero_iff.mp hlen.symm).symm
  | cons b s ih =>
    obtain ⟨d, t, rfl⟩ := List.exists_cons_of_length_eq_add_one hlen.symm
    have hlen' : s.length = t.length := Nat.succ.inj hlen
    have hs := intOf_lt s
    have ht := intOf_lt t
    rw [intOf_cons, intOf_cons, hlen'] at h
    rw [hlen'] at hs
    have hlow : intOf s = intOf t := by
      rw [← Nat.mod_eq_of_lt hs, ← Nat.mul_add_mod' b.toNat, h, Nat.mul_add_mod', Nat.mod_eq_of_lt ht]
    have hhigh : b.toNat = d.toNat := Nat.eq_of_mul_eq_mul_right (Nat.two_pow_pos (8 * t.length)) (by omega)
    rw [BitVec.eq_of_toNat_eq hhigh, ih hlen' hlow]

/-- A byte string comes back from any word that is wide enough for it. -/
theorem bytesOf_intOf {w : Nat} (s : Bytes) (hw : 8 * s.length ≤ w) : bytesOf s.length (BitVec.ofNat w (intOf s)) = s := by
  refine eq_of_intOf_eq (bytesOf_length ..) ?_
  have hlt := intOf_lt s
  rw [intOf_bytesOf, BitVec.toNat_ofNat, Nat.mod_eq_of_lt (hlt.trans_le (Nat.pow_le_pow_right Nat.two_pos hw)),
    Nat.mod_eq_of_lt hlt]

theorem ofNat_intOf_bytesOf {n : Nat} (x : BitVec (8 * n)) : BitVec.ofNat (8 * n) (intOf (bytesOf n x)) = x := by
  rw [intOf_bytesOf, Nat.mod_eq_of_lt x.isLt, BitVec.ofNat_toNat, BitVec.setWidth_eq]

theorem getElem?_bytesOf {w : Nat} (n : Nat) (x : BitVec w) {k : Nat} (hk : k < n) :
    (bytesOf n x)[k]? = some (x.extractLsb' (8 * (n - 1 - k)) 8) := by
  induction n generalizing k with
  | zero => omega
  | succ n ih =>
    cases k with
    | zero => rfl
    | succ k =>
      rw [bytesOf, List.getElem?_cons_succ, ih (by omega), show n + 1 - 1 - (k + 1) = n - 1 - k by omega]

/-- Settles O11: `bytes_n` gives the number back, and its bytes stand where they are cut. -/
theorem bytesAndBitStringsInverse : Obligations.BytesAndBitStringsInverse :=
  ⟨fun _ x => ofNat_intOf_bytesOf x, fun s => bytesOf_intOf s le_rfl, fun n x _ hk => getElem?_bytesOf n x hk⟩

/-! ### The command word by its fields -/

/-- A word is its three fields side by side (30_encoding.md R60). -/
theorem append_fields (cw : BitVec 64) : opcField cw ++ rsvField cw ++ lenField cw = cw := by
  have hupper : opcField cw ++ rsvField cw = cw.extractLsb' 48 16 :=
    BitVec.extractLsb'_append_extractLsb'_eq_extractLsb' rfl
  rw [hupper]
  exact (BitVec.extractLsb'_append_extractLsb'_eq_extractLsb' (w := 64) rfl).trans BitVec.extractLsb'_eq_self

/-- The decoder's mask keeps the two upper fields. -/
theorem and_selMask (cw : BitVec 64) : cw &&& selMask = opcField cw ++ rsvField cw ++ 0#48 := by
  have hlen : lenField (cw &&& selMask) = 0#48 := by
    have hmask : selMask.extractLsb' 0 48 = 0#48 := by decide
    rw [lenField, BitVec.extractLsb'_and, hmask, BitVec.and_zero]
  rw [← append_fields (cw &&& selMask), opcField_and_selMask, rsvField_and_selMask, hlen]

/-- Which transactions decode to which command: the upper fields are the opcode and zero, the payload is the operand
(30_encoding.md R65, R66). -/
theorem decodeCommand_eq_ok_iff {cmd : Command} {i : Instr} :
    decodeCommand cmd = .ok i ↔ opcField cmd.cw = opcodeOf i ∧ rsvField cmd.cw = 0x00#8 ∧ i.payload = cmd.payload := by
  constructor
  · intro h
    obtain ⟨hopc, hrsv⟩ := fields_of_decodeCommand h
    refine ⟨hopc, hrsv, ?_⟩
    simp only [decodeCommand] at h
    split_ifs at h
    all_goals
      obtain rfl := Except.ok.inj h
      rfl
  · rintro ⟨hopc, hrsv, hpl⟩
    have hsel : cmd.cw &&& selMask = opcodeOf i ++ 0x00#8 ++ 0#48 := by rw [and_selMask, hopc, hrsv]
    simp only [decodeCommand, hsel, ← hpl]
    cases i with
    | setKey pl => exact if_pos (by rw [opcodeOf]; decide)
    | setAd pl =>
      iterate 1 rw [if_neg (by rw [opcodeOf]; decide)]
      exact if_pos (by rw [opcodeOf]; decide)
    | start pl =>
      iterate 2 rw [if_neg (by rw [opcodeOf]; decide)]
      exact if_pos (by rw [opcodeOf]; decide)
    | update pl =>
      iterate 3 rw [if_neg (by rw [opcodeOf]; decide)]
      exact if_pos (by rw [opcodeOf]; decide)
    | finish pl =>
      iterate 4 rw [if_neg (by rw [opcodeOf]; decide)]
      exact if_pos (by rw [opcodeOf]; decide)

/-- Which of the two reasons a decoder gives: the zero field is looked at first (30_encoding.md R66). -/
theorem decodeCommand_error {cmd : Command} {x : DecodeError} (h : decodeCommand cmd = .error x) :
    x = if rsvField cmd.cw ≠ 0x00#8 then .reservedField (rsvField cmd.cw) else .reservedOpcode (opcField cmd.cw) := by
  simp only [decodeCommand] at h
  split_ifs at h with h1 h2 h3 h4 h5 hrsv
  · rw [if_pos hrsv, Except.error.inj h]
  · rw [if_neg hrsv, Except.error.inj h]

/-- A word written out, by its two upper fields. -/
theorem decodeCommand_word {cw : BitVec 64} {i : Instr} (o : BitVec 8) (h : opcField cw = o ∧ rsvField cw = 0x00#8)
    (hi : opcodeOf i = o) : decodeCommand ⟨cw, i.payload⟩ = .ok i :=
  decodeCommand_eq_ok_iff.mpr ⟨h.1.trans hi.symm, h.2, rfl⟩

theorem decodeCommand_reservedOpcode {cw : BitVec 64} {o : BitVec 8} (pl : Bytes)
    (h : opcField cw = o ∧ rsvField cw = 0x00#8) (ho : 6 ≤ o.toNat) :
    decodeCommand ⟨cw, pl⟩ = .error (.reservedOpcode o) := by
  obtain ⟨hopc, hrsv⟩ := h
  obtain ⟨x, hx⟩ := decodeCommand_eq_error (cmd := ⟨cw, pl⟩) (.inr (.inl (hopc ▸ ho)))
  rw [hx, decodeCommand_error hx, if_neg (not_not.mpr hrsv), hopc]

theorem decodeCommand_reservedField {cw : BitVec 64} {r : BitVec 8} (pl : Bytes) (h : rsvField cw = r) (hr : r ≠ 0x00#8) :
    decodeCommand ⟨cw, pl⟩ = .error (.reservedField r) := by
  obtain ⟨x, hx⟩ := decodeCommand_eq_error (cmd := ⟨cw, pl⟩) (.inr (.inr (h ▸ hr)))
  rw [hx, decodeCommand_error hx, if_pos (h ▸ hr), h]

/-- Settles O1: five words with the fields of their commands, two without. -/
theorem wordsOfTheVectorsDecode : Obligations.WordsOfTheVectorsDecode := fun pl =>
  ⟨decodeCommand_word (i := .setKey pl) 0x01#8 (by decide) rfl, decodeCommand_word (i := .setAd pl) 0x02#8 (by decide) rfl,
    decodeCommand_word (i := .start pl) 0x03#8 (by decide) rfl, decodeCommand_word (i := .update pl) 0x04#8 (by decide) rfl,
    decodeCommand_word (i := .finish pl) 0x05#8 (by decide) rfl,
    decodeCommand_reservedOpcode pl (by decide) (by decide), decodeCommand_reservedField pl (by decide) (by decide)⟩

/-- Every opcode from 1 to 5 is that of a command, with any operand. -/
theorem exists_instr_of_opcode {o : BitVec 8} (h1 : 1 ≤ o.toNat) (h5 : o.toNat ≤ 5) (pl : Bytes) :
    ∃ i, opcodeOf i = o ∧ i.payload = pl := by
  obtain h | h | h | h | h : o.toNat = 1 ∨ o.toNat = 2 ∨ o.toNat = 3 ∨ o.toNat = 4 ∨ o.toNat = 5 := by omega
  · exact ⟨.setKey pl, BitVec.eq_of_toNat_eq h.symm, rfl⟩
  · exact ⟨.setAd pl, BitVec.eq_of_toNat_eq h.symm, rfl⟩
  · exact ⟨.start pl, BitVec.eq_of_toNat_eq h.symm, rfl⟩
  · exact ⟨.update pl, BitVec.eq_of_toNat_eq h.symm, rfl⟩
  · exact ⟨.finish pl, BitVec.eq_of_toNat_eq h.symm, rfl⟩

/-- Settles O4: a word decodes by its upper fields alone. -/
theorem onlyFiveOpcodesDecode : Obligations.OnlyFiveOpcodesDecode := by
  intro cmd
  constructor
  · rintro ⟨i, h⟩
    obtain ⟨hopc, hrsv, -⟩ := decodeCommand_eq_ok_iff.mp h
    rw [hopc]
    exact ⟨hrsv, opcodeOf_bounds i⟩
  · rintro ⟨hrsv, h1, h5⟩
    obtain ⟨i, hopc, hpl⟩ := exists_instr_of_opcode h1 h5 cmd.payload
    exact ⟨i, decodeCommand_eq_ok_iff.mpr ⟨hopc.symm, hrsv, hpl⟩⟩

/-- Settles O3: the decoder fixes opcode, zero field and operand, the framing fixes the length field. -/
theorem decodedCommandEncodesBack : Obligations.DecodedCommandEncodesBack := by
  intro cmd i hf h
  obtain ⟨hopc, hrsv, hpl⟩ := decodeCommand_eq_ok_iff.mp h
  have hlen : BitVec.ofNat 48 cmd.payload.length = lenField cmd.cw := by
    rw [of_decide_eq_true hf, BitVec.ofNat_toNat, BitVec.setWidth_eq, lenField]
  rw [encode, hpl, hlen, ← hopc, ← hrsv, append_fields]

/-! ### The byte stream -/

theorem decodeCommand_encode {i : Instr} (h : i.wellFormed = true) : decodeCommand (encode i) = .ok i := by
  obtain ⟨hopc, hrsv, -, hpl⟩ := EncodesFields.of_any i h
  exact decodeCommand_eq_ok_iff.mpr ⟨hopc, hrsv, hpl.symm⟩

/-- A transaction of the right length is taken off a byte stream whole, and nothing more (30_encoding.md R62, R68). -/
theorem takeCommand_toBytes {cmd : Command} (hlen : (lenField cmd.cw).toNat = cmd.payload.length) (rest : Bytes) :
    takeCommand (cmd.toBytes ++ rest) = some (cmd, rest) := by
  have hword : (bytesOf 8 cmd.cw).length = 8 := bytesOf_length 8 _
  have hback : BitVec.ofNat 64 (intOf (bytesOf 8 cmd.cw)) = cmd.cw := ofNat_intOf_bytesOf (n := 8) cmd.cw
  simp only [takeCommand, Command.toBytes, List.append_assoc, List.take_left' hword, List.drop_left' hword, hback, hlen,
    List.take_left, List.drop_left, List.length_append, hword]
  rw [if_neg (by omega), if_neg (by omega)]

/-- Settles O2: the bytes give the transaction back, the transaction its command. -/
theorem encodedBytesDecodeBack : Obligations.EncodedBytesDecodeBack := by
  intro i rest h
  obtain ⟨-, -, hlen, -⟩ := EncodesFields.of_any i h
  simp only [decodeStream, takeCommand_toBytes hlen, decodeCommand_encode h]

end Sys2Proof.Machine
end

section
/-! PROOF. The cipher behind the port and the block operations made of it (00_scope.md R10, 44_core_loop.md R127, R128,
95_test_vectors.md section 2). A Block and its bytes say the same (`intBlock_blockBytes`, `blockBytes_intBlock`), so each
round of TOY-w can be undone from the last step back; the arbitrary ciphers are permutations. What `WRAP` masks on the way
in it masks on the way out, so a decrypted block undoes an encrypted one under the same Offset (`fullDec_fullEnc`). -/

namespace Sys2Proof.Machine

/-! ### A Block and its bytes -/

theorem intBlock_blockBytes {c : Cfg} (b : Block c.w) : intBlock c.w (blockBytes b) = b := ofNat_intOf_bytesOf b

theorem blockBytes_intBlock {c : Cfg} {s : Bytes} (h : s.length = c.bs) : blockBytes (intBlock c.w s) = s := by
  rw [blockBytes, ← h]
  exact bytesOf_intOf s (by rw [Cfg.w, h])

/-! ### XOR with a mask, twice -/

theorem xor_cancel_left {w : Nat} (o b : Block w) : o ^^^ (o ^^^ b) = b := by
  rw [← BitVec.xor_assoc, BitVec.xor_self, BitVec.zero_xor]

theorem xor_cancel_swap {w : Nat} (o b : Block w) : o ^^^ b ^^^ o = b := by
  rw [BitVec.xor_comm (o ^^^ b), xor_cancel_left]

/-! ### TOY-w -/

@[simp] theorem toyAdd_length (k : Nat) (s : Bytes) : (toyAdd k s).length = s.length := by
  induction s generalizing k with
  | nil => rfl
  | cons b s ih => rw [toyAdd, List.length_cons, ih, List.length_cons]

@[simp] theorem toySub_length (k : Nat) (s : Bytes) : (toySub k s).length = s.length := by
  induction s generalizing k with
  | nil => rfl
  | cons b s ih => rw [toySub, List.length_cons, ih, List.length_cons]

theorem toySub_toyAdd (k : Nat) (s : Bytes) : toySub k (toyAdd k s) = s := by
  induction s generalizing k with
  | nil => rfl
  | cons b s ih => rw [toyAdd, toySub, ih, BitVec.add_sub_cancel]

theorem toyAdd_toySub (k : Nat) (s : Bytes) : toyAdd k (toySub k s) = s := by
  induction s generalizing k with
  | nil => rfl
  | cons b s ih => rw [toySub, toyAdd, ih, BitVec.sub_add_cancel]

theorem rotateRight_rotateLeft {w : Nat} (x : BitVec w) (r : Nat) : (x.rotateLeft r).rotateRight r = x := by
  refine BitVec.eq_of_getLsbD_eq fun i hi => ?_
  have hr := Nat.mod_lt r (Nat.zero_lt_of_lt hi)
  rw [BitVec.getLsbD_rotateRight, Bool.cond_decide]
  split_ifs with h
  · rw [BitVec.getLsbD_rotateLeft, Bool.cond_decide, if_neg (by omega), Nat.add_sub_cancel_left,
      decide_eq_true (by omega), Bool.true_and]
  · rw [BitVec.getLsbD_rotateLeft, Bool.cond_decide, if_pos (by omega), decide_eq_true hi, Bool.true_and]
    congr 1
    omega

theorem rotateLeft_rotateRight {w : Nat} (x : BitVec w) (r : Nat) : (x.rotateRight r).rotateLeft r = x := by
  refine BitVec.eq_of_getLsbD_eq fun i hi => ?_
  have hr := Nat.mod_lt r (Nat.zero_lt_of_lt hi)
  rw [BitVec.getLsbD_rotateLeft, Bool.cond_decide]
  split_ifs with h
  · rw [BitVec.getLsbD_rotateRight, Bool.cond_decide, if_neg (by omega), decide_eq_true (by omega), Bool.true_and]
    congr 1
    omega
  · rw [BitVec.getLsbD_rotateRight, Bool.cond_decide, if_pos (by omega), decide_eq_true hi, Bool.true_and]
    congr 1
    omega

theorem toyDec_toyEnc {c : Cfg} (key : Bytes) (b : Block c.w) : toyDec key (toyEnc key b) = b := by
  rw [toyEnc, toyDec, rotateRight_rotateLeft, blockBytes_intBlock (by rw [toyAdd_length, blockBytes_length]),
    toySub_toyAdd, intBlock_blockBytes, BitVec.xor_assoc, BitVec.xor_self, BitVec.xor_zero]

theorem toyEnc_toyDec {c : Cfg} (key : Bytes) (b : Block c.w) : toyEnc key (toyDec key b) = b := by
  rw [toyDec, toyEnc, BitVec.xor_assoc, BitVec.xor_self, BitVec.xor_zero,
    blockBytes_intBlock (by rw [toySub_length, blockBytes_length]), toyAdd_toySub, intBlock_blockBytes,
    rotateLeft_rotateRight]

/-! ### The two directions -/

theorem cipherD_cipherE (c : Cfg) (key : Bytes) (b : Block c.w) : cipherD c key (cipherE c key b) = b := by
  rw [cipherD, cipherE]
  cases c.cipher with
  | ext n => exact Equiv.symm_apply_apply _ b
  | toy => exact toyDec_toyEnc key b

theorem cipherE_cipherD (c : Cfg) (key : Bytes) (b : Block c.w) : cipherE c key (cipherD c key b) = b := by
  rw [cipherD, cipherE]
  cases c.cipher with
  | ext n => exact Equiv.apply_symm_apply _ b
  | toy => exact toyEnc_toyDec key b

/-- Settles O12, cipher by cipher. -/
theorem cipherDirectionsInvert : Obligations.CipherDirectionsInvert := fun c key b =>
  ⟨cipherD_cipherE c key b, cipherE_cipherD c key b⟩

/-! ### Full blocks -/

theorem fullEnc_out {c : Cfg} (x : Block c.w) (e : Engine c) :
    (fullEnc x e).1 = cipherE c e.key ((advance e).offset ^^^ x) ^^^ (advance e).offset := rfl

theorem fullDec_out {c : Cfg} (y : Block c.w) (e : Engine c) :
    (fullDec y e).1 = cipherD c e.key ((advance e).offset ^^^ y) ^^^ (advance e).offset := rfl

theorem fullDec_fullEnc {c : Cfg} (x : Block c.w) (e : Engine c) : (fullDec (fullEnc x e).1 e).1 = x := by
  rw [fullDec_out, fullEnc_out, BitVec.xor_comm (cipherE ..), xor_cancel_left, cipherD_cipherE, xor_cancel_swap]

theorem fullEnc_fullDec {c : Cfg} (y : Block c.w) (e : Engine c) : (fullEnc (fullDec y e).1 e).1 = y := by
  rw [fullEnc_out, fullDec_out, BitVec.xor_comm (cipherD ..), xor_cancel_left, cipherE_cipherD, xor_cancel_swap]

/-- Settles O32: the walk does not see the block, and the checksum takes the plaintext in both directions. -/
theorem fullDecInvertsFullEnc : Obligations.FullDecInvertsFullEnc := by
  intro c e x
  have hchecksum : (fullDec (fullEnc x e).1 e).2.checksum = e.checksum ^^^ (fullDec (fullEnc x e).1 e).1 := rfl
  rw [fullDec_fullEnc] at hchecksum
  exact ⟨fullDec_fullEnc x e, fullEnc_fullDec x e, rfl, rfl, hchecksum⟩

end Sys2Proof.Machine
end

section
/-! PROOF. Doubling and the mask schedule, continued (40_gf_doubling.md R83, R85, 41_mask_schedule.md R92 to R95). The
reduction constants are odd, so the carry of a doubling can be read off its lowest bit and nothing is lost
(`eq_zero_of_double_eq_zero`). The Gray codes of `n` and `n + 1` differ in bit `ntz (n + 1)` alone (`testBit_gray_succ`),
which is the entry the walk takes at block `n + 1`: so the walk and the sum over the Gray code grow alike
(`walk_eq_grayMask`). -/

namespace Sys2Proof.Machine

/-! ### The mask in place of the branch -/

theorem signExtend_ofBool (w : Nat) (b : Bool) : (BitVec.ofBool b).signExtend w = if b then BitVec.allOnes w else 0 := by
  refine BitVec.eq_of_getLsbD_eq fun i hi => ?_
  rw [BitVec.getLsbD_signExtend, BitVec.msb_ofBool, decide_eq_true hi, Bool.true_and]
  cases b with
  | true => simp +contextual [hi]
  | false => simp

/-- Settles O15: the mask is all ones or zero, as the carry is. -/
theorem doubleEqualsMaskedForm : Obligations.DoubleEqualsMaskedForm := by
  intro w b
  rw [signExtend_ofBool]
  cases hb : b.msb with
  | true => rw [double_of_carry hb, if_pos rfl, BitVec.and_allOnes]
  | false =>
    rw [double_of_no_carry hb, if_neg Bool.false_ne_true]
    exact (BitVec.xor_zero.symm).trans (congrArg _ BitVec.and_zero.symm)

/-! ### What doubling keeps -/

theorem rc_odd {w : Nat} (hw : w = 128 ∨ w = 192 ∨ w = 256 ∨ w = 512) : (rc w).getLsbD 0 = true := by
  obtain ⟨h128, h192, h256, h512⟩ := reductionConstants
  rcases hw with rfl | rfl | rfl | rfl
  · rw [h128, BitVec.getLsbD_ofNat]; decide
  · rw [h192, BitVec.getLsbD_ofNat]; decide
  · rw [h256, BitVec.getLsbD_ofNat]; decide
  · rw [h512, BitVec.getLsbD_ofNat]; decide

/-- With an odd constant a zero double had no carry, so all its bits are those of the Block, shifted. -/
theorem eq_zero_of_double_eq_zero {w : Nat} (hrc : (rc w).getLsbD 0 = true) {b : Block w} (h : double b = 0) : b = 0 := by
  have hbit : ∀ i, i < w → ((decide (0 < i) && b.getLsbD (i - 1)) ^^ (b.msb && (rc w).getLsbD i)) = false := fun i hi => by
    rw [← getLsbD_double b hi, h]
    exact BitVec.getLsbD_zero
  have hw : 0 < w := BitVec.lt_of_getLsbD hrc
  have hcarry : b.msb = false := by simpa [hrc] using hbit 0 hw
  refine BitVec.eq_of_getLsbD_eq fun i hi => ?_
  rw [show (0 : Block w).getLsbD i = false from BitVec.getLsbD_zero]
  rcases Nat.lt_or_ge (i + 1) w with hnext | hlast
  · simpa [hcarry] using hbit (i + 1) hnext
  · rw [BitVec.msb_eq_getLsbD_last] at hcarry
    rwa [show i = w - 1 by omega]

/-- Settles O17: a kernel of zero alone makes a linear map injective, and no doubling of the chain reaches zero first. -/
theorem doubleLosesNothing : Obligations.DoubleLosesNothing := by
  intro w hw
  have hker : ∀ {b : Block w}, double b = 0 → b = 0 := eq_zero_of_double_eq_zero (rc_odd hw)
  refine ⟨fun a b h => ?_, fun k b hb => ?_⟩
  · have hdiff : double (a ^^^ b) = 0 := by
      rw [double_xor, h]
      exact BitVec.xor_self
    exact BitVec.xor_eq_zero_iff.mp (hker hdiff)
  · induction k with
    | zero => exact hb
    | succ k ih => exact fun h => ih (hker h)

/-! ### A read of the table -/

/-- Settles O19: `lget_spec` for either table; what is read is a function of `LSTAR` and the index. -/
theorem tableReadIgnoresFillLevel : Obligations.TableReadIgnoresFillLevel := by
  intro c e f i he hf hl
  obtain ⟨hread, htab, hprefix, hlen⟩ := lget_spec he i
  obtain ⟨hread', -⟩ := lget_spec hf i
  exact ⟨by rw [hread, hread', hl], hread, htab, rfl, hlen, (List.prefix_iff_eq_take.mp hprefix).symm⟩

/-! ### The Gray code -/

/-- A bit of `n` turns at `n + 1` exactly where a power of two is reached. -/
theorem testBit_succ (n j : Nat) : (n + 1).testBit j = (n.testBit j ^^ decide (j ≤ ntz (n + 1))) := by
  rw [Nat.testBit_eq_decide_div_mod_eq, Nat.testBit_eq_decide_div_mod_eq, Nat.succ_div]
  by_cases h : 2 ^ j ∣ n + 1
  · rw [if_pos h, decide_eq_true ((two_pow_dvd_iff_le_ntz (Nat.le_add_left 1 n) j).mp h), Bool.xor_true, ← decide_not]
    exact decide_eq_decide.mpr (by omega)
  · rw [if_neg h, decide_eq_false (mt (two_pow_dvd_iff_le_ntz (Nat.le_add_left 1 n) j).mpr h), Bool.xor_false, Nat.add_zero]

theorem testBit_gray (n j : Nat) : (n ^^^ (n >>> 1)).testBit j = (n.testBit j ^^ n.testBit (j + 1)) := by
  rw [Nat.testBit_xor, Nat.testBit_shiftRight, Nat.add_comm]

/-- The Gray codes of `n` and `n + 1` differ in one bit (41_mask_schedule.md R95). -/
theorem testBit_gray_succ (n j : Nat) :
    ((n + 1) ^^^ ((n + 1) >>> 1)).testBit j = ((n ^^^ (n >>> 1)).testBit j ^^ decide (j = ntz (n + 1))) := by
  have hone : (decide (j ≤ ntz (n + 1)) ^^ decide (j + 1 ≤ ntz (n + 1))) = decide (j = ntz (n + 1)) := by
    by_cases hj : j = ntz (n + 1)
    · simp [hj]
    · have hiff : j ≤ ntz (n + 1) ↔ j + 1 ≤ ntz (n + 1) := by omega
      simp only [hiff, Bool.xor_self, hj, decide_false]
  rw [testBit_gray, testBit_gray, testBit_succ, testBit_succ n (j + 1), ← hone, Bool.xor_assoc, Bool.xor_assoc,
    Bool.xor_left_comm (decide _)]

/-! ### The walk and the Gray code -/

theorem xorSum_xor {w : Nat} (n : Nat) (f g : Nat → Block w) :
    xorSum n (fun j => f j ^^^ g j) = xorSum n f ^^^ xorSum n g := by
  induction n with
  | zero => exact BitVec.xor_zero.symm
  | succ n ih =>
    rw [xorSum_succ, xorSum_succ, xorSum_succ, ih]
    ac_rfl

theorem xorSum_zero {w n : Nat} {f : Nat → Block w} (h : ∀ j, j < n → f j = 0) : xorSum n f = 0 := by
  induction n with
  | zero => rfl
  | succ n ih => rw [xorSum_succ, ih fun j hj => h j (by omega), h n (by omega), block_zero_xor]

theorem xorSum_single {w n k : Nat} (hk : k < n) (f : Nat → Block w) :
    xorSum n (fun j => if j = k then f j else 0) = f k := by
  induction n with
  | zero => omega
  | succ n ih =>
    rw [xorSum_succ]
    rcases Nat.lt_succ_iff_lt_or_eq.mp hk with hlt | rfl
    · rw [ih hlt, if_neg (by omega)]
      exact BitVec.xor_zero
    · rw [xorSum_zero fun j hj => if_neg (by omega), if_pos rfl, block_zero_xor]

/-- The Gray code of `n` has no bit above those of `n`, so the sum may run further. -/
theorem grayMask_extend {w : Nat} (lstar : Block w) (n : Nat) :
    grayMask lstar n = xorSum (n + 2) fun j => if (n ^^^ (n >>> 1)).testBit j then maskL lstar j else 0 := by
  have hlt : n < 2 ^ (n + 1) := Nat.lt_two_pow_self.trans_le (Nat.pow_le_pow_right Nat.two_pos (Nat.le_succ n))
  have hlt' : n < 2 ^ (n + 1 + 1) := hlt.trans_le (Nat.pow_le_pow_right Nat.two_pos (Nat.le_succ _))
  have htop : (n ^^^ (n >>> 1)).testBit (n + 1) = false := by
    rw [testBit_gray, Nat.testBit_lt_two_pow hlt, Nat.testBit_lt_two_pow hlt', Bool.xor_self]
  rw [xorSum_succ, htop, if_neg Bool.false_ne_true, grayMask]
  exact BitVec.xor_zero.symm

theorem grayMask_succ {w : Nat} (lstar : Block w) (n : Nat) :
    grayMask lstar (n + 1) = grayMask lstar n ^^^ maskL lstar (ntz (n + 1)) := by
  have hk : ntz (n + 1) < n + 2 := by
    have hle := Nat.le_of_dvd (Nat.succ_pos n) ((two_pow_dvd_iff_le_ntz (Nat.le_add_left 1 n) _).mpr le_rfl)
    have hpow : ntz (n + 1) < 2 ^ ntz (n + 1) := Nat.lt_two_pow_self
    omega
  rw [grayMask_extend lstar n, ← xorSum_single hk (maskL lstar), ← xorSum_xor, grayMask]
  refine xorSum_congr fun j _ => ?_
  rw [testBit_gray_succ, selectRc_xor]
  simp only [decide_eq_true_eq]

/-- The walk from the start of a message. -/
theorem walk_eq_grayMask {w : Nat} (lstar o : Block w) (n : Nat) : walk lstar o 0 n = o ^^^ grayMask lstar n := by
  induction n with
  | zero => simp [walk, grayMask, xorSum]
  | succ n ih => rw [walk, ih, Nat.zero_add, grayMask_succ, BitVec.xor_assoc]

/-- `n` steps of the walk from any block number: `CTR` counts them, `OFFSET` is that of the schedule. -/
theorem advance_iterate {c : Cfg} {e : Engine c} (h : TableOk e) (n : Nat) :
    (advance^[n] e).lstar = e.lstar ∧ TableOk (advance^[n] e) ∧ (advance^[n] e).ctr = e.ctr + n ∧
      (advance^[n] e).offset = walk e.lstar e.offset e.ctr n := by
  induction n with
  | zero => exact ⟨rfl, h, rfl, rfl⟩
  | succ n ih =>
    obtain ⟨hlstar, htab, hctr, hoffset⟩ := ih
    obtain ⟨tab, hstep, -, -, hentries⟩ := advance_spec htab
    rw [Function.iterate_succ_apply', hstep]
    refine ⟨hlstar, ⟨htab.1, hentries⟩, congrArg (· + 1) hctr, ?_⟩
    dsimp only
    rw [hoffset, hlstar, hctr, walk]

/-- Settles O20: the walk from block number 0. -/
theorem grayWalkClosedForm : Obligations.GrayWalkClosedForm := by
  intro c e n h hctr
  obtain ⟨-, -, hn, hoffset⟩ := advance_iterate h n
  rw [hn, hoffset, hctr, walk_eq_grayMask, Nat.zero_add]
  exact ⟨rfl, rfl⟩

end Sys2Proof.Machine
end

section
/-! PROOF. The nonce word under `STD`, and what both formats keep (42_nonce_cache.md R101, R103, 70_reset_and_hazards.md
R188). The three parts of the `STD` word at `w = 128` do not overlap (`getLsbD_wordStd`); at another width the free word is
cleared where the nonce stands (`getLsbD_wordStd_free`). -/

namespace Sys2Proof.Machine

theorem formatNonce_std {c : Cfg} (h : c.nonceFmt = .std) (n : Bytes) : formatNonce c n = wordStd c n := by
  rw [formatNonce, h]

/-- The `STD` word at `w = 128`: `TAGMOD` from bit 121 on, a single 1, the nonce (42_nonce_cache.md R103). -/
theorem getLsbD_wordStd {c : Cfg} (hw : c.w = 128) (n : Bytes) {i : Nat} (hi : i < 128) :
    (wordStd c n).getLsbD i =
      ((decide (121 ≤ i) && (tagMod c).testBit (i - 121)) || decide (i = 8 * n.length) || (intOf n).testBit i) := by
  have hiw : i < c.w := by omega
  have htag : (BitVec.ofNat c.w (tagMod c) <<< 121).getLsbD i = (decide (121 ≤ i) && (tagMod c).testBit (i - 121)) := by
    have hlow : i - 121 < c.w := by omega
    rw [BitVec.getLsbD_shiftLeft, BitVec.getLsbD_ofNat, decide_eq_true hiw, decide_eq_true hlow, Bool.true_and,
      Bool.true_and, ← decide_not]
    simp only [Nat.not_lt]
  have hone : ((1 : Block c.w) <<< (8 * n.length)).getLsbD i = decide (i = 8 * n.length) := by
    have htwo : (1 : Block c.w) <<< (8 * n.length) = BitVec.twoPow c.w (8 * n.length) := (BitVec.twoPow_eq ..).symm
    rw [htwo, BitVec.getLsbD_twoPow, ← Bool.decide_and]
    exact decide_eq_decide.mpr (by omega)
  rw [wordStd, if_pos hw, BitVec.getLsbD_or, BitVec.getLsbD_or, htag, hone, getLsbD_intBlock, decide_eq_true hiw,
    Bool.true_and]

/-- Settles O22: the nonce ends below bit 120, `TAGMOD` begins at bit 121. -/
theorem stdNonceWordLayout : Obligations.StdNonceWordLayout := by
  intro c n hstd hbs hlen
  have hw : c.w = 128 := by rw [Cfg.w, hbs]
  have htag : tagMod c = 8 * c.taglen % 128 := by rw [tagMod, hw]
  rw [formatNonce_std hstd]
  refine ⟨fun i hlow hhigh => ?_, fun i hlow hhigh => ?_, ?_, fun i hi => ?_⟩
  · have hne : i ≠ 8 * n.length := by omega
    rw [getLsbD_wordStd hw n hhigh, testBit_intOf_of_le (by omega), htag]
    simp [hlow, hne]
  · have hne : i ≠ 8 * n.length := by omega
    rw [getLsbD_wordStd hw n (by omega), testBit_intOf_of_le (by omega)]
    simp [Nat.not_le.mpr hhigh, hne]
  · rw [getLsbD_wordStd hw n (by omega), testBit_intOf_of_le le_rfl]
    simp
  · have hne : i ≠ 8 * n.length := by omega
    have hbelow : ¬ 121 ≤ i := by omega
    rw [getLsbD_wordStd hw n (by omega)]
    simp [hbelow, hne]

/-- The `STD` word at a width the spec gives it no layout for: the free word stands above the nonce (R101 b, log 5). -/
theorem getLsbD_wordStd_free {c : Cfg} (hw : c.w ≠ 128) (n : Bytes) {i : Nat} (hi : i < 8 * n.length) (hiw : i < c.w) :
    (wordStd c n).getLsbD i = (intOf n).testBit i := by
  rw [wordStd, if_neg hw, BitVec.getLsbD_or, BitVec.getLsbD_shiftLeft, getLsbD_intBlock]
  simp [hi, hiw]

/-- The nonce stands right-aligned in the word, under either format (42_nonce_cache.md R101 b). -/
theorem getLsbD_formatNonce {c : Cfg} {n : Bytes} (hlen : n.length < c.bs) {i : Nat} (hi : i < 8 * n.length) :
    (formatNonce c n).getLsbD i = (intOf n).testBit i := by
  have hw : c.w = 8 * c.bs := rfl
  cases hfmt : c.nonceFmt with
  | doc =>
    have hne : i ≠ c.w - 1 := by omega
    rw [formatNonce_doc hfmt, getLsbD_wordDoc n (by omega)]
    simp [hne]
  | std =>
    rw [formatNonce_std hfmt]
    by_cases h128 : c.w = 128
    · have hne : i ≠ 8 * n.length := by omega
      have hbelow : ¬ 121 ≤ i := by omega
      rw [getLsbD_wordStd h128 n (by omega)]
      simp [hbelow, hne]
    · exact getLsbD_wordStd_free h128 n hi (by omega)

/-- Settles O23: the nonce stands in the word, and the word's definition reads no other part of the configuration. -/
theorem nonceWordKeepsContract : Obligations.NonceWordKeepsContract := by
  refine ⟨fun c n i hlen hi => getLsbD_formatNonce hlen hi, ?_⟩
  rintro ⟨⟨bs, taglen, dir, keylens, cipher⟩, p⟩ ⟨⟨bs', taglen', dir', keylens', cipher'⟩, q⟩ n hbs htaglen hfmt
  dsimp only at hbs htaglen hfmt
  subst hbs htaglen
  simp only [formatNonce, hfmt]
  rfl

/-- Settles O24: a leading zero byte adds nothing to the number of the nonce, the only thing `DOC` reads of it. -/
theorem docNonceIgnoresLeadingZero : Obligations.DocNonceIgnoresLeadingZero := by
  intro c n hdoc
  have hnum : intOf (0x00#8 :: n) = intOf n := by
    rw [intOf_cons]
    simp
  rw [formatNonce_doc hdoc, formatNonce_doc hdoc, wordDoc, wordDoc, intBlock, intBlock, hnum]

end Sys2Proof.Machine
end

section
/-! PROOF. The step by what stands on the command port, and the opening checks of every command (20_memory.md R45,
60_exceptions.md R155 to R172, 70_reset_and_hazards.md R180, R182). What a command does to the registers is `reply`; each
command opens with the same checks (`reply_eq_gate`), so what happens outside its legal phases is said once for all five,
and the transition table is left to be shown in the legal phases. -/

namespace Sys2Proof.Machine

/-! ### The step -/

/-- Settles O5. -/
theorem stepRunsDecodedCommand : Obligations.StepRunsDecodedCommand := fun _ _ _ _ hin hf hd => step_decoded hin hf hd

/-- Settles O7: no event, and a transaction that is not framed. -/
theorem waitingAndBadFraming : Obligations.WaitingAndBadFraming :=
  ⟨fun _ hin => step_idle hin, fun _ _ _ hin hlen => step_unframed hin (decide_eq_false hlen)⟩

/-- The configuration check of 70_reset_and_hazards.md R182. -/
theorem cfgLegal_iff (c : Cfg) :
    cfgLegal c = true ↔ (c.bs = 16 ∨ c.bs = 24 ∨ c.bs = 32 ∨ c.bs = 64) ∧ c.taglen ≤ c.bs := by
  simp only [cfgLegal, Bool.and_eq_true, Bool.or_eq_true, beq_iff_eq, decide_eq_true_eq, or_assoc]

/-- Settles O8: the state after the reset input, register by register. -/
theorem resetGivesEveryRegisterItsValue : Obligations.ResetGivesEveryRegisterItsValue := by
  intro s st rest hin
  refine ⟨_, step_reset hin, rfl, rfl, ?_, rfl, rfl, rfl, rfl, rfl, rfl, rfl, rfl, rfl, rfl, rfl, rfl, rfl, rfl, rfl, rfl,
    rfl, rfl, rfl, rfl⟩
  exact if_congr (cfgLegal_iff _) rfl rfl

/-- Settles O9: reset, with an empty record of the cipher port. -/
theorem resetHoldsInvariant : Obligations.ResetHoldsInvariant :=
  ⟨fun c => reset_inv c [], reset_inv Cfg.atReset []⟩

/-! ### The opening checks -/

/-- What a command answers, from the registers alone. -/
def reply {c : Cfg} (i : Instr) (e : Engine c) : Except Refusal (Reply c) :=
  match i with
  | .setKey pl => setKeyReply pl e
  | .setAd pl => setAdReply pl e
  | .start pl => startReply pl e
  | .update pl => updateReply pl e
  | .finish pl => finishReply pl e

theorem exec_eq_deliver (i : Instr) (s : State) : exec i s = deliver s (reply i s.eng) := by
  cases i <;> rfl

/-- A command with a next state is answered by its reply. -/
theorem exec_next {i : Instr} {s t : State} : exec i s = .next t ↔ ∃ r, reply i s.eng = .ok r ∧ t = answer s r := by
  rw [exec_eq_deliver, deliver_next]

theorem exec_of_reply {i : Instr} {s : State} {r : Reply s.cfg} (h : reply i s.eng = .ok r) :
    exec i s = .next (answer s r) :=
  exec_next.mpr ⟨r, h, rfl⟩

theorem exec_of_refused {i : Instr} {s : State} {x : Refusal} (h : reply i s.eng = .error x) : exec i s = .refused x := by
  rw [exec_eq_deliver, h, deliver_error]

/-- Every command opens with the checks of 60_exceptions.md R160, R161. -/
theorem reply_eq_gate {c : Cfg} (i : Instr) (e : Engine c) : ∃ body, reply i e = gate (legalPhases i) e body := by
  cases i <;> exact ⟨_, rfl⟩

/-- Settles O43: the opening checks raise the sequencing error, which zeroises. -/
theorem wrongPhaseZeroises : Obligations.WrongPhaseZeroises := by
  intro i s hl hc hf
  obtain ⟨body, hg⟩ := reply_eq_gate i s.eng
  refine exec_of_reply ?_
  rw [hg, gate_illegal hl hc, fail, raise_seqError hf]
  rfl

/-- Settles O44: the first two of the opening checks. -/
theorem stickyPhasesAnswerAndKeep : Obligations.StickyPhasesAnswerAndKeep := by
  intro i s
  obtain ⟨body, hg⟩ := reply_eq_gate i s.eng
  refine ⟨fun hf => exec_of_reply ?_, fun hc => exec_of_reply ?_⟩
  · rw [hg, gate_fault hf, fail, raise_seqError_fault hf]
  · rw [hg, gate_cfgerr hc, fail, raise_configError]

/-! ### The transition table -/

/-- A reply's status and phase are an entry of the table, and `AUTH_FAIL` is left to decrypting engines (60_exceptions.md
R157, R172). -/
def FollowsTable {c : Cfg} (i : Instr) (e : Engine c) (r : Reply c) : Prop :=
  phaseAfter e.phase i r.status = some r.eng.phase ∧ (c.dir = .enc → r.status ≠ .err .authFail)

theorem phaseAfter_seqError {p : Phase} {i : Instr} (hc : p ≠ .cfgerr) (hf : p ≠ .fault) (hl : p ∉ legalPhases i) :
    phaseAfter p i (.err .seqError) = some .fault := by
  cases p with
  | cfgerr => exact absurd rfl hc
  | fault => exact absurd rfl hf
  | uninit => exact if_neg hl
  | keyed => exact if_neg hl
  | started => exact if_neg hl
  | processing => exact if_neg hl

/-- The entries of the opening checks; the legal phases are each command's own. -/
theorem followsTable_of_gate {c : Cfg} {i : Instr} {e : Engine c} {body : Except Refusal (Reply c)} {r : Reply c}
    (h : gate (legalPhases i) e body = .ok r) (hb : e.phase ∈ legalPhases i → body = .ok r → FollowsTable i e r) :
    FollowsTable i e r := by
  rcases gate_ok h with ⟨hp, rfl⟩ | ⟨hp, rfl⟩ | ⟨hc, hf, hl, rfl⟩ | ⟨-, -, hl, hr⟩
  · exact ⟨by rw [hp]; rfl, fun _ => by simp⟩
  · exact ⟨by rw [hp]; rfl, fun _ => by simp⟩
  · exact ⟨phaseAfter_seqError hc hf hl, fun _ => by simp⟩
  · exact hb hl hr

theorem setKeyReply_followsTable {c : Cfg} {pl : Bytes} {e : Engine c} {r : Reply c} (h : setKeyReply pl e = .ok r) :
    FollowsTable (.setKey pl) e r := by
  refine followsTable_of_gate (i := .setKey pl) h fun hl _ => ?_
  have hp := List.mem_pair.mp hl
  rcases setKeyReply_ok hp h with ⟨-, rfl⟩ | ⟨-, rfl⟩
  · exact ⟨by rcases hp with hp | hp <;> rw [hp] <;> rfl, fun _ => by simp⟩
  · exact ⟨by rw [ciphSetKey_phase]; rcases hp with hp | hp <;> rw [hp] <;> rfl, fun _ => by simp⟩

theorem setAdReply_followsTable {c : Cfg} {pl : Bytes} {e : Engine c} {r : Reply c} (h : setAdReply pl e = .ok r) :
    FollowsTable (.setAd pl) e r := by
  refine followsTable_of_gate (i := .setAd pl) h fun hl _ => ?_
  have hp := List.mem_singleton.mp hl
  rcases setAdReply_ok hp h with ⟨-, rfl⟩ | ⟨-, rfl⟩
  · exact ⟨by dsimp only; rw [hp]; rfl, fun _ => by simp⟩
  · exact ⟨by dsimp only; rw [hp]; rfl, fun _ => by simp⟩

theorem startReply_followsTable {c : Cfg} {pl : Bytes} {e : Engine c} {r : Reply c} (h : startReply pl e = .ok r) :
    FollowsTable (.start pl) e r := by
  refine followsTable_of_gate (i := .start pl) h fun hl _ => ?_
  have hp := List.mem_singleton.mp hl
  rcases startReply_ok hp h with ⟨-, rfl⟩ | ⟨-, -, -, rfl⟩
  · exact ⟨by dsimp only; rw [hp]; rfl, fun _ => by simp⟩
  · exact ⟨by rw [hp]; rfl, fun _ => by simp⟩

theorem updateReply_followsTable {c : Cfg} {pl : Bytes} {e : Engine c} {r : Reply c} (h : updateReply pl e = .ok r) :
    FollowsTable (.update pl) e r := by
  refine followsTable_of_gate (i := .update pl) h fun hl hb => ?_
  have hp := List.mem_pair.mp hl
  dsimp only at hb
  split_ifs at hb with hcap
  · obtain rfl := Except.ok.inj hb
    have hkeep : phaseAfter e.phase (.update pl) (.err .configError) = some e.phase := by
      rcases hp with hp | hp <;> rw [hp] <;> rfl
    exact ⟨hkeep, fun _ => by simp⟩
  · split at hb
    · cases hb
    · have hok : phaseAfter e.phase (.update pl) .ok = some .processing := by rcases hp with hp | hp <;> rw [hp] <;> rfl
      split at hb
      · obtain rfl := Except.ok.inj hb
        exact ⟨hok, fun _ => by simp⟩
      · obtain rfl := Except.ok.inj hb
        exact ⟨hok, fun _ => by simp⟩

theorem finishReply_followsTable {c : Cfg} {pl : Bytes} {e : Engine c} {r : Reply c} (h : finishReply pl e = .ok r) :
    FollowsTable (.finish pl) e r := by
  refine followsTable_of_gate (i := .finish pl) h fun hl hb => ?_
  have hp := List.mem_pair.mp hl
  have hok : phaseAfter e.phase (.finish pl) .ok = some .keyed := by rcases hp with hp | hp <;> rw [hp] <;> rfl
  have hauth : phaseAfter e.phase (.finish pl) (.err .authFail) = some .keyed := by
    rcases hp with hp | hp <;> rw [hp] <;> rfl
  cases hd : c.dir with
  | enc =>
    simp only [hd, finishEnc] at hb
    split at hb
    · cases hb
    · obtain rfl := Except.ok.inj hb
      exact ⟨hok, fun _ => by simp⟩
  | dec =>
    have hdec : c.dir ≠ .enc := by simp [hd]
    simp only [hd, finishDec] at hb
    split_ifs at hb
    · obtain rfl := Except.ok.inj hb
      exact ⟨hauth, fun henc => absurd henc hdec⟩
    · split at hb
      · cases hb
      · obtain rfl := Except.ok.inj hb
        exact ⟨hauth, fun henc => absurd henc hdec⟩
    · split at hb
      · cases hb
      · obtain rfl := Except.ok.inj hb
        exact ⟨hok, fun henc => absurd henc hdec⟩

theorem reply_followsTable {c : Cfg} {i : Instr} {e : Engine c} {r : Reply c} (h : reply i e = .ok r) :
    FollowsTable i e r := by
  cases i with
  | setKey pl => exact setKeyReply_followsTable h
  | setAd pl => exact setAdReply_followsTable h
  | start pl => exact startReply_followsTable h
  | update pl => exact updateReply_followsTable h
  | finish pl => exact finishReply_followsTable h

/-- Settles O45: the reply follows the table, and the response word shows its status. -/
theorem phasesFollowTheTable : Obligations.PhasesFollowTheTable := by
  intro i s t h
  obtain ⟨r, hr, rfl⟩ := exec_next.mp h
  obtain ⟨hphase, hauth⟩ := reply_followsTable hr
  obtain ⟨hst, -, -⟩ := responseWord_fields s.freeCtr r.status r.payload
  exact ⟨r.status, _, rfl, hst, hphase, hauth⟩

/-! ### Refused operands -/

theorem gate_keyed {c : Cfg} {e : Engine c} {body : Except Refusal (Reply c)} (hp : e.phase = .keyed) :
    gate [.keyed] e body = body :=
  gate_legal (by simp [hp]) (by simp [hp]) (by simp [hp])

theorem overCap_eq_true {cap : Option Nat} {n : Nat} : overCap cap n = true ↔ ∃ m, cap = some m ∧ m < n := by
  cases cap <;> simp [overCap]

theorem overCap_eq_false {cap : Option Nat} {n : Nat} : overCap cap n = false ↔ ∀ m, cap = some m → n ≤ m := by
  cases cap <;> simp [overCap]

/-- Settles O28: the cipher is asked and answers `fail`. -/
theorem setKeyBadLengthKeepsState : Obligations.SetKeyBadLengthKeepsState := by
  intro pl s hl hlen
  have hacc : cipherAccepts s.cfg pl = false := Bool.eq_false_iff.mpr (mt List.contains_iff_mem.mp hlen)
  refine exec_of_reply ?_
  have hc : s.eng.phase ≠ .cfgerr := by rcases hl with hl | hl <;> simp [hl]
  have hf : s.eng.phase ≠ .fault := by rcases hl with hl | hl <;> simp [hl]
  simp only [reply, setKeyReply, gate_legal (List.mem_pair.mpr hl) hc hf, hacc, ciphSetKey, fail, raise_configError,
    Bool.false_eq_true, if_false]

theorem setAdReply_accepted {c : Cfg} {pl : Bytes} {e : Engine c} (hp : e.phase = .keyed)
    (hcap : overCap c.adMax pl.length = false) : setAdReply pl e = .ok ⟨{ e with adbuf := pl }, .ok, []⟩ := by
  simp only [setAdReply, gate_keyed hp, hcap, Bool.false_eq_true, if_false, respondOk]

theorem setAdReply_overCap {c : Cfg} {pl : Bytes} {e : Engine c} (hp : e.phase = .keyed)
    (hcap : overCap c.adMax pl.length = true) : setAdReply pl e = .ok ⟨e, .err .configError, []⟩ := by
  simp only [setAdReply, gate_keyed hp, hcap, if_true, fail, raise_configError]

/-- Settles O29, below `AD_MAX` and above it. -/
theorem setAdStoresTheData : Obligations.SetAdStoresTheData := fun _ _ hp =>
  ⟨fun hfit => exec_of_reply (setAdReply_accepted hp (overCap_eq_false.mpr hfit)),
    fun m hm hlen => exec_of_reply (setAdReply_overCap hp (overCap_eq_true.mpr ⟨m, hm, hlen⟩))⟩

theorem startReply_long {c : Cfg} {pl : Bytes} {e : Engine c} (hp : e.phase = .keyed) (hlen : c.bs ≤ pl.length) :
    startReply pl e = .ok ⟨e, .err .configError, []⟩ := by
  simp only [startReply, gate_keyed hp, hlen, if_true, fail, raise_configError]

/-- Settles O31. -/
theorem startLongNonceKeepsState : Obligations.StartLongNonceKeepsState := fun _ _ hp hlen =>
  exec_of_reply (startReply_long hp hlen)

/-- The check of `PT_HOLD_MAX` comes before any block (44_core_loop.md R134). -/
theorem updateReply_overfull {c : Cfg} {pl : Bytes} {e : Engine c} (hl : e.phase = .started ∨ e.phase = .processing)
    (hd : c.dir = .dec)
    (hover : overCap c.ptHoldMax (e.pthold.length + (e.dbuf ++ pl).length / c.bs * c.bs) = true) :
    updateReply pl e = .ok ⟨e, .err .configError, []⟩ := by
  simp only [updateReply, gate_message hl, if_pos (And.intro hd hover), fail, raise_configError]

/-- Settles O35. -/
theorem updateOverfullHoldKeepsState : Obligations.UpdateOverfullHoldKeepsState := by
  intro pl s m hl hd hm hover
  refine exec_of_reply (updateReply_overfull hl hd (overCap_eq_true.mpr ⟨m, hm, ?_⟩))
  rwa [List.length_append]

end Sys2Proof.Machine
end

section
/-! PROOF. What each command of a message does, as the closed forms of Safety.lean say it (42_nonce_cache.md R111,
44_core_loop.md R134, 45_tag_finish.md R143 to R148), and which paths have no step (00_scope.md R6,
93_implementation_defined.md U5). For each path there is one lemma that says under which conditions the command takes it;
the whole of what it leaves is then what `Laws/Commands.lean` says the command can answer. -/

namespace Sys2Proof.Machine

/-! ### START -/

theorem slicesExist_iff {c : Cfg} :
    slicesExist c = true ↔ 2 ^ c.bottomBits - 1 ≤ c.extBits ∧ c.extBits + c.stretchShift ≤ c.w := by
  simp only [slicesExist, Bool.and_eq_true, decide_eq_true_eq]

theorem startReply_noSlices {c : Cfg} {pl : Bytes} {e : Engine c} (hp : e.phase = .keyed) (hlen : pl.length < c.bs)
    (hs : slicesExist c = false) : startReply pl e = .error .sliceUndefined := by
  simp only [startReply, gate_keyed hp, if_neg (Nat.not_le.mpr hlen), if_pos hs]

theorem startReply_blocksRefused {c : Cfg} {pl : Bytes} {e : Engine c} {x : Refusal} (hp : e.phase = .keyed)
    (hlen : pl.length < c.bs) (hs : slicesExist c = true)
    (hx : blocksRefused none c.lDepth 0 (e.adbuf.length / c.bs) = some x) : startReply pl e = .error x := by
  simp only [startReply, gate_keyed hp, if_neg (Nat.not_le.mpr hlen), hs, Bool.true_eq_false, if_false, hx]

theorem startReply_accepted {c : Cfg} {pl : Bytes} {e : Engine c} (hp : e.phase = .keyed) (hlen : pl.length < c.bs)
    (hs : slicesExist c = true) (hfit : AdBlocksFit c (e.adbuf.length / c.bs)) :
    startReply pl e = .ok ⟨beginMessage pl e, .ok, []⟩ := by
  simp only [startReply, gate_keyed hp, if_neg (Nat.not_le.mpr hlen), hs, Bool.true_eq_false, if_false,
    adBlocksFit_iff.mpr hfit, respondOk]

/-- Settles O30: START takes its last path, and `beginMessage_spec` says what that leaves. -/
theorem startBeginsMessage : Obligations.StartBeginsMessage := by
  intro pl s hp hlen hk hext hshift hfit
  have hr := startReply_accepted hp hlen (slicesExist_iff.mpr ⟨hext, hshift⟩) hfit
  obtain ⟨tab, hregs, hgrown⟩ := beginMessage_spec pl hk
  rw [hregs] at hr
  exact ⟨tab, exec_of_reply hr, hgrown⟩

/-- With an unbounded counter it is the table that refuses. -/
theorem blocksRefused_unbounded {ld : Option Nat} {k n : Nat} {x : Refusal} (h : blocksRefused none ld k n = some x) :
    x = .tableDepth := by
  induction n generalizing k with
  | zero => cases h
  | succ n ih =>
    simp only [blocksRefused, Bool.false_eq_true, if_false] at h
    split_ifs at h
    · exact (Option.some.inj h).symm
    · exact ih h

/-- Settles O42: no later path of START is refused by that name. -/
theorem startWithoutSlicesHasNoStep : Obligations.StartWithoutSlicesHasNoStep := by
  intro pl s hp hlen
  have hcond : slicesExist s.cfg = false ↔
      s.cfg.extBits < 2 ^ s.cfg.bottomBits - 1 ∨ s.cfg.w < s.cfg.extBits + s.cfg.stretchShift := by
    rw [← Bool.not_eq_true, slicesExist_iff, not_and_or, Nat.not_le, Nat.not_le]
  rw [← hcond]
  refine ⟨fun h => ?_, fun hs => exec_of_refused (startReply_noSlices hp hlen hs)⟩
  by_contra hs
  rw [Bool.not_eq_false] at hs
  cases hx : blocksRefused none s.cfg.lDepth 0 (s.eng.adbuf.length / s.cfg.bs) with
  | some x =>
    rw [exec_of_refused (i := .start pl) (startReply_blocksRefused hp hlen hs hx), blocksRefused_unbounded hx] at h
    cases h
  | none =>
    rw [exec_of_reply (i := .start pl) (startReply_accepted hp hlen hs (adBlocksFit_iff.mp hx))] at h
    cases h

/-! ### UPDATE -/

theorem updateReply_refused {c : Cfg} {pl : Bytes} {e : Engine c} {x : Refusal}
    (hl : e.phase = .started ∨ e.phase = .processing)
    (hroom : ¬(c.dir = .dec ∧ overCap c.ptHoldMax (e.pthold.length + (e.dbuf ++ pl).length / c.bs * c.bs) = true))
    (hx : blocksRefused c.ctrBits c.lDepth e.ctr ((e.dbuf ++ pl).length / c.bs) = some x) :
    updateReply pl e = .error x := by
  simp only [updateReply, gate_message hl, if_neg hroom, hx]

/-- What an UPDATE whose blocks have the output `out` answers (44_core_loop.md R136). -/
def released (c : Cfg) (out : Bytes) : Bytes :=
  match c.dir with
  | .enc => out
  | .dec => []

/-- With room and blocks that fit UPDATE is answered, by the whole of what it does. -/
theorem updateReply_accepted {c : Cfg} {pl : Bytes} {e : Engine c} (hl : e.phase = .started ∨ e.phase = .processing)
    (ht : TableOk e)
    (hroom : ¬(c.dir = .dec ∧ overCap c.ptHoldMax (e.pthold.length + (e.dbuf ++ pl).length / c.bs * c.bs) = true))
    (hfit : BlocksFit c e.ctr ((e.dbuf ++ pl).length / c.bs)) :
    ∃ tab, updateReply pl e = .ok ⟨updated e (e.dbuf ++ pl) tab, .ok,
        released c (blocksOut e (e.dbuf ++ pl) ((e.dbuf ++ pl).length / c.bs))⟩ ∧
      TableGrown e.lstar e.ctr ((e.dbuf ++ pl).length / c.bs) e.ltab tab := by
  cases hr : updateReply pl e with
  | error x =>
    simp only [updateReply, gate_message hl, if_neg hroom, blocksFit_iff.mpr hfit] at hr
    cases hd : c.dir <;> simp only [hd] at hr <;> cases hr
  | ok r =>
    rcases updateReply_ok hl ht hr with ⟨hd, hover, -⟩ | ⟨-, -, tab, rfl, hg⟩
    · exact absurd ⟨hd, hover⟩ hroom
    · exact ⟨tab, rfl, hg⟩

theorem room_of_enc {c : Cfg} (hd : c.dir = .enc) (n : Nat) : ¬(c.dir = .dec ∧ overCap c.ptHoldMax n = true) := by
  simp [hd]

theorem room_of_le {c : Cfg} {n : Nat} (h : c.dir = .dec → ∀ m, c.ptHoldMax = some m → n ≤ m) :
    ¬(c.dir = .dec ∧ overCap c.ptHoldMax n = true) := by
  rintro ⟨hd, hover⟩
  rw [overCap_eq_false.mpr (h hd)] at hover
  cases hover

theorem outBlockAt_enc {c : Cfg} (hd : c.dir = .enc) (e : Engine c) (t : Bytes) :
    outBlockAt e t = fun j => cipherE c e.key (offsetAt e j ^^^ blockAt c t j) ^^^ offsetAt e j := by
  funext j
  simp only [outBlockAt, hd]

theorem outBlockAt_dec {c : Cfg} (hd : c.dir = .dec) (e : Engine c) (t : Bytes) :
    outBlockAt e t = fun j => cipherD c e.key (offsetAt e j ^^^ blockAt c t j) ^^^ offsetAt e j := by
  funext j
  simp only [outBlockAt, hd]

theorem plainBlockAt_enc {c : Cfg} (hd : c.dir = .enc) (e : Engine c) (t : Bytes) : plainBlockAt e t = blockAt c t := by
  funext j
  simp only [plainBlockAt, hd]

theorem plainBlockAt_dec {c : Cfg} (hd : c.dir = .dec) (e : Engine c) (t : Bytes) : plainBlockAt e t = outBlockAt e t := by
  funext j
  simp only [plainBlockAt, hd]

/-- Settles O33: the closed form of UPDATE, read in the encrypt direction. -/
theorem updateEncryptsFullBlocks : Obligations.UpdateEncryptsFullBlocks := by
  intro pl s hl hd ht t n hfit
  obtain ⟨tab, hr, hg⟩ := updateReply_accepted hl ht (room_of_enc hd _) hfit
  simp only [updated, released, hd, fullChecksum, plainBlockAt_enc hd, blockRequests, dataOp, blocksOut,
    outBlockAt_enc hd] at hr
  exact ⟨tab, exec_of_reply (i := .update pl) hr, hg⟩

/-- Settles O34: the closed form of UPDATE, read in the decrypt direction. -/
theorem updateHoldsPlaintext : Obligations.UpdateHoldsPlaintext := by
  intro pl s hl hd ht t n plain hfit hroom
  obtain ⟨tab, hr, hg⟩ := updateReply_accepted hl ht (room_of_le fun _ => hroom) hfit
  simp only [updated, released, hd, fullChecksum, plainBlockAt_dec hd, blockRequests, dataOp, blocksOut,
    outBlockAt_dec hd] at hr
  exact ⟨tab, exec_of_reply (i := .update pl) hr, hg⟩

/-! ### FINISH -/

theorem finishReply_enc {c : Cfg} {e : Engine c} (hl : e.phase = .started ∨ e.phase = .processing) (hd : c.dir = .enc)
    (pl : Bytes) : finishReply pl e = finishEnc pl e := by
  simp only [finishReply, gate_message hl, hd]

theorem finishEnc_refused {c : Cfg} {pl : Bytes} {e : Engine c} {x : Refusal}
    (hx : blocksRefused c.ctrBits c.lDepth e.ctr ((e.dbuf ++ pl).length / c.bs) = some x) : finishEnc pl e = .error x := by
  simp only [finishEnc, hx]

theorem finishEnc_accepted {c : Cfg} {pl : Bytes} {e : Engine c} (hfit : BlocksFit c e.ctr ((e.dbuf ++ pl).length / c.bs)) :
    finishEnc pl e = .ok ⟨endMessage (tag (lastBlocks (e.dbuf ++ pl) e).2).2, .ok,
      (lastBlocks (e.dbuf ++ pl) e).1 ++ (tag (lastBlocks (e.dbuf ++ pl) e).2).1⟩ := by
  simp only [finishEnc, blocksFit_iff.mpr hfit, respondOk]

theorem finishDec_refused {c : Cfg} {pl : Bytes} {e : Engine c} {x : Refusal} (hlen : c.taglen ≤ (e.dbuf ++ pl).length)
    (hx : blocksRefused c.ctrBits c.lDepth e.ctr ((cipherPart c (e.dbuf ++ pl)).length / c.bs) = some x) :
    finishDec pl e = .error x := by
  rw [cipherPart] at hx
  simp only [finishDec, if_neg (Nat.not_lt.mpr hlen), hx]

/-- What a decrypting FINISH does with enough bytes: the tag decides (45_tag_finish.md R144, R145). -/
theorem finishDec_accepted {c : Cfg} {pl : Bytes} {e : Engine c} (hlen : c.taglen ≤ (e.dbuf ++ pl).length)
    (hfit : BlocksFit c e.ctr ((cipherPart c (e.dbuf ++ pl)).length / c.bs)) :
    finishDec pl e = .ok (if (tag (lastBlocks (cipherPart c (e.dbuf ++ pl)) e).2).1 = tagPart c (e.dbuf ++ pl) then
      ⟨endMessage (tag (lastBlocks (cipherPart c (e.dbuf ++ pl)) e).2).2, .ok,
        e.pthold ++ (lastBlocks (cipherPart c (e.dbuf ++ pl)) e).1⟩
      else ⟨endMessage (tag (lastBlocks (cipherPart c (e.dbuf ++ pl)) e).2).2, .err .authFail, []⟩) := by
  have hb := blocksFit_iff.mpr hfit
  simp only [cipherPart, tagPart] at *
  simp only [finishDec, if_neg (Nat.not_lt.mpr hlen), hb, ctEq, decide_eq_false_iff_not, ite_not, fail_authFail, respondOk,
    tag_pthold, lastBlocks_pthold]
  exact (apply_ite Except.ok _ _ _).symm

/-- An encrypting FINISH whose blocks fit, in the closed forms of the data pass and the tag. -/
theorem finishReply_enc_accepted {c : Cfg} {pl : Bytes} {e : Engine c} (hl : e.phase = .started ∨ e.phase = .processing)
    (hd : c.dir = .enc) (ht : TableOk e) (hfit : BlocksFit c e.ctr ((e.dbuf ++ pl).length / c.bs)) :
    ∃ tab, finishReply pl e = .ok ⟨finished e tab (finishRequests e (e.dbuf ++ pl)), .ok,
          lastOut e (e.dbuf ++ pl) ++ messageTag e (e.dbuf ++ pl)⟩ ∧
      TableGrown e.lstar e.ctr ((e.dbuf ++ pl).length / c.bs) e.ltab tab := by
  have hr := (finishReply_enc hl hd pl).trans (finishEnc_accepted hfit)
  obtain ⟨-, tab, heq, hg⟩ := finishReply_enc_ok hl hd ht hr
  exact ⟨tab, heq ▸ hr, hg⟩

/-- Settles O36. -/
theorem finishSealsMessage : Obligations.FinishSealsMessage := by
  intro pl s hl hd ht t hfit
  obtain ⟨tab, hr, hg⟩ := finishReply_enc_accepted hl hd ht hfit
  exact ⟨tab, exec_of_reply (i := .finish pl) hr, hg⟩

/-- A decrypting FINISH with enough bytes and blocks that fit, by its tag, in the closed forms of the data pass. -/
theorem finishReply_dec_accepted {c : Cfg} {pl : Bytes} {e : Engine c} (hl : e.phase = .started ∨ e.phase = .processing)
    (hd : c.dir = .dec) (ht : TableOk e) (hlen : c.taglen ≤ (e.dbuf ++ pl).length)
    (hfit : BlocksFit c e.ctr ((cipherPart c (e.dbuf ++ pl)).length / c.bs)) :
    ∃ tab, finishReply pl e = .ok (if messageTag e (cipherPart c (e.dbuf ++ pl)) = tagPart c (e.dbuf ++ pl) then
          ⟨finished e tab (finishRequests e (cipherPart c (e.dbuf ++ pl))), .ok,
            e.pthold ++ lastOut e (cipherPart c (e.dbuf ++ pl))⟩
        else ⟨finished e tab (finishRequests e (cipherPart c (e.dbuf ++ pl))), .err .authFail, []⟩) ∧
      TableGrown e.lstar e.ctr ((cipherPart c (e.dbuf ++ pl)).length / c.bs) e.ltab tab := by
  have hr := (finishReply_dec hl hd pl).trans (finishDec_accepted hlen hfit)
  rcases finishReply_dec_ok hl hd ht hr with ⟨hshort, -⟩ | ⟨-, -, tab, hcase, hg⟩
  · omega
  · refine ⟨tab, ?_, hg⟩
    rcases hcase with ⟨htag, heq⟩ | ⟨htag, heq⟩
    · rw [hr, heq, if_pos htag]
    · rw [hr, heq, if_neg htag]

/-- Settles O37. -/
theorem finishOpensVerifiedMessage : Obligations.FinishOpensVerifiedMessage := by
  intro pl s hl hd ht t ct hlen hfit htag
  obtain ⟨tab, hr, hg⟩ := finishReply_dec_accepted hl hd ht hlen hfit
  rw [if_pos (show messageTag s.eng (cipherPart s.cfg t) = tagPart s.cfg t from htag)] at hr
  exact ⟨tab, exec_of_reply (i := .finish pl) hr, hg⟩

/-- Settles O38. -/
theorem tagMismatchReleasesNothing : Obligations.TagMismatchReleasesNothing := by
  intro pl s hl hd ht t ct hlen hfit htag
  obtain ⟨tab, hr, hg⟩ := finishReply_dec_accepted hl hd ht hlen hfit
  rw [if_neg (show messageTag s.eng (cipherPart s.cfg t) ≠ tagPart s.cfg t from htag)] at hr
  exact ⟨tab, exec_of_reply (i := .finish pl) hr, hg⟩

/-- With an empty tag all the data is ciphertext, and nothing is left to compare (45_tag_finish.md R148). -/
theorem parts_of_taglen_zero {c : Cfg} (h : c.taglen = 0) (t : Bytes) : cipherPart c t = t ∧ tagPart c t = [] := by
  rw [cipherPart, tagPart, h, Nat.sub_zero, List.take_length, List.drop_length]
  exact ⟨rfl, rfl⟩

/-- Settles O40: the empty tag verifies. -/
theorem zeroTagLengthAcceptsEverything : Obligations.ZeroTagLengthAcceptsEverything := by
  intro pl s hl hd h0 ht t hfit
  obtain ⟨hct, htag⟩ := parts_of_taglen_zero h0 t
  obtain ⟨tab, hr, hg⟩ := finishReply_dec_accepted (pl := pl) hl hd ht (by omega) (by rwa [hct])
  have hverified : messageTag s.eng t = tagPart s.cfg t := by rw [htag, messageTag, h0, List.take_zero]
  rw [hct, if_pos hverified] at hr
  rw [hct] at hg
  exact ⟨⟨tab, exec_of_reply (i := .finish pl) hr, hg⟩, requestCount_finishRequests ..⟩

/-! ### Blocks that do not fit -/

/-- A pass that does not fit is refused by one of two names. -/
theorem blocksRefused_of_not_fit {c : Cfg} {k n : Nat} (h : ¬ BlocksFit c k n) :
    ∃ x, blocksRefused c.ctrBits c.lDepth k n = some x ∧ (x = .counterWrap ∨ x = .tableDepth) := by
  obtain ⟨x, hx⟩ := Option.ne_none_iff_exists'.mp (mt blocksFit_iff.mp h)
  exact ⟨x, hx, blocksRefused_name hx⟩

theorem refused_by_name {i : Instr} {s : State} {x : Refusal} (h : reply i s.eng = .error x)
    (hx : x = .counterWrap ∨ x = .tableDepth) : exec i s = .refused .counterWrap ∨ exec i s = .refused .tableDepth := by
  rw [exec_of_refused h]
  exact hx.imp (congrArg _) (congrArg _)

/-- Settles O41, command by command. -/
theorem overflowingBlockHasNoStep : Obligations.OverflowingBlockHasNoStep := by
  refine ⟨fun pl s hl hroom hfit => ?_, fun pl s hl hd hfit => ?_, fun pl s hl hd hlen hfit => ?_,
    fun pl s hp hlen hext hshift hfit => ?_⟩
  · obtain ⟨x, hx, hname⟩ := blocksRefused_of_not_fit hfit
    exact refused_by_name (i := .update pl) (updateReply_refused hl (room_of_le hroom) hx) hname
  · obtain ⟨x, hx, hname⟩ := blocksRefused_of_not_fit hfit
    exact refused_by_name (i := .finish pl) ((finishReply_enc hl hd pl).trans (finishEnc_refused hx)) hname
  · obtain ⟨x, hx, hname⟩ := blocksRefused_of_not_fit hfit
    have hct : (cipherPart s.cfg (s.eng.dbuf ++ pl)).length = (s.eng.dbuf ++ pl).length - s.cfg.taglen := by
      rw [cipherPart, List.length_take]
      omega
    rw [← hct] at hx
    exact refused_by_name (i := .finish pl) ((finishReply_dec hl hd pl).trans (finishDec_refused hlen hx)) hname
  · obtain ⟨x, hx⟩ := Option.ne_none_iff_exists'.mp (mt adBlocksFit_iff.mp hfit)
    rw [blocksRefused_unbounded hx] at hx
    exact exec_of_refused (i := .start pl) (startReply_blocksRefused hp hlen (slicesExist_iff.mpr ⟨hext, hshift⟩) hx)

/-! ### Requests and released plaintext -/

/-- The requests a reply's registers record beyond those before are as many as 70_reset_and_hazards.md R195 says, and so are
those of them that decrypt. -/
def CountsRequests {c : Cfg} (i : Instr) (e : Engine c) (r : Reply c) : Prop :=
  ∃ new, r.eng.ciphLog = e.ciphLog ++ new ∧ requestCount new = requestsOf i r.status e ∧
    decryptCount new = decryptsOf i r.status e

/-- The record stays as it was, and the table asks for no request. -/
theorem countsRequests_none {c : Cfg} {i : Instr} {e : Engine c} {r : Reply c} (hlog : r.eng.ciphLog = e.ciphLog)
    (hreq : requestsOf i r.status e = 0) (hdec : decryptsOf i r.status e = 0) : CountsRequests i e r :=
  ⟨[], by rw [hlog, List.append_nil], hreq.symm, hdec.symm⟩

/-- A command refused for its operand or its phase asks for nothing; only AUTH_FAIL is different. -/
theorem requestsOf_refused {c : Cfg} (i : Instr) (e : Engine c) {k : ErrorKind} (hk : k ≠ .authFail) :
    requestsOf i (.err k) e = 0 ∧ decryptsOf i (.err k) e = 0 := by
  cases k with
  | authFail => exact absurd rfl hk
  | configError => cases i <;> exact ⟨rfl, rfl⟩
  | seqError => cases i <;> exact ⟨rfl, rfl⟩
  | illegal => cases i <;> exact ⟨rfl, rfl⟩

theorem countsRequests_refused {c : Cfg} (i : Instr) {e e' : Engine c} {k : ErrorKind} (hk : k ≠ .authFail)
    (hlog : e'.ciphLog = e.ciphLog) : CountsRequests i e ⟨e', .err k, []⟩ :=
  countsRequests_none hlog (requestsOf_refused i e hk).1 (requestsOf_refused i e hk).2

theorem countsRequests_of_gate {c : Cfg} {i : Instr} {legal : List Phase} {e : Engine c} {body : Except Refusal (Reply c)}
    {r : Reply c} (h : gate legal e body = .ok r) (hb : e.phase ∈ legal → CountsRequests i e r) : CountsRequests i e r := by
  rcases gate_ok h with ⟨-, rfl⟩ | ⟨-, rfl⟩ | ⟨-, -, -, rfl⟩ | ⟨-, -, hl, -⟩
  · exact countsRequests_refused i (by simp) rfl
  · exact countsRequests_refused i (by simp) rfl
  · exact countsRequests_refused i (by simp) rfl
  · exact hb hl

theorem setKeyReply_counts {c : Cfg} {pl : Bytes} {e : Engine c} {r : Reply c} (h : setKeyReply pl e = .ok r) :
    CountsRequests (.setKey pl) e r := by
  refine countsRequests_of_gate h fun hl => ?_
  rcases setKeyReply_ok (List.mem_pair.mp hl) h with ⟨ha, rfl⟩ | ⟨-, rfl⟩
  · rw [installKey_ciphSetKey ha]
    exact ⟨_, rfl, rfl, rfl⟩
  · exact ⟨_, rfl, rfl, rfl⟩

theorem setAdReply_counts {c : Cfg} {pl : Bytes} {e : Engine c} {r : Reply c} (h : setAdReply pl e = .ok r) :
    CountsRequests (.setAd pl) e r := by
  refine countsRequests_of_gate h fun hl => ?_
  rcases setAdReply_ok (List.mem_singleton.mp hl) h with ⟨-, rfl⟩ | ⟨-, rfl⟩
  · exact countsRequests_none rfl rfl rfl
  · exact countsRequests_refused _ (by simp) rfl

theorem startReply_counts {c : Cfg} {pl : Bytes} {e : Engine c} {r : Reply c} (he : e.Inv) (h : startReply pl e = .ok r) :
    CountsRequests (.start pl) e r := by
  refine countsRequests_of_gate h fun hl => ?_
  have hp := List.mem_singleton.mp hl
  rcases startReply_ok hp h with ⟨-, rfl⟩ | ⟨-, -, -, rfl⟩
  · exact countsRequests_refused _ (by simp) rfl
  · obtain ⟨tab, hregs, -⟩ := beginMessage_spec pl (he.keyClassOk (.inl hp))
    rw [hregs]
    exact ⟨_, rfl, requestCount_startRequests e pl, decryptCount_startRequests e pl⟩

theorem updateReply_counts {c : Cfg} {pl : Bytes} {e : Engine c} {r : Reply c} (he : e.Inv) (h : updateReply pl e = .ok r) :
    CountsRequests (.update pl) e r := by
  refine countsRequests_of_gate h fun hl => ?_
  rcases updateReply_ok (List.mem_pair.mp hl) (he.keyClassOk (.inr hl)).tableOk h with ⟨-, -, rfl⟩ | ⟨-, -, tab, rfl, -⟩
  · exact countsRequests_refused _ (by simp) rfl
  · refine ⟨_, rfl, requestCount_blockRequests .., (decryptCount_blockRequests ..).trans ?_⟩
    cases hd : c.dir <;> simp [decryptsOf, workData, finishData, hd]

/-- The table's entries for a decrypting FINISH that got as far as its tag. -/
theorem requestsOf_finish_dec {c : Cfg} {pl : Bytes} {e : Engine c} {st : Status} (hd : c.dir = .dec)
    (hst : st = .ok ∨ st = .err .authFail) (hlen : c.taglen ≤ (finishData e pl).length) :
    requestsOf (.finish pl) st e = blockCount c (cipherPart c (finishData e pl)).length + 1 ∧
      decryptsOf (.finish pl) st e = (cipherPart c (finishData e pl)).length / c.bs := by
  rcases hst with rfl | rfl
  · simp only [requestsOf, decryptsOf, workData, hd, and_self]
  · simp only [requestsOf, decryptsOf, workData, hd, if_neg (Nat.not_lt.mpr hlen), and_self]

theorem finishReply_counts {c : Cfg} {pl : Bytes} {e : Engine c} {r : Reply c} (he : e.Inv) (h : finishReply pl e = .ok r) :
    CountsRequests (.finish pl) e r := by
  refine countsRequests_of_gate h fun hl => ?_
  have hp := List.mem_pair.mp hl
  have ht := (he.keyClassOk (.inr hl)).tableOk
  cases hd : c.dir with
  | enc =>
    obtain ⟨-, tab, rfl, -⟩ := finishReply_enc_ok hp hd ht h
    refine ⟨_, rfl, (requestCount_finishRequests ..).trans ?_, (decryptCount_finishRequests ..).trans ?_⟩
    · simp only [requestsOf, workData, finishData, hd]
    · simp [decryptsOf, hd]
  | dec =>
    rcases finishReply_dec_ok hp hd ht h with ⟨hshort, rfl⟩ | ⟨hlen, -, tab, hcase, -⟩
    · refine countsRequests_none (List.append_nil _) (if_pos hshort) ?_
      simp only [decryptsOf, hd]
      exact if_pos hshort
    · have hcount : ∀ {st out}, (st = .ok ∨ st = .err .authFail) → CountsRequests (.finish pl) e
          ⟨finished e tab (finishRequests e (cipherPart c (e.dbuf ++ pl))), st, out⟩ := fun hst => by
        obtain ⟨hreq, hdec⟩ := requestsOf_finish_dec hd hst hlen
        exact ⟨_, rfl, (requestCount_finishRequests ..).trans hreq.symm,
          (decryptCount_finishRequests ..).trans ((if_pos hd).trans hdec.symm)⟩
      rcases hcase with ⟨-, rfl⟩ | ⟨-, rfl⟩
      · exact hcount (.inl rfl)
      · exact hcount (.inr rfl)

theorem reply_counts {c : Cfg} {i : Instr} {e : Engine c} {r : Reply c} (he : e.Inv) (h : reply i e = .ok r) :
    CountsRequests i e r := by
  cases i with
  | setKey pl => exact setKeyReply_counts h
  | setAd pl => exact setAdReply_counts h
  | start pl => exact startReply_counts he h
  | update pl => exact updateReply_counts he h
  | finish pl => exact finishReply_counts he h

/-- Settles O47: the reply's requests are counted, and the response word shows its status. -/
theorem cipherRequestsAreCounted : Obligations.CipherRequestsAreCounted := by
  intro i s t hs h
  obtain ⟨r, hr, rfl⟩ := exec_next.mp h
  obtain ⟨new, hlog, hreq, hdec⟩ := reply_counts hs hr
  obtain ⟨hst, -, -⟩ := responseWord_fields s.freeCtr r.status r.payload
  exact ⟨r.status, _, new, rfl, hst, hlog, hreq, hdec⟩

/-- A reply whose OK payload would be empty has none at all. -/
theorem InFormat.payload_eq_nil {c : Cfg} {i : Instr} {e : Engine c} {r : Reply c} (h : InFormat i e r)
    (h0 : okPayloadLength i e = 0) : r.payload = [] := by
  obtain ⟨hok, herr⟩ := h
  by_cases hst : r.status = .ok
  · exact List.length_eq_zero_iff.mp ((hok hst).trans h0)
  · exact herr hst

/-- Of the replies of a decrypting engine only that of a FINISH whose tag verifies has a payload. -/
theorem finish_of_payload {c : Cfg} {i : Instr} {e : Engine c} {r : Reply c} (he : e.Inv) (hd : c.dir = .dec)
    (h : reply i e = .ok r) (hne : r.payload ≠ []) :
    ∃ pl, i = .finish pl ∧ c.taglen ≤ (e.dbuf ++ pl).length ∧
      messageTag e (cipherPart c (e.dbuf ++ pl)) = tagPart c (e.dbuf ++ pl) ∧
      r.payload = e.pthold ++ lastOut e (cipherPart c (e.dbuf ++ pl)) := by
  cases i with
  | setKey pl => exact absurd ((setKeyReply_inFormat h).payload_eq_nil rfl) hne
  | setAd pl => exact absurd ((setAdReply_inFormat h).payload_eq_nil rfl) hne
  | start pl => exact absurd ((startReply_inFormat h).payload_eq_nil rfl) hne
  | update pl => exact absurd ((updateReply_inFormat h).payload_eq_nil (by simp only [okPayloadLength, hd])) hne
  | finish pl =>
    rcases gate_ok h with ⟨-, rfl⟩ | ⟨-, rfl⟩ | ⟨-, -, -, rfl⟩ | ⟨-, -, hl, -⟩
    · exact absurd rfl hne
    · exact absurd rfl hne
    · exact absurd rfl hne
    · rcases finishReply_dec_ok (List.mem_pair.mp hl) hd (he.keyClassOk (.inr hl)).tableOk h with
        ⟨-, rfl⟩ | ⟨hlen, -, tab, ⟨hverified, rfl⟩ | ⟨-, rfl⟩, -⟩
      · exact absurd rfl hne
      · exact ⟨pl, rfl, hlen, hverified, rfl⟩
      · exact absurd rfl hne

/-- Settles O48: the one response added is that of the reply. -/
theorem plaintextOnlyAfterTheTag : Obligations.PlaintextOnlyAfterTheTag := by
  intro i s t r hs hd h hrsp hne
  obtain ⟨q, hq, rfl⟩ := exec_next.mp h
  obtain rfl := List.singleton_inj.mp (List.append_cancel_left hrsp)
  exact finish_of_payload hs hd hq hne

end Sys2Proof.Machine
end

section
/-! PROOF. Chunk boundaries are invisible (44_core_loop.md R133, 70_reset_and_hazards.md R185, R186). Running the blocks of
a byte string in two pieces is running them at once (`ranBlocks_fullBytes_append`, `lastBlocks_fullBytes_append`), and the
block operations neither read nor write `PHASE`, `DBUF` and `PTHOLD` (`runBlocks_withBuffers`), the only registers in which
the state between two chunks differs from that in the middle of a run. Nothing here depends on what the mask table holds. -/

namespace Sys2Proof.Machine

/-! ### The registers the block operations do not touch -/

/-- The registers with `PHASE`, `DBUF` and `PTHOLD` replaced. -/
def Engine.withBuffers {c : Cfg} (p : Phase) (d h : Bytes) (e : Engine c) : Engine c :=
  { e with phase := p, dbuf := d, pthold := h }

theorem fullBlock_withBuffers {c : Cfg} (b : Block c.w) (p : Phase) (d h : Bytes) (e : Engine c) :
    fullBlock b (e.withBuffers p d h) = ((fullBlock b e).1, (fullBlock b e).2.withBuffers p d h) := by
  rw [fullBlock, fullBlock]
  cases c.dir with
  | enc => rfl
  | dec => rfl

theorem runBlocks_withBuffers {c : Cfg} (l : List (Block c.w)) (p : Phase) (d h : Bytes) (e : Engine c) :
    runBlocks l (e.withBuffers p d h) = ((runBlocks l e).1, (runBlocks l e).2.withBuffers p d h) := by
  induction l generalizing e with
  | nil => rfl
  | cons b l ih => simp only [runBlocks, fullBlock_withBuffers, ih]

theorem lastBlocks_withBuffers {c : Cfg} (t : Bytes) (p : Phase) (d h : Bytes) (e : Engine c) :
    lastBlocks t (e.withBuffers p d h) = ((lastBlocks t e).1, (lastBlocks t e).2.withBuffers p d h) := by
  by_cases hr : 0 < t.length % c.bs
  · simp only [lastBlocks, if_pos hr, runBlocks_withBuffers]
    rfl
  · simp only [lastBlocks, if_neg hr, runBlocks_withBuffers]

theorem tag_withBuffers {c : Cfg} (p : Phase) (d h : Bytes) (e : Engine c) :
    tag (e.withBuffers p d h) = ((tag e).1, (tag e).2.withBuffers p d h) := rfl

/-- The end of a message clears them. -/
theorem endMessage_withBuffers {c : Cfg} (p : Phase) (d h : Bytes) (e : Engine c) :
    endMessage (e.withBuffers p d h) = endMessage e := rfl

/-! ### Blocks in two pieces -/

theorem runBlocks_append {c : Cfg} (l l' : List (Block c.w)) (e : Engine c) :
    runBlocks (l ++ l') e =
      ((runBlocks l e).1 ++ (runBlocks l' (runBlocks l e).2).1, (runBlocks l' (runBlocks l e).2).2) := by
  induction l generalizing e with
  | nil => rfl
  | cons b l ih => simp only [List.cons_append, runBlocks, ih, List.append_assoc]

@[simp] theorem fullBlock_ctr {c : Cfg} (b : Block c.w) (e : Engine c) : (fullBlock b e).2.ctr = e.ctr + 1 := by
  rw [fullBlock]
  cases c.dir with
  | enc => rfl
  | dec => rfl

@[simp] theorem runBlocks_ctr {c : Cfg} (l : List (Block c.w)) (e : Engine c) :
    (runBlocks l e).2.ctr = e.ctr + l.length := by
  induction l generalizing e with
  | nil => rfl
  | cons b l ih => rw [runBlocks, ih, fullBlock_ctr, List.length_cons, Nat.add_assoc, Nat.add_comm 1]

theorem fullBlocks_add (c : Cfg) (m n : Nat) (t : Bytes) :
    fullBlocks c (m + n) t = fullBlocks c m t ++ fullBlocks c n (t.drop (m * c.bs)) := by
  induction m generalizing t with
  | zero => rw [Nat.zero_add, Nat.zero_mul, List.drop_zero, fullBlocks, List.nil_append]
  | succ m ih =>
    rw [Nat.succ_add, fullBlocks, fullBlocks, ih, List.drop_drop, Nat.succ_mul, Nat.add_comm c.bs, List.cons_append]

/-- The first blocks of a byte string do not depend on the bytes after them. -/
theorem fullBlocks_append_right {c : Cfg} {m : Nat} {t : Bytes} (h : m * c.bs ≤ t.length) (u : Bytes) :
    fullBlocks c m (t ++ u) = fullBlocks c m t := by
  induction m generalizing t with
  | zero => rfl
  | succ m ih =>
    rw [Nat.succ_mul] at h
    have hbs : c.bs ≤ t.length := by omega
    rw [fullBlocks, fullBlocks, List.take_append_of_le_length hbs, List.drop_append_of_le_length hbs,
      ih (by rw [List.length_drop]; omega)]

/-- The bytes of the full blocks of `t`; `tailBytes` are those after them. -/
def fullBytes (c : Cfg) (t : Bytes) : Bytes := t.take (t.length / c.bs * c.bs)

theorem fullBytes_length (c : Cfg) (t : Bytes) : (fullBytes c t).length = t.length / c.bs * c.bs :=
  List.length_take_of_le (Nat.div_mul_le_self ..)

theorem fullBytes_append_tailBytes (c : Cfg) (t : Bytes) : fullBytes c t ++ tailBytes c t = t := List.take_append_drop ..

/-- A chunk goes to what the chunks before it left. -/
theorem append_eq_fullBytes_append (c : Cfg) (t u : Bytes) : t ++ u = fullBytes c t ++ (tailBytes c t ++ u) := by
  rw [← List.append_assoc, fullBytes_append_tailBytes]

theorem div_fullBytes_append {c : Cfg} (hbs : 0 < c.bs) (t v : Bytes) :
    (fullBytes c t ++ v).length / c.bs = t.length / c.bs + v.length / c.bs := by
  rw [List.length_append, fullBytes_length, Nat.add_comm, Nat.add_mul_div_right _ _ hbs, Nat.add_comm]

theorem mod_fullBytes_append (c : Cfg) (t v : Bytes) : (fullBytes c t ++ v).length % c.bs = v.length % c.bs := by
  rw [List.length_append, fullBytes_length, Nat.mul_add_mod']

theorem tailBytes_fullBytes_append {c : Cfg} (hbs : 0 < c.bs) (t v : Bytes) :
    tailBytes c (fullBytes c t ++ v) = tailBytes c v := by
  rw [tailBytes, div_fullBytes_append hbs, Nat.add_mul, ← List.drop_drop, List.drop_left' (fullBytes_length c t), tailBytes]

theorem fullBlocks_fullBytes_append (c : Cfg) (t v : Bytes) :
    fullBlocks c (t.length / c.bs) (fullBytes c t ++ v) = fullBlocks c (t.length / c.bs) t := by
  have hle : t.length / c.bs * c.bs ≤ (fullBytes c t).length := (fullBytes_length c t).ge
  rw [fullBlocks_append_right hle, ← fullBlocks_append_right hle (tailBytes c t), fullBytes_append_tailBytes]

/-- All the full blocks of a byte string. -/
def ranBlocks {c : Cfg} (t : Bytes) (e : Engine c) : Bytes × Engine c := runBlocks (fullBlocks c (t.length / c.bs) t) e

theorem ranBlocks_out_length {c : Cfg} (t : Bytes) (e : Engine c) :
    (ranBlocks t e).1.length = t.length / c.bs * c.bs := by
  rw [ranBlocks, runBlocks_length, fullBlocks_length, Nat.mul_comm]

theorem ranBlocks_ctr {c : Cfg} (t : Bytes) (e : Engine c) : (ranBlocks t e).2.ctr = e.ctr + t.length / c.bs := by
  rw [ranBlocks, runBlocks_ctr, fullBlocks_length]

/-- The blocks of `t`, then those of the bytes `v` that follow its full blocks. -/
theorem ranBlocks_fullBytes_append {c : Cfg} (hbs : 0 < c.bs) (t v : Bytes) (e : Engine c) :
    ranBlocks (fullBytes c t ++ v) e =
      ((ranBlocks t e).1 ++ (ranBlocks v (ranBlocks t e).2).1, (ranBlocks v (ranBlocks t e).2).2) := by
  simp only [ranBlocks]
  rw [div_fullBytes_append hbs, fullBlocks_add, fullBlocks_fullBytes_append, List.drop_left' (fullBytes_length c t),
    runBlocks_append]

theorem lastBlocks_fullBytes_append {c : Cfg} (hbs : 0 < c.bs) (t v : Bytes) (e : Engine c) :
    lastBlocks (fullBytes c t ++ v) e =
      ((ranBlocks t e).1 ++ (lastBlocks v (ranBlocks t e).2).1, (lastBlocks v (ranBlocks t e).2).2) := by
  have hrun := ranBlocks_fullBytes_append hbs t v e
  have htail := tailBytes_fullBytes_append hbs t v
  rw [ranBlocks, ranBlocks.eq_def v] at hrun
  rw [tailBytes, tailBytes.eq_def c v] at htail
  simp only [lastBlocks, mod_fullBytes_append, hrun, htail]
  by_cases hr : 0 < v.length % c.bs
  · simp only [if_pos hr, List.append_assoc]
  · simp only [if_neg hr]

/-! ### Blocks that fit, in two pieces -/

theorem BlocksFit.mono {c : Cfg} {k m n : Nat} (h : BlocksFit c k n) (hle : m ≤ n) : BlocksFit c k m :=
  ⟨fun b hb i hlo hhi => h.1 b hb i hlo (by omega), fun d hd i hlo hhi => h.2 d hd i hlo (by omega)⟩

theorem BlocksFit.tail {c : Cfg} {k m n : Nat} (h : BlocksFit c k (m + n)) : BlocksFit c (k + m) n :=
  ⟨fun b hb i hlo hhi => h.1 b hb i (by omega) (by omega), fun d hd i hlo hhi => h.2 d hd i (by omega) (by omega)⟩

/-! ### UPDATE, whatever the table holds -/

/-- `PTHOLD` after blocks with the output `out`. -/
def heldAfter (c : Cfg) (h out : Bytes) : Bytes :=
  match c.dir with
  | .enc => h
  | .dec => h ++ out

theorem heldAfter_append (c : Cfg) (h a b : Bytes) : heldAfter c h (a ++ b) = heldAfter c (heldAfter c h a) b := by
  simp only [heldAfter]
  cases c.dir with
  | enc => rfl
  | dec => exact (List.append_assoc ..).symm

theorem released_append (c : Cfg) (a b : Bytes) : released c (a ++ b) = released c a ++ released c b := by
  simp only [released]
  cases c.dir with
  | enc => rfl
  | dec => rfl

/-- The registers UPDATE leaves when it works on the data `t`. -/
def afterUpdate {c : Cfg} (t : Bytes) (e : Engine c) : Engine c :=
  (ranBlocks t e).2.withBuffers .processing (tailBytes c t) (heldAfter c e.pthold (ranBlocks t e).1)

theorem updateReply_runs {c : Cfg} {pl : Bytes} {e : Engine c} (hl : e.phase = .started ∨ e.phase = .processing)
    (hroom : ¬(c.dir = .dec ∧ overCap c.ptHoldMax (e.pthold.length + (e.dbuf ++ pl).length / c.bs * c.bs) = true))
    (hfit : BlocksFit c e.ctr ((e.dbuf ++ pl).length / c.bs)) :
    updateReply pl e = .ok ⟨afterUpdate (e.dbuf ++ pl) e, .ok, released c (ranBlocks (e.dbuf ++ pl) e).1⟩ := by
  have hkeep : (ranBlocks (e.dbuf ++ pl) e).2.pthold = e.pthold := runBlocks_pthold ..
  simp only [updateReply, gate_message hl, if_neg hroom, blocksFit_iff.mpr hfit]
  cases hd : c.dir with
  | enc =>
    simp only [afterUpdate, heldAfter, released, hd]
    rw [← hkeep]
    rfl
  | dec =>
    simp only [afterUpdate, heldAfter, released, hd]
    rw [← hkeep]
    rfl

theorem afterUpdate_dbuf {c : Cfg} (t : Bytes) (e : Engine c) : (afterUpdate t e).dbuf = tailBytes c t := rfl

theorem afterUpdate_pthold {c : Cfg} (t : Bytes) (e : Engine c) :
    (afterUpdate t e).pthold = heldAfter c e.pthold (ranBlocks t e).1 := rfl

theorem afterUpdate_ctr {c : Cfg} (t : Bytes) (e : Engine c) : (afterUpdate t e).ctr = e.ctr + t.length / c.bs :=
  ranBlocks_ctr t e

theorem ranBlocks_afterUpdate {c : Cfg} (v t : Bytes) (e : Engine c) :
    ranBlocks v (afterUpdate t e) = ((ranBlocks v (ranBlocks t e).2).1, (ranBlocks v (ranBlocks t e).2).2.withBuffers
      .processing (tailBytes c t) (heldAfter c e.pthold (ranBlocks t e).1)) := runBlocks_withBuffers ..

/-- More data on the registers a chunk left is all the data at once, in the registers. -/
theorem afterUpdate_afterUpdate {c : Cfg} (hbs : 0 < c.bs) (t v : Bytes) (e : Engine c) :
    afterUpdate v (afterUpdate t e) = afterUpdate (fullBytes c t ++ v) e := by
  rw [afterUpdate.eq_def v, afterUpdate_pthold, ranBlocks_afterUpdate, afterUpdate.eq_def (fullBytes c t ++ v),
    ranBlocks_fullBytes_append hbs, heldAfter_append, tailBytes_fullBytes_append hbs]
  rfl

/-- More data on the registers a chunk left is all the data at once, in what is answered. -/
theorem released_afterUpdate {c : Cfg} (hbs : 0 < c.bs) (t v : Bytes) (e : Engine c) :
    released c (ranBlocks (fullBytes c t ++ v) e).1 =
      released c (ranBlocks t e).1 ++ released c (ranBlocks v (afterUpdate t e)).1 := by
  rw [ranBlocks_afterUpdate, ranBlocks_fullBytes_append hbs, released_append]

/-- Settles O51: the first chunk and the second each have room and blocks that fit where both together do. -/
theorem updateChunksJoin : Obligations.UpdateChunksJoin := by
  intro a b s hl hc hfit hroom
  obtain ⟨hbs, -⟩ := bounds_of_cfgLegal hc
  rw [append_eq_fullBytes_append s.cfg, div_fullBytes_append hbs] at hfit hroom
  have hfirst := updateReply_runs (pl := a) hl
    (room_of_le fun hd m hm => (hroom hd m hm).trans' (by rw [Nat.add_mul]; omega)) (hfit.mono (Nat.le_add_right _ _))
  have hheld : s.cfg.dir = .dec → (afterUpdate (s.eng.dbuf ++ a) s.eng).pthold.length =
      s.eng.pthold.length + (s.eng.dbuf ++ a).length / s.cfg.bs * s.cfg.bs := fun hd => by
    rw [afterUpdate_pthold, ← ranBlocks_out_length _ s.eng]
    simp only [heldAfter, hd, List.length_append (as := s.eng.pthold)]
  have hsecond := updateReply_runs (pl := b) (e := afterUpdate (s.eng.dbuf ++ a) s.eng) (.inr rfl)
    (room_of_le fun hd m hm => by
      rw [hheld hd, Nat.add_assoc, ← Nat.add_mul]
      exact hroom hd m hm)
    (by
      rw [afterUpdate_ctr]
      exact hfit.tail)
  have hjoined := updateReply_runs (pl := a ++ b) hl
    (room_of_le fun hd m hm => by
      rw [← List.append_assoc, append_eq_fullBytes_append s.cfg, div_fullBytes_append hbs]
      exact hroom hd m hm)
    (by rwa [← List.append_assoc, append_eq_fullBytes_append s.cfg, div_fullBytes_append hbs])
  rw [afterUpdate_dbuf, afterUpdate_afterUpdate hbs] at hsecond
  rw [← List.append_assoc, append_eq_fullBytes_append s.cfg (s.eng.dbuf ++ a) b, released_afterUpdate hbs] at hjoined
  exact ⟨_, _, _, _, exec_of_reply (i := .update a) hfirst,
    exec_of_reply (i := .update b) (s := answer s ⟨afterUpdate (s.eng.dbuf ++ a) s.eng, .ok, _⟩) hsecond,
    exec_of_reply (i := .update (a ++ b)) hjoined⟩

/-! ### FINISH, whatever the table holds -/

/-- The end of the data pass and the tag on the registers an UPDATE left, and on all the data at once. -/
theorem lastBlocks_afterUpdate {c : Cfg} (hbs : 0 < c.bs) (t v : Bytes) (e : Engine c) :
    (lastBlocks (fullBytes c t ++ v) e).1 = (ranBlocks t e).1 ++ (lastBlocks v (afterUpdate t e)).1 ∧
    (tag (lastBlocks (fullBytes c t ++ v) e).2).1 = (tag (lastBlocks v (afterUpdate t e)).2).1 ∧
    endMessage (tag (lastBlocks (fullBytes c t ++ v) e).2).2 = endMessage (tag (lastBlocks v (afterUpdate t e)).2).2 := by
  rw [lastBlocks_fullBytes_append hbs, afterUpdate, lastBlocks_withBuffers, tag_withBuffers, endMessage_withBuffers]
  exact ⟨rfl, rfl, rfl⟩

/-- An encrypting FINISH after an UPDATE, and one with all the data. -/
theorem finishEnc_afterUpdate {c : Cfg} (hbs : 0 < c.bs) (hd : c.dir = .enc) {a b : Bytes} {e : Engine c}
    (hfit : BlocksFit c e.ctr ((e.dbuf ++ a ++ b).length / c.bs)) :
    ∃ (e2 : Engine c) (o2 : Bytes), finishEnc b (afterUpdate (e.dbuf ++ a) e) = .ok ⟨e2, .ok, o2⟩ ∧
      finishEnc (a ++ b) e = .ok ⟨e2, .ok, released c (ranBlocks (e.dbuf ++ a) e).1 ++ o2⟩ := by
  have hjoined := finishEnc_accepted (pl := a ++ b) (e := e) (by rwa [← List.append_assoc])
  rw [append_eq_fullBytes_append c, div_fullBytes_append hbs] at hfit
  have hafter := finishEnc_accepted (pl := b) (e := afterUpdate (e.dbuf ++ a) e) (by
    rw [afterUpdate_ctr]
    exact hfit.tail)
  obtain ⟨hout, htag, hregs⟩ := lastBlocks_afterUpdate hbs (e.dbuf ++ a) (tailBytes c (e.dbuf ++ a) ++ b) e
  rw [← List.append_assoc, append_eq_fullBytes_append c (e.dbuf ++ a) b, hout, htag, hregs, List.append_assoc] at hjoined
  rw [afterUpdate_dbuf] at hafter
  refine ⟨_, _, hafter, ?_⟩
  simpa only [released, hd] using hjoined

/-- The tag is cut from the end, so bytes in front of enough others stay with the ciphertext. -/
theorem parts_append {c : Cfg} {t v : Bytes} (h : c.taglen ≤ v.length) :
    cipherPart c (t ++ v) = t ++ cipherPart c v ∧ tagPart c (t ++ v) = tagPart c v := by
  have hcut : (t ++ v).length - c.taglen = t.length + (v.length - c.taglen) := by
    rw [List.length_append]
    omega
  rw [cipherPart, tagPart, hcut, List.take_length_add_append, List.drop_length_add_append]
  exact ⟨rfl, rfl⟩

/-- A decrypting FINISH after an UPDATE that left the bytes of the tag, and one with all the data. -/
theorem finishDec_afterUpdate {c : Cfg} (hbs : 0 < c.bs) (hd : c.dir = .dec) {a b : Bytes} {e : Engine c}
    (hfit : BlocksFit c e.ctr ((e.dbuf ++ a ++ b).length / c.bs))
    (hleft : (e.dbuf ++ a).length / c.bs * c.bs + c.taglen ≤ (e.dbuf ++ a ++ b).length) :
    ∃ (e2 : Engine c) (o2 : Bytes) (st : Status), finishDec b (afterUpdate (e.dbuf ++ a) e) = .ok ⟨e2, st, o2⟩ ∧
      finishDec (a ++ b) e = .ok ⟨e2, st, released c (ranBlocks (e.dbuf ++ a) e).1 ++ o2⟩ := by
  have hsplit : e.dbuf ++ (a ++ b) = fullBytes c (e.dbuf ++ a) ++ (tailBytes c (e.dbuf ++ a) ++ b) := by
    rw [← List.append_assoc, append_eq_fullBytes_append c]
  rw [List.append_assoc, hsplit] at hfit hleft
  generalize hv : tailBytes c (e.dbuf ++ a) ++ b = v at hfit hleft hsplit
  have hlen : c.taglen ≤ v.length := by
    rw [List.length_append (as := fullBytes c (e.dbuf ++ a)), fullBytes_length] at hleft
    omega
  obtain ⟨hct, htagpart⟩ := parts_append (t := fullBytes c (e.dbuf ++ a)) hlen
  have hshorter : (cipherPart c v).length ≤ v.length := List.length_take_le' ..
  have hfit' : BlocksFit c e.ctr ((fullBytes c (e.dbuf ++ a) ++ cipherPart c v).length / c.bs) :=
    hfit.mono (Nat.div_le_div_right (by rw [List.length_append, List.length_append]; omega))
  have hjoined := finishDec_accepted (pl := a ++ b) (e := e) (by rw [hsplit]; exact hleft.trans' (Nat.le_add_left _ _))
    (by rwa [hsplit, hct])
  rw [div_fullBytes_append hbs] at hfit'
  have hafter := finishDec_accepted (pl := b) (e := afterUpdate (e.dbuf ++ a) e) (by rwa [afterUpdate_dbuf, hv]) (by
    rw [afterUpdate_ctr, afterUpdate_dbuf, hv]
    exact hfit'.tail)
  obtain ⟨hout, htag, hregs⟩ := lastBlocks_afterUpdate hbs (e.dbuf ++ a) (cipherPart c v) e
  rw [hsplit, hct, htagpart, hout, htag, hregs, ← List.append_assoc] at hjoined
  rw [afterUpdate_dbuf, hv, afterUpdate_pthold] at hafter
  simp only [heldAfter, released, hd, List.nil_append] at *
  split_ifs at hafter hjoined
  · exact ⟨_, _, _, hafter, hjoined⟩
  · exact ⟨_, _, _, hafter, hjoined⟩

/-- Settles O52, direction by direction. -/
theorem updateBeforeFinishJoins : Obligations.UpdateBeforeFinishJoins := by
  intro a b s hl hc hfit hroom hleft
  obtain ⟨hbs, -⟩ := bounds_of_cfgLegal hc
  have hle : (s.eng.dbuf ++ a).length / s.cfg.bs ≤ (s.eng.dbuf ++ a ++ b).length / s.cfg.bs :=
    Nat.div_le_div_right (by rw [List.length_append (bs := b)]; omega)
  have hfirst := updateReply_runs (pl := a) hl (room_of_le hroom) (hfit.mono hle)
  have hmsg : (afterUpdate (s.eng.dbuf ++ a) s.eng).phase = .started ∨
      (afterUpdate (s.eng.dbuf ++ a) s.eng).phase = .processing := .inr rfl
  have hfinish : ∃ (e2 : Engine s.cfg) (o2 : Bytes) (st : Status),
      finishReply b (afterUpdate (s.eng.dbuf ++ a) s.eng) = .ok ⟨e2, st, o2⟩ ∧
      finishReply (a ++ b) s.eng = .ok ⟨e2, st, released s.cfg (ranBlocks (s.eng.dbuf ++ a) s.eng).1 ++ o2⟩ := by
    cases hd : s.cfg.dir with
    | enc =>
      rw [finishReply_enc hl hd, finishReply_enc hmsg hd]
      obtain ⟨e2, o2, hafter, hjoined⟩ := finishEnc_afterUpdate hbs hd hfit
      exact ⟨e2, o2, .ok, hafter, hjoined⟩
    | dec =>
      rw [finishReply_dec hl hd, finishReply_dec hmsg hd]
      exact finishDec_afterUpdate hbs hd hfit (hleft hd)
  obtain ⟨e2, o2, st, hafter, hjoined⟩ := hfinish
  exact ⟨_, e2, _, o2, st, exec_of_reply (i := .update a) hfirst,
    exec_of_reply (i := .finish b) (s := answer s ⟨afterUpdate (s.eng.dbuf ++ a) s.eng, .ok, _⟩) hafter,
    exec_of_reply (i := .finish (a ++ b)) hjoined⟩

end Sys2Proof.Machine
end

section
/-! PROOF. Whole messages (30_encoding.md R70, 70_reset_and_hazards.md R189). A run of commands is a chain of replies
(`runCommands_next`). A message that ends in KEYED leaves the visible registers as it found them
(`message_restores_visible`), so the same message again meets the same visible registers, and those alone decide the answer
(`reply_visible_congr`). An empty SET_AD in front of an empty `ADBUF` leaves the registers as they are. -/

namespace Sys2Proof.Machine

/-! ### Runs of commands -/

theorem runCommands_of_reply {i : Instr} {is : List Instr} {s : State} {r : Reply s.cfg} (h : reply i s.eng = .ok r) :
    runCommands (i :: is) s = runCommands is (answer s r) := by
  simp only [runCommands, exec_of_reply h]

/-- A run that has an end state began with a command that was answered. -/
theorem runCommands_next {i : Instr} {is : List Instr} {s t : State} (h : runCommands (i :: is) s = .next t) :
    ∃ r, reply i s.eng = .ok r ∧ runCommands is (answer s r) = .next t := by
  cases hr : reply i s.eng with
  | ok r => exact ⟨r, rfl, (runCommands_of_reply hr).symm.trans h⟩
  | error x =>
    simp only [runCommands, exec_of_refused hr] at h
    cases h

/-- The last response after a command is that of its reply. -/
theorem answered_answer (s : State) (r : Reply s.cfg) : Answered (answer s r) r.status r.payload := by
  obtain ⟨hst, -, -⟩ := responseWord_fields s.freeCtr r.status r.payload
  exact ⟨_, List.getLast?_concat .., hst, rfl⟩

/-! ### Answers and the visible registers -/

theorem reply_inv {c : Cfg} {i : Instr} {e : Engine c} {r : Reply c} (he : e.Inv) (h : reply i e = .ok r) : r.eng.Inv := by
  cases i with
  | setKey pl => exact setKeyReply_inv he h
  | setAd pl => exact setAdReply_inv he h
  | start pl => exact startReply_inv he h
  | update pl => exact updateReply_inv he h
  | finish pl => exact finishReply_inv he h

theorem seen_reply {c : Cfg} (i : Instr) {e : Engine c} (he : e.Inv) : seen (reply i e.visible) = seen (reply i e) := by
  cases i with
  | setKey pl => exact seen_setKeyReply pl e
  | setAd pl => exact seen_setAdReply pl e
  | start pl => exact seen_startReply pl he
  | update pl => exact seen_updateReply pl he
  | finish pl => exact seen_finishReply pl he

/-- Registers that look alike give replies that look alike. -/
theorem reply_visible_congr {c : Cfg} {i : Instr} {e e' : Engine c} {r r' : Reply c} (he : e.Inv) (he' : e'.Inv)
    (hv : e.visible = e'.visible) (h : reply i e = .ok r) (h' : reply i e' = .ok r') : r.visible = r'.visible := by
  have hseen : seen (reply i e) = seen (reply i e') := by rw [← seen_reply i he, hv, seen_reply i he']
  rw [h, h', seen_ok, seen_ok] at hseen
  exact Except.ok.inj hseen

/-- Whatever FINISH answers in a legal phase, the registers it leaves are those of an ended message. -/
theorem finishReply_eng {c : Cfg} {pl : Bytes} {e : Engine c} {r : Reply c}
    (hl : e.phase = .started ∨ e.phase = .processing) (ht : TableOk e) (h : finishReply pl e = .ok r) : ∃ tab log, r.eng = finished e tab log := by
  cases hd : c.dir with
  | enc =>
    obtain ⟨-, tab, rfl, -⟩ := finishReply_enc_ok hl hd ht h
    exact ⟨_, _, rfl⟩
  | dec =>
    rcases finishReply_dec_ok hl hd ht h with ⟨-, rfl⟩ | ⟨-, -, tab, ⟨-, rfl⟩ | ⟨-, rfl⟩, -⟩
    · exact ⟨_, _, rfl⟩
    · exact ⟨_, _, rfl⟩
    · exact ⟨_, _, rfl⟩

/-- A START and a FINISH that end in KEYED leave nothing of the message but the AD's absence. -/
theorem message_restores_visible {c : Cfg} {n x : Bytes} {e : Engine c} {r2 r3 : Reply c} (he : e.Inv)
    (hp : e.phase = .keyed) (h2 : startReply n e = .ok r2) (h3 : finishReply x r2.eng = .ok r3)
    (hend : r3.eng.phase = .keyed) :
    r3.eng.visible = ({ e with adbuf := [] } : Engine c).visible := by
  obtain ⟨-, hk, ⟨hbottom, hsum, hoffset, hchecksum, hctr, hdbuf, hpthold⟩, -⟩ := (Engine.inv_keyed_iff hp).mp he
  have hinv2 : r2.eng.Inv := startReply_inv he h2
  rcases gate_ok h3 with ⟨hp2, rfl⟩ | ⟨hp2, rfl⟩ | ⟨-, -, -, rfl⟩ | ⟨-, -, hl, -⟩
  · rw [hp2] at hend
    cases hend
  · rw [hp2] at hend
    cases hend
  · cases hend
  · obtain ⟨tab, log, hregs3⟩ := finishReply_eng (List.mem_pair.mp hl) (hinv2.keyClassOk (.inr hl)).tableOk h3
    rcases startReply_ok hp h2 with ⟨-, rfl⟩ | ⟨-, -, -, rfl⟩
    · simp [hp] at hl
    · obtain ⟨tab', hregs2, -⟩ := beginMessage_spec n hk
      rw [hregs3, hregs2]
      simp only [finished, Engine.visible, hp, hbottom, hsum, hoffset, hchecksum, hctr, hdbuf, hpthold]

/-- Settles O54: SET_AD gives both messages the same visible registers, and the answers follow. -/
theorem sameMessageTwiceSameAnswer : Obligations.SameMessageTwiceSameAnswer := by
  intro n a x s t u hs hp had hfirst hend hsecond
  have hcap : overCap s.cfg.adMax a.length = false := overCap_eq_false.mpr had
  obtain ⟨r1, h1, hrun1⟩ := runCommands_next hfirst
  obtain ⟨r2, h2, hrun2⟩ := runCommands_next hrun1
  obtain ⟨r3, h3, hrun3⟩ := runCommands_next hrun2
  obtain rfl := Host.Outcome.next.inj hrun3
  obtain ⟨q1, g1, hrun1'⟩ := runCommands_next hsecond
  obtain ⟨q2, g2, hrun2'⟩ := runCommands_next hrun1'
  obtain ⟨q3, g3, hrun3'⟩ := runCommands_next hrun2'
  obtain rfl := Host.Outcome.next.inj hrun3'
  obtain rfl : (⟨{ s.eng with adbuf := a }, .ok, []⟩ : Reply s.cfg) = r1 :=
    Except.ok.inj ((setAdReply_accepted hp hcap).symm.trans h1)
  obtain rfl : (⟨{ r3.eng with adbuf := a }, .ok, []⟩ : Reply s.cfg) = q1 :=
    Except.ok.inj ((setAdReply_accepted (c := s.cfg) hend hcap).symm.trans g1)
  have hinv1 := reply_inv hs h1
  have hinv2 := reply_inv hinv1 h2
  have hinv3 := reply_inv hinv2 h3
  have hvisible : ({ s.eng with adbuf := a } : Engine s.cfg).visible =
      ({ r3.eng with adbuf := a } : Engine s.cfg).visible :=
    congrArg (fun e : Engine s.cfg => { e with adbuf := a })
      (message_restores_visible (c := s.cfg) hinv1 hp h2 h3 hend).symm
  have hstart : r2.visible = q2.visible := reply_visible_congr (c := s.cfg) hinv1 (reply_inv hinv3 g1) hvisible h2 g2
  have hfinish : r3.visible = q3.visible :=
    reply_visible_congr (c := s.cfg) hinv2 (reply_inv (reply_inv hinv3 g1) g2) (congrArg Reply.eng hstart) h3 g3
  have hst : r3.visible.status = q3.visible.status := by rw [hfinish]
  have hpl : r3.visible.payload = q3.visible.payload := by rw [hfinish]
  refine ⟨r3.status, r3.payload, answered_answer _ r3, ?_⟩
  have hanswer : Answered _ q3.visible.status q3.visible.payload := answered_answer _ q3
  rwa [← hst, ← hpl] at hanswer

/-- Settles O55: an empty AD stored over an empty AD leaves the registers as they are. -/
theorem emptySetAdMayBeOmitted : Obligations.EmptySetAdMayBeOmitted := by
  intro n x s t hp hadbuf h
  have hkeep : ({ s.eng with adbuf := [] } : Engine s.cfg) = s.eng := by rw [← hadbuf]
  obtain ⟨r1, h1, hrun1⟩ := runCommands_next h
  obtain ⟨r2, h2, hrun2⟩ := runCommands_next hrun1
  obtain ⟨r3, h3, hrun3⟩ := runCommands_next hrun2
  obtain rfl := Host.Outcome.next.inj hrun3
  obtain rfl : (⟨{ s.eng with adbuf := [] }, .ok, []⟩ : Reply s.cfg) = r1 :=
    Except.ok.inj ((setAdReply_accepted hp (not_overCap_zero _)).symm.trans h1)
  have h2' : reply (.start n) s.eng = .ok r2 := hkeep ▸ h2
  have h3' : reply (.finish x) (answer s r2).eng = .ok r3 := h3
  refine ⟨answer (answer s r2) r3, r3.status, r3.payload, ?_, answered_answer _ r3, answered_answer (answer s r2) r3⟩
  rw [runCommands_of_reply h2', runCommands_of_reply h3', runCommands]

end Sys2Proof.Machine
end

section
/-! PROOF. What SEAL makes, OPEN gives back (30_encoding.md R70, 44_core_loop.md R129, R135, 45_tag_finish.md R144). The two
engines differ in `DIR` alone, so after SET_KEY, SET_AD and START they hold the same key, masks, Offset and digest
(`SameMessage`). Block number `j` of the ciphertext is what the encrypting engine made of block `j` of the plaintext
(`blockAt_lastOut`), so the decrypting engine recovers that block (`outBlockAt_opened`); hence plaintext, checksum and tag
come out the same. -/

namespace Sys2Proof.Machine

/-! ### A byte string by its blocks -/

/-- Block `j` of a byte string made of Blocks is the `j`-th of them. -/
theorem blockAt_flatMap {c : Cfg} (g : Nat → Block c.w) (u : Bytes) {n j : Nat} (hj : j < n) :
    blockAt c (((List.range n).flatMap fun k => blockBytes (g k)) ++ u) j = g j := by
  induction n generalizing g j with
  | zero => omega
  | succ n ih =>
    rw [List.range_succ_eq_map, List.flatMap_cons, List.flatMap_map, List.append_assoc]
    cases j with
    | zero => rw [blockAt_zero, List.take_left' (blockBytes_length _), intBlock_blockBytes]
    | succ j =>
      rw [← blockAt_drop, List.drop_left' (blockBytes_length _)]
      exact ih (fun k => g (k + 1)) (by omega)

/-- The full blocks of a byte string, as bytes again, are its beginning. -/
theorem flatMap_blockAt {c : Cfg} {t : Bytes} {n : Nat} (h : n * c.bs ≤ t.length) :
    ((List.range n).flatMap fun j => blockBytes (blockAt c t j)) = t.take (n * c.bs) := by
  induction n with
  | zero => rw [Nat.zero_mul, List.take_zero]; rfl
  | succ n ih =>
    rw [Nat.succ_mul] at h
    have hlen : ((t.drop (n * c.bs)).take c.bs).length = c.bs := by
      rw [List.length_take, List.length_drop]
      omega
    rw [List.range_succ, List.flatMap_append, ih (by omega), List.flatMap_singleton, blockAt, blockBytes_intBlock hlen,
      Nat.succ_mul, List.take_add]

theorem xorPrefix_xorPrefix {c : Cfg} {s : Bytes} (h : s.length ≤ c.bs) (pad : Block c.w) :
    xorPrefix (xorPrefix s pad) pad = s := by
  rw [← blockBytes_length pad] at h
  simp only [xorPrefix]
  generalize blockBytes pad = p at h
  induction s generalizing p with
  | nil => rfl
  | cons b s ih =>
    cases p with
    | nil => simp at h
    | cons d p =>
      rw [List.zipWith_cons_cons, List.zipWith_cons_cons, ih p (Nat.le_of_succ_le_succ h), BitVec.xor_assoc,
        BitVec.xor_self, BitVec.xor_zero]

/-! ### The output of the data pass, in pieces -/

theorem tailBytes_length {c : Cfg} (t : Bytes) : (tailBytes c t).length = t.length % c.bs := by
  have hdiv := Nat.div_add_mod' t.length c.bs
  rw [tailBytes, List.length_drop]
  omega

theorem tailOut_length {c : Cfg} (hbs : 0 < c.bs) (e : Engine c) (t : Bytes) : (tailOut e t).length = t.length % c.bs := by
  have hmod := Nat.mod_lt t.length hbs
  rw [tailOut, xorPrefix, List.length_zipWith, blockBytes_length, tailBytes_length]
  omega

theorem tailBytes_eq_nil {c : Cfg} {t : Bytes} (h : ¬ 0 < t.length % c.bs) : tailBytes c t = [] :=
  List.length_eq_zero_iff.mp (by rw [tailBytes_length]; omega)

/-- Without a partial block the closed form of its output is empty anyhow. -/
theorem lastOut_eq {c : Cfg} (e : Engine c) (t : Bytes) : lastOut e t = blocksOut e t (t.length / c.bs) ++ tailOut e t := by
  rw [lastOut]
  split_ifs with h
  · rfl
  · rw [tailOut, tailBytes_eq_nil h]
    rfl

theorem lastOut_length {c : Cfg} (hbs : 0 < c.bs) (e : Engine c) (t : Bytes) : (lastOut e t).length = t.length := by
  rw [lastOut_eq, List.length_append, blocksOut_length, tailOut_length hbs, Nat.div_add_mod']

theorem messageTag_length {c : Cfg} (h : c.taglen ≤ c.bs) (e : Engine c) (t : Bytes) :
    (messageTag e t).length = c.taglen := by
  rw [messageTag, List.length_take, blockBytes_length, Nat.min_eq_left h]

theorem blockAt_lastOut {c : Cfg} (e : Engine c) (t : Bytes) {j : Nat} (hj : j < t.length / c.bs) :
    blockAt c (lastOut e t) j = outBlockAt e t j := by
  rw [lastOut_eq, blocksOut]
  exact blockAt_flatMap (outBlockAt e t) _ hj

theorem tailBytes_lastOut {c : Cfg} (hbs : 0 < c.bs) (e : Engine c) (t : Bytes) :
    tailBytes c (lastOut e t) = tailOut e t := by
  rw [tailBytes, lastOut_length hbs, lastOut_eq, List.drop_left' (blocksOut_length ..)]

/-! ### The two engines -/

/-- An encrypting and a decrypting engine of one configuration stand at the same point of the same message. -/
structure SameMessage {c : Cfg} (e : Engine { c with dir := .enc }) (f : Engine { c with dir := .dec }) : Prop where
  key : f.key = e.key
  lstar : f.lstar = e.lstar
  ldollar : f.ldollar = e.ldollar
  offset : f.offset = e.offset
  checksum : f.checksum = e.checksum
  ctr : f.ctr = e.ctr
  sum : f.sum = e.sum

section
variable {c : Cfg} {e : Engine { c with dir := .enc }} {f : Engine { c with dir := .dec }}

theorem sealed_length (e : Engine { c with dir := .enc }) (hbs : 0 < c.bs) (t : Bytes) : (lastOut e t).length = t.length :=
  lastOut_length (c := { c with dir := .enc }) hbs e t

theorem offsetAt_opened (h : SameMessage e f) (j : Nat) : offsetAt f j = offsetAt e j := by
  simp only [offsetAt, h.lstar, h.offset, h.ctr]

/-- What is recovered from block `j` of the ciphertext is block `j` of the plaintext. -/
theorem outBlockAt_opened (h : SameMessage e f) (t : Bytes) {j : Nat} (hj : j < t.length / c.bs) :
    outBlockAt f (lastOut e t) j = blockAt c t j := by
  have hblock : blockAt { c with dir := .dec } (lastOut e t) j = outBlockAt e t j := blockAt_lastOut e t hj
  rw [outBlockAt_dec rfl]
  dsimp only
  rw [hblock, offsetAt_opened h, h.key, outBlockAt_enc rfl]
  dsimp only
  rw [BitVec.xor_comm (cipherE ..), xor_cancel_left]
  exact (congrArg (· ^^^ offsetAt e j) (cipherD_cipherE { c with dir := .enc } e.key _)).trans (xor_cancel_swap ..)

theorem fullOffset_opened (h : SameMessage e f) (hbs : 0 < c.bs) (t : Bytes) :
    fullOffset f (lastOut e t) = fullOffset e t := by
  have hlen := sealed_length e hbs t
  simp only [fullOffset, h.lstar, h.offset, h.ctr, hlen]

theorem tailOut_opened (h : SameMessage e f) (hbs : 0 < c.bs) (t : Bytes) : tailOut f (lastOut e t) = tailBytes c t := by
  have htail : tailBytes { c with dir := .dec } (lastOut e t) = tailOut e t :=
    tailBytes_lastOut (c := { c with dir := .enc }) hbs e t
  rw [tailOut, htail, fullOffset_opened h hbs, h.lstar, h.key, tailOut]
  exact xorPrefix_xorPrefix (tailBytes_length_lt hbs t).le _

theorem lastOut_opened (h : SameMessage e f) (hbs : 0 < c.bs) (t : Bytes) : lastOut f (lastOut e t) = t := by
  have hlen := sealed_length e hbs t
  have hblocks : blocksOut f (lastOut e t) (t.length / c.bs) = fullBytes c t :=
    (List.flatMap_congr fun j hj => congrArg blockBytes (outBlockAt_opened h t (List.mem_range.mp hj))).trans
      (flatMap_blockAt (Nat.div_mul_le_self ..))
  rw [lastOut_eq, hlen, tailOut_opened h hbs, hblocks, fullBytes_append_tailBytes]

theorem tagChecksum_opened (h : SameMessage e f) (hbs : 0 < c.bs) (t : Bytes) :
    tagChecksum f (lastOut e t) = tagChecksum e t := by
  have hlen := sealed_length e hbs t
  have hplain : xorSum (t.length / c.bs) (plainBlockAt f (lastOut e t)) = xorSum (t.length / c.bs) (plainBlockAt e t) := by
    rw [plainBlockAt_dec rfl, plainBlockAt_enc rfl]
    exact xorSum_congr fun j hj => outBlockAt_opened h t hj
  have htail : tailPlain f (lastOut e t) = tailPlain e t := tailOut_opened h hbs t
  simp only [tagChecksum, fullChecksum, hlen, hplain, htail, h.checksum]
  rfl

/-- The tag is that of the encrypting engine. -/
theorem messageTag_opened (h : SameMessage e f) (hbs : 0 < c.bs) (t : Bytes) :
    messageTag f (lastOut e t) = messageTag e t := by
  have hlen := sealed_length e hbs t
  have hoffset : tagOffset f (lastOut e t) = tagOffset e t := by
    simp only [tagOffset, hlen, fullOffset_opened h hbs, h.lstar]
  simp only [messageTag, tagChecksum_opened h hbs, hoffset, h.ldollar, h.sum, h.key]
  rfl

end

/-! ### The runs -/

/-- The registers of a message that has begun under the key `k` with the nonce `n` and the AD `a`. -/
structure Begun {c : Cfg} (k n a : Bytes) (e : Engine c) : Prop where
  phase : e.phase = .started
  table : TableOk e
  key : e.key = k
  lstar : e.lstar = cipherE c k 0
  offset : e.offset = nonceOffset c k n
  sum : e.sum = adDigest c k a
  checksum : e.checksum = 0
  ctr : e.ctr = 0
  dbuf : e.dbuf = []
  pthold : e.pthold = []

/-- `DIR` has no part in any of these. -/
theorem Begun.sameMessage {c : Cfg} {k n a : Bytes} {e : Engine { c with dir := .enc }} {f : Engine { c with dir := .dec }}
    (he : Begun k n a e) (hf : Begun k n a f) : SameMessage e f := by
  have hlstar : f.lstar = e.lstar := hf.lstar.trans he.lstar.symm
  have hldollar : f.ldollar = e.ldollar := by
    refine hf.table.1.trans (Eq.trans ?_ he.table.1.symm)
    rw [hlstar]
  exact ⟨hf.key.trans he.key.symm, hlstar, hldollar, hf.offset.trans he.offset.symm, hf.checksum.trans he.checksum.symm,
    hf.ctr.trans he.ctr.symm, hf.sum.trans he.sum.symm⟩

/-- START on the registers of an accepted key and AD. -/
theorem beginMessage_begun {c : Cfg} {n : Bytes} {e : Engine c} (hk : KeyClassOk e) :
    Begun e.key n e.adbuf (beginMessage n e) := by
  obtain ⟨tab, hregs, -, hentries, -⟩ := beginMessage_spec n hk
  obtain ⟨-, hlstar, ⟨hldollar, -⟩, -⟩ := hk
  rw [hregs]
  exact ⟨rfl, ⟨hldollar, hentries⟩, rfl, hlstar, rfl, rfl, rfl, rfl, rfl, rfl⟩

/-- SET_KEY on a fresh engine. -/
theorem fresh_setKey {c : Cfg} {k : Bytes} (hc : cfgLegal c = true) (hk : k.length ∈ c.keylens) :
    ∃ e : Engine c, reply (.setKey k) (Engine.reset c) = .ok ⟨e, .ok, []⟩ ∧
      e.phase = .keyed ∧ e.key = k ∧ KeyClassOk e := by
  have hacc : cipherAccepts c k = true := List.contains_iff_mem.mpr hk
  have hinv := installKey_inv hc hacc (ciphSetKey k (Engine.reset c))
  exact ⟨_, setKeyReply_accepted (.inl (if_pos hc)) hacc, rfl, rfl, hinv.keyClassOk (.inl rfl)⟩

/-- A SEAL or OPEN on a fresh engine, up to its FINISH (30_encoding.md R70). -/
theorem pseudoSeal_begun {c : Cfg} {k n a : Bytes} (hc : cfgLegal c = true) (hk : k.length ∈ c.keylens)
    (hn : n.length < c.bs) (hs : slicesExist c = true) (ha : overCap c.adMax a.length = false)
    (hfit : AdBlocksFit c (a.length / c.bs)) :
    ∃ (e : Engine c) (rsp : List Response) (ctr : Nat), Begun k n a e ∧
      ∀ x, runCommands (pseudoSeal k n a x) (freshState c) = runCommands [.finish x] ⟨c, e, [], rsp, ctr⟩ := by
  obtain ⟨e1, h1, hp1, rfl, hclass⟩ := fresh_setKey hc hk
  have h2 : reply (.setAd a) e1 = .ok ⟨{ e1 with adbuf := a }, .ok, []⟩ := setAdReply_accepted hp1 ha
  have h3 : reply (.start n) { e1 with adbuf := a } = .ok ⟨beginMessage n { e1 with adbuf := a }, .ok, []⟩ :=
    startReply_accepted (e := { e1 with adbuf := a }) hp1 hn hs hfit
  exact ⟨_, _, _, beginMessage_begun (e := { e1 with adbuf := a }) hclass, fun x =>
    calc runCommands (pseudoSeal e1.key n a x) (freshState c)
      _ = runCommands (pseudoMsg n a x) (answer (freshState c) ⟨e1, .ok, []⟩) := runCommands_of_reply h1
      _ = runCommands [.start n, .finish x] (answer (answer (freshState c) ⟨e1, .ok, []⟩) ⟨_, .ok, []⟩) :=
        runCommands_of_reply h2
      _ = runCommands [.finish x] (answer (answer (answer (freshState c) ⟨e1, .ok, []⟩) ⟨_, .ok, []⟩) ⟨_, .ok, []⟩) :=
        runCommands_of_reply h3⟩

/-- The FINISH that ends a SEAL. -/
theorem sealing_reply {c : Cfg} {k n a p : Bytes} {e : Engine { c with dir := .enc }} (he : Begun k n a e)
    (hfit : BlocksFit c 0 (p.length / c.bs)) :
    ∃ e', reply (.finish p) e = .ok ⟨e', .ok, lastOut e p ++ messageTag e p⟩ := by
  obtain ⟨tab, hr, -⟩ := finishReply_enc_accepted (pl := p) (.inl he.phase) rfl he.table (by
    rw [he.dbuf, he.ctr]
    exact hfit)
  rw [he.dbuf, List.nil_append] at hr
  exact ⟨_, hr⟩

/-- The FINISH that ends the OPEN of what a SEAL made. -/
theorem opening_reply {c : Cfg} {k n a p : Bytes} {e : Engine { c with dir := .enc }} {f : Engine { c with dir := .dec }}
    (hc : cfgLegal c = true) (he : Begun k n a e) (hf : Begun k n a f) (hfit : BlocksFit c 0 (p.length / c.bs)) :
    ∃ f', reply (.finish (lastOut e p ++ messageTag e p)) f = .ok ⟨f', .ok, p⟩ := by
  obtain ⟨hbs, htaglen⟩ := bounds_of_cfgLegal hc
  have hlen := sealed_length e hbs p
  have htag : (messageTag e p).length = c.taglen := messageTag_length (c := { c with dir := .enc }) htaglen e p
  obtain ⟨hct, htagpart⟩ := parts_append (c := { c with dir := .dec }) (t := lastOut e p) htag.ge
  have hct' : cipherPart { c with dir := .dec } (lastOut e p ++ messageTag e p) = lastOut e p := by
    rw [hct, cipherPart, htag, Nat.sub_self, List.take_zero, List.append_nil]
  have htagpart' : tagPart { c with dir := .dec } (lastOut e p ++ messageTag e p) = messageTag e p := by
    rw [htagpart, tagPart, htag, Nat.sub_self, List.drop_zero]
  have hsame := he.sameMessage hf
  obtain ⟨tab, hr, -⟩ := finishReply_dec_accepted (pl := lastOut e p ++ messageTag e p) (.inl hf.phase) rfl hf.table
    (by
      rw [hf.dbuf, List.nil_append, List.length_append, htag]
      exact Nat.le_add_left ..)
    (by
      rw [hf.dbuf, hf.ctr, List.nil_append, hct', hlen]
      exact hfit)
  rw [hf.dbuf, List.nil_append, hct', htagpart', if_pos (messageTag_opened hsame hbs p), hf.pthold, List.nil_append,
    lastOut_opened hsame hbs] at hr
  exact ⟨_, hr⟩

/-- Settles O53: both engines begin the same message; the ciphertext opens to the plaintext under the same tag. -/
theorem sealedMessageOpens : Obligations.SealedMessageOpens := by
  intro c k n a p hc hk hn hext hshift had hadfit hfit
  obtain ⟨hbs, htaglen⟩ := bounds_of_cfgLegal hc
  have hs : slicesExist c = true := slicesExist_iff.mpr ⟨hext, hshift⟩
  have ha : overCap c.adMax a.length = false := overCap_eq_false.mpr had
  obtain ⟨e, rspE, ctrE, he, hrunE⟩ := pseudoSeal_begun (c := { c with dir := .enc }) hc hk hn hs ha hadfit
  obtain ⟨f, rspF, ctrF, hf, hrunF⟩ := pseudoSeal_begun (c := { c with dir := .dec }) hc hk hn hs ha hadfit
  obtain ⟨e', hseal⟩ := sealing_reply he hfit
  obtain ⟨f', hopen⟩ := opening_reply hc he hf hfit
  refine ⟨_, _, lastOut e p ++ messageTag e p, (hrunE p).trans (runCommands_of_reply hseal),
    answered_answer _ ⟨e', .ok, _⟩, ?_, (hrunF _).trans (runCommands_of_reply hopen), answered_answer _ ⟨f', .ok, p⟩⟩
  rw [List.length_append, sealed_length e hbs, messageTag_length (c := { c with dir := .enc }) htaglen]

end Sys2Proof.Machine
end
